-- ==== Sys2Proof/Word.lean ====
section
/-! DEFINITION. The plain value types of the core (spec 00_scope.md R5 to R7, 30_encoding.md R55, R56): unsigned
bytes, 16-bit words, the 12-bit field nnn, and the four-bit indices. -/

namespace Sys2Proof

/-- A byte: a general register, a timer, the stack pointer, a memory byte (R5). -/
abbrev Byte := BitVec 8

/-- A 16-bit word: an instruction, PC, I, a stack slot (R5). -/
abbrev Word := BitVec 16

/-- The field nnn: a 12-bit address or constant (R55, R56). -/
abbrev Addr := BitVec 12

/-- The index of a general register V0 to VF (R12). -/
abbrev Reg := Fin 16

/-- The number of a key, 0..15 (R5, R136). -/
abbrev Key := Fin 16

/-- The field n of DRW: a count of sprite rows, 0..15 (R56). -/
abbrev RowCount := Fin 16

/-- VF, the flag register: "register index 0xF" (R10, R13). -/
abbrev VF : Reg := 15

end Sys2Proof
end

