-- ==== Sys2Proof/Config.lean ====
section
/-! DEFINITION. What an implementation fixes (the parameters of 00_scope.md R5) and the free values of the model: the
random byte of RND (44_misc_9-D.md R104) and the host's key translation (60_exceptions.md R137). The OPEN parameters have a TYPE here; their defaults are
`decoderDefaults` (Decode.lean), `Machine.Framebuffer.initial` (Machine/Display.lean) and `Machine.defaultGlyphRows`
(Machine/Memory.lean). -/

namespace Sys2Proof.Config

/-- MEM_SIZE: 4096 bytes, addresses 0x000 to 0xFFF (R5). -/
abbrev memSize : Nat := 4096

/-- PROGRAM_BASE (R5, R47). -/
abbrev programBase : Nat := 0x200

/-- GLYPH_HEIGHT: five bytes a glyph (R5). -/
abbrev glyphHeight : Nat := 5

/-- GLYPH_TABLE, the part that is an argument: the 75 bytes of the digits 1 to F, at 0x005 to 0x04F (R5, R45, D20). -/
abbrev GlyphRows := Vector Byte 75

/-- STACK_SLOTS: the entry count the stack pointer is compared with (R5, R19, R20; C3). -/
abbrev stackSlots : Nat := 16

/-- FAMILY0_SELECT: which bits of a family-0 word pick 00E0 and 00EE (R60, D4). -/
inductive Family0Select where
  | word | low8 | low4
deriving DecidableEq, Repr

/-- The two parameters the decoder reads, and nothing else but the word (R70). -/
structure DecoderParams where
  /-- FAMILY0_SELECT (R60). -/
  family0 : Family0Select
  /-- CHECK_LOW_NIBBLE_5_9 (R61). -/
  checkLowNibble : Bool
deriving DecidableEq, Repr

/-- FREE VALUE (DESIGN CHOICE, log 6): the random byte of the k-th execution of RND, in 0..254, with no
distribution and no relation between draws (R104, D15). It has no body: no proof can know a value of it. -/
opaque drawRand : Nat → Fin 255

/-- FREE VALUE (log 24): `translate(host_key_code)`, a key or none. "The mapping itself is outside the core" (R137), so
it has no body. -/
opaque translate : Nat → Option Key

end Sys2Proof.Config
end

