-- ==== Sys2Proof/Syntax.lean ====
section
/-! DEFINITION. The instructions of the core: one constructor per row of spec/opcode_table.json (30_encoding.md
R59), the no-op class included, with the operands the row's fields name. -/

namespace Sys2Proof

/-- The decoded instruction (R58). `x`, `y` are register indices, `kk` a byte constant, `nnn` a 12-bit address
or constant, `n` a row count (R56). -/
inductive Instr where
  | cls                                   -- 00E0 CLS
  | ret                                   -- 00EE RET
  | jp (nnn : Addr)                       -- 1nnn JP nnn
  | call (nnn : Addr)                     -- 2nnn CALL nnn
  | seImm (x : Reg) (kk : Byte)           -- 3xkk SE Vx, kk
  | sneImm (x : Reg) (kk : Byte)          -- 4xkk SNE Vx, kk
  | seReg (x y : Reg)                     -- 5xy0 SE Vx, Vy
  | ldImm (x : Reg) (kk : Byte)           -- 6xkk LD Vx, kk
  | addImm (x : Reg) (kk : Byte)          -- 7xkk ADD Vx, kk
  | ldReg (x y : Reg)                     -- 8xy0 LD Vx, Vy
  | orReg (x y : Reg)                     -- 8xy1 OR Vx, Vy
  | andReg (x y : Reg)                    -- 8xy2 AND Vx, Vy
  | xorReg (x y : Reg)                    -- 8xy3 XOR Vx, Vy
  | addReg (x y : Reg)                    -- 8xy4 ADD Vx, Vy
  | sub (x y : Reg)                       -- 8xy5 SUB Vx, Vy
  | shr (x y : Reg)                       -- 8xy6 SHR Vx, Vy (y encoded, not read)
  | subn (x y : Reg)                      -- 8xy7 SUBN Vx, Vy
  | shl (x y : Reg)                       -- 8xyE SHL Vx, Vy (y encoded, not read)
  | sneReg (x y : Reg)                    -- 9xy0 SNE Vx, Vy
  | ldI (nnn : Addr)                      -- Annn LD I, nnn
  | jpV0 (nnn : Addr)                     -- Bnnn JP V0, nnn
  | rnd (x : Reg) (kk : Byte)             -- Cxkk RND Vx, kk
  | drw (x y : Reg) (n : RowCount)        -- Dxyn DRW Vx, Vy, n
  | skp (x : Reg)                         -- Ex9E SKP Vx
  | sknp (x : Reg)                        -- ExA1 SKNP Vx
  | ldVxDt (x : Reg)                      -- Fx07 LD Vx, DT
  | ldVxK (x : Reg)                       -- Fx0A LD Vx, K
  | ldDtVx (x : Reg)                      -- Fx15 LD DT, Vx
  | ldStVx (x : Reg)                      -- Fx18 LD ST, Vx
  | addIVx (x : Reg)                      -- Fx1E ADD I, Vx
  | ldFVx (x : Reg)                       -- Fx29 LD F, Vx
  | ldBVx (x : Reg)                       -- Fx33 LD B, Vx
  | ldMemVx (x : Reg)                     -- Fx55 LD [I], Vx
  | ldVxMem (x : Reg)                     -- Fx65 LD Vx, [I]
  /-- Any other word (R65, R78), with the word; no meaning reads it (DESIGN CHOICE, log 18). The raw word of every
  instruction is kept in `Decoded`. -/
  | nop (word : Word)
deriving DecidableEq, Repr

/-- The identifier of an opcode-map row (R59), one per row of the table. -/
inductive Opcode where
  | cls | ret | jp | call | seImm | sneImm | seReg | ldImm | addImm
  | ldReg | orReg | andReg | xorReg | addReg | sub | shr | subn | shl
  | sneReg | ldI | jpV0 | rnd | drw | skp | sknp
  | ldVxDt | ldVxK | ldDtVx | ldStVx | addIVx | ldFVx | ldBVx | ldMemVx | ldVxMem | nop
deriving DecidableEq, Repr

/-- The row an instruction belongs to (R59). -/
def Instr.opcode : Instr → Opcode
  | .cls => .cls
  | .ret => .ret
  | .jp _ => .jp
  | .call _ => .call
  | .seImm _ _ => .seImm
  | .sneImm _ _ => .sneImm
  | .seReg _ _ => .seReg
  | .ldImm _ _ => .ldImm
  | .addImm _ _ => .addImm
  | .ldReg _ _ => .ldReg
  | .orReg _ _ => .orReg
  | .andReg _ _ => .andReg
  | .xorReg _ _ => .xorReg
  | .addReg _ _ => .addReg
  | .sub _ _ => .sub
  | .shr _ _ => .shr
  | .subn _ _ => .subn
  | .shl _ _ => .shl
  | .sneReg _ _ => .sneReg
  | .ldI _ => .ldI
  | .jpV0 _ => .jpV0
  | .rnd _ _ => .rnd
  | .drw _ _ _ => .drw
  | .skp _ => .skp
  | .sknp _ => .sknp
  | .ldVxDt _ => .ldVxDt
  | .ldVxK _ => .ldVxK
  | .ldDtVx _ => .ldDtVx
  | .ldStVx _ => .ldStVx
  | .addIVx _ => .addIVx
  | .ldFVx _ => .ldFVx
  | .ldBVx _ => .ldBVx
  | .ldMemVx _ => .ldMemVx
  | .ldVxMem _ => .ldVxMem
  | .nop _ => .nop

/-- The decoded instruction: "the raw 16-bit word plus derived fields" (10_state.md R25, R55, R70). `op` is the variant
the word decodes to, the same for every word of the no-op class; the raw word beside it loses no bit. -/
structure Decoded where
  word : Word
  op   : Opcode
  x    : Reg
  y    : Reg
  n    : Fin 16
  kk   : Byte
  nnn  : Addr
deriving DecidableEq, Repr

/-- One row of the opcode map (R59): a word `w` matches it when `w &&& mask = pat`. -/
structure OpcodeRow where
  op   : Opcode
  pat  : Word
  mask : Word
deriving DecidableEq, Repr

end Sys2Proof
end

