-- ==== Sys2Proof/WellFormed.lean ====
section
/-! DEFINITION. Well-formed instructions. The operand types already bound every field (R56), so the one check left is
that an instruction of the no-op class carries a word of that class: a word that no row of the opcode map matches
(30_encoding.md R59, R65). -/

namespace Sys2Proof

open Config

/-- Rows of family 0, by FAMILY0_SELECT (R60 and the notes of the table's rows CLS and RET). -/
def family0Rows : Family0Select → List OpcodeRow
  | .word => [⟨.cls, 0x00E0, 0xFFFF⟩, ⟨.ret, 0x00EE, 0xFFFF⟩]
  | .low8 => [⟨.cls, 0x00E0, 0xF0FF⟩, ⟨.ret, 0x00EE, 0xF0FF⟩]
  | .low4 => [⟨.cls, 0x0000, 0xF00F⟩, ⟨.ret, 0x000E, 0xF00F⟩]

/-- Rows of families 5 and 9, by CHECK_LOW_NIBBLE_5_9 (R61). -/
def lowNibbleRows (check : Bool) : List OpcodeRow :=
  [⟨.seReg, 0x5000, if check then 0xF00F else 0xF000⟩, ⟨.sneReg, 0x9000, if check then 0xF00F else 0xF000⟩]

/-- Rows of the families dispatched on the top four bits alone (R59). -/
def topRows : List OpcodeRow :=
  [⟨.jp, 0x1000, 0xF000⟩, ⟨.call, 0x2000, 0xF000⟩, ⟨.seImm, 0x3000, 0xF000⟩, ⟨.sneImm, 0x4000, 0xF000⟩,
   ⟨.ldImm, 0x6000, 0xF000⟩, ⟨.addImm, 0x7000, 0xF000⟩, ⟨.ldI, 0xA000, 0xF000⟩, ⟨.jpV0, 0xB000, 0xF000⟩,
   ⟨.rnd, 0xC000, 0xF000⟩, ⟨.drw, 0xD000, 0xF000⟩]

/-- Rows of family 8 (R59, R62). -/
def family8Rows : List OpcodeRow :=
  [⟨.ldReg, 0x8000, 0xF00F⟩, ⟨.orReg, 0x8001, 0xF00F⟩, ⟨.andReg, 0x8002, 0xF00F⟩, ⟨.xorReg, 0x8003, 0xF00F⟩,
   ⟨.addReg, 0x8004, 0xF00F⟩, ⟨.sub, 0x8005, 0xF00F⟩, ⟨.shr, 0x8006, 0xF00F⟩, ⟨.subn, 0x8007, 0xF00F⟩,
   ⟨.shl, 0x800E, 0xF00F⟩]

/-- Rows of families E and F (R59, R63, R64). -/
def familyEFRows : List OpcodeRow :=
  [⟨.skp, 0xE09E, 0xF0FF⟩, ⟨.sknp, 0xE0A1, 0xF0FF⟩, ⟨.ldVxDt, 0xF007, 0xF0FF⟩, ⟨.ldVxK, 0xF00A, 0xF0FF⟩,
   ⟨.ldDtVx, 0xF015, 0xF0FF⟩, ⟨.ldStVx, 0xF018, 0xF0FF⟩, ⟨.addIVx, 0xF01E, 0xF0FF⟩, ⟨.ldFVx, 0xF029, 0xF0FF⟩,
   ⟨.ldBVx, 0xF033, 0xF0FF⟩, ⟨.ldMemVx, 0xF055, 0xF0FF⟩, ⟨.ldVxMem, 0xF065, 0xF0FF⟩]

/-- The opcode map's 34 rows under the given parameters (R59). -/
def opcodeRows (p : DecoderParams) : List OpcodeRow :=
  family0Rows p.family0 ++ topRows ++ lowNibbleRows p.checkLowNibble ++ family8Rows ++ familyEFRows

/-- "A word matches a row when `(w & mask) == match`" (R59). -/
def OpcodeRow.hits (r : OpcodeRow) (w : Word) : Bool := w &&& r.mask == r.pat

/-- The no-op class: the words no row matches (R59, R65). -/
def noOpWord (p : DecoderParams) (w : Word) : Bool := !(opcodeRows p).any (·.hits w)

/-- An instruction of the no-op class carries a word of that class; every other instruction is well formed by its
types. -/
def Instr.wellFormed (p : DecoderParams) : Instr → Bool
  | .nop w => noOpWord p w
  | .cls | .ret | .jp _ | .call _ | .seImm _ _ | .sneImm _ _ | .seReg _ _ | .ldImm _ _ | .addImm _ _ => true
  | .ldReg _ _ | .orReg _ _ | .andReg _ _ | .xorReg _ _ | .addReg _ _ | .sub _ _ | .shr _ _ | .subn _ _ => true
  | .shl _ _ | .sneReg _ _ | .ldI _ | .jpV0 _ | .rnd _ _ | .drw _ _ _ | .skp _ | .sknp _ | .ldVxDt _ => true
  | .ldVxK _ | .ldDtVx _ | .ldStVx _ | .addIVx _ | .ldFVx _ | .ldBVx _ | .ldMemVx _ | .ldVxMem _ => true

end Sys2Proof
end

