-- ==== Sys2Proof/Decode.lean ====
section
/-! DEFINITION. The decoder (30_encoding.md R54 to R67): a total function of the word and the two parameters; the
encoder, written from the same formats (R57, R68); and both over bytes, big-endian (R37, R54). -/

namespace Sys2Proof

open Config

/-! ## Fields of a word (R55) -/

/-- `f`, "top 4 bits": w[15:12]. -/
def fieldF (w : Word) : Nat := w.toNat / 0x1000

/-- `x`, "bits 8–11": w[11:8]. -/
def fieldX (w : Word) : Reg := ⟨w.toNat / 0x100 % 16, Nat.mod_lt _ (by decide)⟩

/-- `y`, "bits 4–7": w[7:4]. -/
def fieldY (w : Word) : Reg := ⟨w.toNat / 0x10 % 16, Nat.mod_lt _ (by decide)⟩

/-- `n`, "low 4 bits": w[3:0]. -/
def fieldN (w : Word) : Fin 16 := ⟨w.toNat % 16, Nat.mod_lt _ (by decide)⟩

/-- `kk`, "low 8 bits": w[7:0]. -/
def fieldKK (w : Word) : Byte := w.setWidth 8

/-- `nnn`, "low 12 bits": w[11:0]. -/
def fieldNNN (w : Word) : Addr := w.setWidth 12

/-! ## The two-level dispatch (R58) -/

/-- The defaults of the decoder's OPEN parameters: FAMILY0_SELECT = word, CHECK_LOW_NIBBLE_5_9 = false (R5, D4,
D5; DESIGN CHOICE, log 7). -/
def decoderDefaults : DecoderParams := { family0 := .word, checkLowNibble := false }

/-- `sel0(w, v)`: does the family-0 word `w` select the row whose low byte is `v`? (R60) -/
def sel0 (sel : Family0Select) (w : Word) (v : Byte) : Bool :=
  match sel with
  | .word => w == v.setWidth 16
  | .low8 => w.setWidth 8 == v
  | .low4 => w.setWidth 4 == v.setWidth 4

/-- Family 0 (R58, R60). -/
def decode0 (p : DecoderParams) (w : Word) : Instr :=
  if sel0 p.family0 w 0xE0 then .cls else if sel0 p.family0 w 0xEE then .ret else .nop w

/-- Families 5 and 9: the instruction, unless the low nibble is checked and not 0 (R61). -/
def decodeLowNibble (p : DecoderParams) (w : Word) (i : Instr) : Instr :=
  if p.checkLowNibble && (fieldN w).val != 0 then .nop w else i

/-- Family 8, on the low 4 bits (R62). -/
def decode8 (w : Word) : Instr :=
  match (fieldN w).val with
  | 0x0 => .ldReg (fieldX w) (fieldY w)
  | 0x1 => .orReg (fieldX w) (fieldY w)
  | 0x2 => .andReg (fieldX w) (fieldY w)
  | 0x3 => .xorReg (fieldX w) (fieldY w)
  | 0x4 => .addReg (fieldX w) (fieldY w)
  | 0x5 => .sub (fieldX w) (fieldY w)
  | 0x6 => .shr (fieldX w) (fieldY w)
  | 0x7 => .subn (fieldX w) (fieldY w)
  | 0xE => .shl (fieldX w) (fieldY w)
  | _ => .nop w

/-- Family E, on the low 8 bits (R63). -/
def decodeE (w : Word) : Instr :=
  if fieldKK w = 0x9E then .skp (fieldX w)
  else if fieldKK w = 0xA1 then .sknp (fieldX w)
  else .nop w

/-- Family F, on the low 8 bits (R64). -/
def decodeF (w : Word) : Instr :=
  if fieldKK w = 0x07 then .ldVxDt (fieldX w)
  else if fieldKK w = 0x0A then .ldVxK (fieldX w)
  else if fieldKK w = 0x15 then .ldDtVx (fieldX w)
  else if fieldKK w = 0x18 then .ldStVx (fieldX w)
  else if fieldKK w = 0x1E then .addIVx (fieldX w)
  else if fieldKK w = 0x29 then .ldFVx (fieldX w)
  else if fieldKK w = 0x33 then .ldBVx (fieldX w)
  else if fieldKK w = 0x55 then .ldMemVx (fieldX w)
  else if fieldKK w = 0x65 then .ldVxMem (fieldX w)
  else .nop w

/-- `decode(w)` under the parameters `p`: total, no word is refused (R58, R66, R70). -/
def decodeWith (p : DecoderParams) (w : Word) : Instr :=
  match fieldF w with
  | 0x0 => decode0 p w
  | 0x1 => .jp (fieldNNN w)
  | 0x2 => .call (fieldNNN w)
  | 0x3 => .seImm (fieldX w) (fieldKK w)
  | 0x4 => .sneImm (fieldX w) (fieldKK w)
  | 0x5 => decodeLowNibble p w (.seReg (fieldX w) (fieldY w))
  | 0x6 => .ldImm (fieldX w) (fieldKK w)
  | 0x7 => .addImm (fieldX w) (fieldKK w)
  | 0x8 => decode8 w
  | 0x9 => decodeLowNibble p w (.sneReg (fieldX w) (fieldY w))
  | 0xA => .ldI (fieldNNN w)
  | 0xB => .jpV0 (fieldNNN w)
  | 0xC => .rnd (fieldX w) (fieldKK w)
  | 0xD => .drw (fieldX w) (fieldY w) (fieldN w)
  | 0xE => decodeE w
  | _ => decodeF w

/-- The decoded instruction of a word: the raw word, the variant and every derived field, whatever the instruction
(R25, R55, R58, R70). -/
def decodeRecord (p : DecoderParams) (w : Word) : Decoded :=
  { word := w, op := (decodeWith p w).opcode, x := fieldX w, y := fieldY w, n := fieldN w, kk := fieldKK w,
    nnn := fieldNNN w }

/-- The instruction of a decoded word: its variant with the fields its rule names (R55, R57). -/
def Decoded.instr (d : Decoded) : Instr :=
  match d.op with
  | .cls => .cls
  | .ret => .ret
  | .jp => .jp d.nnn
  | .call => .call d.nnn
  | .seImm => .seImm d.x d.kk
  | .sneImm => .sneImm d.x d.kk
  | .seReg => .seReg d.x d.y
  | .ldImm => .ldImm d.x d.kk
  | .addImm => .addImm d.x d.kk
  | .ldReg => .ldReg d.x d.y
  | .orReg => .orReg d.x d.y
  | .andReg => .andReg d.x d.y
  | .xorReg => .xorReg d.x d.y
  | .addReg => .addReg d.x d.y
  | .sub => .sub d.x d.y
  | .shr => .shr d.x d.y
  | .subn => .subn d.x d.y
  | .shl => .shl d.x d.y
  | .sneReg => .sneReg d.x d.y
  | .ldI => .ldI d.nnn
  | .jpV0 => .jpV0 d.nnn
  | .rnd => .rnd d.x d.kk
  | .drw => .drw d.x d.y d.n
  | .skp => .skp d.x
  | .sknp => .sknp d.x
  | .ldVxDt => .ldVxDt d.x
  | .ldVxK => .ldVxK d.x
  | .ldDtVx => .ldDtVx d.x
  | .ldStVx => .ldStVx d.x
  | .addIVx => .addIVx d.x
  | .ldFVx => .ldFVx d.x
  | .ldBVx => .ldBVx d.x
  | .ldMemVx => .ldMemVx d.x
  | .ldVxMem => .ldVxMem d.x
  | .nop => .nop d.word

/-- Two bytes as a word: the byte at the lower address is bits 15:8 (R35, R37). -/
def wordOfBytes (hi lo : Byte) : Word := hi ++ lo

/-- Bits 15:8 of a word, the byte stored at the lower address (R37). -/
def highByte (w : Word) : Byte := w.extractLsb' 8 8

/-- Bits 7:0 of a word, the byte stored at the next address (R37). -/
def lowByte (w : Word) : Byte := w.setWidth 8

/-- The one way bytes can fail to hold an instruction: fewer than two are left (R54). -/
inductive DecodeError where
  | truncated
deriving DecidableEq, Repr

/-- Decode the instruction at the front of a list of bytes, and the bytes after it (R54). -/
def decodeBytes (p : DecoderParams) : List Byte → Except DecodeError (Instr × List Byte)
  | hi :: lo :: rest => .ok (decodeWith p (wordOfBytes hi lo), rest)
  | [_] => .error .truncated
  | [] => .error .truncated

/-! ## The encoder (R57, R59, R68) -/

/-- Format NNN: `oooo nnnn nnnn nnnn`. -/
def encNNN (f : Nat) (nnn : Addr) : Word := BitVec.ofNat 16 (f * 0x1000 + nnn.toNat)

/-- Formats XKK and XSS: `oooo xxxx kkkk kkkk`. -/
def encXKK (f : Nat) (x : Reg) (kk : Byte) : Word := BitVec.ofNat 16 (f * 0x1000 + x.val * 0x100 + kk.toNat)

/-- Formats XY, XYS and XYN: `oooo xxxx yyyy nnnn`; for XY the low nibble is 0 (R68). -/
def encXYN (f : Nat) (x y : Reg) (n : Fin 16) : Word :=
  BitVec.ofNat 16 (f * 0x1000 + x.val * 0x100 + y.val * 0x10 + n.val)

/-- The word of an instruction (R59, R68). -/
def encode : Instr → Word
  | .cls => 0x00E0
  | .ret => 0x00EE
  | .jp nnn => encNNN 0x1 nnn
  | .call nnn => encNNN 0x2 nnn
  | .seImm x kk => encXKK 0x3 x kk
  | .sneImm x kk => encXKK 0x4 x kk
  | .seReg x y => encXYN 0x5 x y 0x0
  | .ldImm x kk => encXKK 0x6 x kk
  | .addImm x kk => encXKK 0x7 x kk
  | .ldReg x y => encXYN 0x8 x y 0x0
  | .orReg x y => encXYN 0x8 x y 0x1
  | .andReg x y => encXYN 0x8 x y 0x2
  | .xorReg x y => encXYN 0x8 x y 0x3
  | .addReg x y => encXYN 0x8 x y 0x4
  | .sub x y => encXYN 0x8 x y 0x5
  | .shr x y => encXYN 0x8 x y 0x6
  | .subn x y => encXYN 0x8 x y 0x7
  | .shl x y => encXYN 0x8 x y 0xE
  | .sneReg x y => encXYN 0x9 x y 0x0
  | .ldI nnn => encNNN 0xA nnn
  | .jpV0 nnn => encNNN 0xB nnn
  | .rnd x kk => encXKK 0xC x kk
  | .drw x y n => encXYN 0xD x y n
  | .skp x => encXKK 0xE x 0x9E
  | .sknp x => encXKK 0xE x 0xA1
  | .ldVxDt x => encXKK 0xF x 0x07
  | .ldVxK x => encXKK 0xF x 0x0A
  | .ldDtVx x => encXKK 0xF x 0x15
  | .ldStVx x => encXKK 0xF x 0x18
  | .addIVx x => encXKK 0xF x 0x1E
  | .ldFVx x => encXKK 0xF x 0x29
  | .ldBVx x => encXKK 0xF x 0x33
  | .ldMemVx x => encXKK 0xF x 0x55
  | .ldVxMem x => encXKK 0xF x 0x65
  | .nop w => w

/-- The two bytes of an instruction as memory holds them (R37). -/
def encodeBytes (i : Instr) : List Byte := [highByte (encode i), lowByte (encode i)]

/-- A row's fixed bits and, under the rest of the mask, the bits of the decoded fields x, y, n (R59, R70). -/
def OpcodeRow.assemble (r : OpcodeRow) (d : Decoded) : Word := r.pat ||| (encXYN 0 d.x d.y d.n &&& ~~~r.mask)

/-! ## The host's reading of a table row -/

/-- The word of an instruction whose bits are `w`, the bits from `nbits` on being 0. -/
def tableWord (nbits w : Nat) : Word := BitVec.ofNat 16 (w % 2 ^ nbits)

/-- The instruction the decoder, under the default parameters, reads from the two bytes of that word. -/
def decodeTableWord (nbits w : Nat) : Option Instr :=
  match decodeBytes decoderDefaults [highByte (tableWord nbits w), lowByte (tableWord nbits w)] with
  | .ok (i, _) => some i
  | .error _ => none

end Sys2Proof
end

