-- ==== Sys2Proof/Machine/Display.lean ====
section
/-! DEFINITION. The display collaborator (60_exceptions.md R134, R135): a monochrome framebuffer of DISPLAY_WIDTH ×
DISPLAY_HEIGHT pixels, held as the rising list of its set pixels (log 19), `clear` and `draw_sprite`. -/

namespace Sys2Proof.Machine

/-- The framebuffer. It carries its own dimensions, the OPEN parameters DISPLAY_WIDTH and DISPLAY_HEIGHT (R5, D18),
so that what is said about a framebuffer is said for all of them. `lit` lists the set pixels by index
`py * width + px`, rising. -/
structure Framebuffer where
  width  : Nat
  height : Nat
  lit    : List Nat
deriving DecidableEq, Repr

/-- The framebuffer at reset: every pixel clear (R29, D19, log 11); 64 × 32, PRESUMED (G1, log 8). -/
def Framebuffer.initial : Framebuffer := { width := 64, height := 32, lit := [] }

/-- The index of the pixel in column `px` and row `py`. -/
def Framebuffer.index (fb : Framebuffer) (px py : Nat) : Nat := py * fb.width + px

/-- Is the pixel set? `fb[px][py] == 1` (R135). -/
def Framebuffer.pixel (fb : Framebuffer) (px py : Nat) : Bool := decide (fb.index px py ∈ fb.lit)

/-- Put an index into a rising list that lacks it, or take it out of one that holds it. -/
def toggle : List Nat → Nat → List Nat
  | [], a => [a]
  | b :: rest, a => if a < b then a :: b :: rest else if a = b then rest else b :: toggle rest a

/-- `fb[px][py] <- fb[px][py] ^ 1` (R135). -/
def Framebuffer.flip (fb : Framebuffer) (px py : Nat) : Framebuffer := { fb with lit := toggle fb.lit (fb.index px py) }

/-- `clear()`: every pixel becomes clear (R134). -/
def Framebuffer.clear (fb : Framebuffer) : Framebuffer := { fb with lit := [] }

/-- One bit of a sprite row: bit_index `b`, 0 the most significant (R135, D18). A zero bit leaves its pixel; a one
bit flips it, and the collision flag rises if the pixel was set. -/
def drawBit (ox oy row : Nat) (byte : Byte) (acc : Framebuffer × Bool) (b : Nat) : Framebuffer × Bool :=
  if byte.getMsbD b then
    (acc.1.flip ((ox + b) % acc.1.width) ((oy + row) % acc.1.height),
     acc.2 || acc.1.pixel ((ox + b) % acc.1.width) ((oy + row) % acc.1.height))
  else acc

/-- One row of a sprite, bits 0 to 7 in order (R135). -/
def drawRow (ox oy row : Nat) (byte : Byte) (acc : Framebuffer × Bool) : Framebuffer × Bool :=
  [0, 1, 2, 3, 4, 5, 6, 7].foldl (drawBit ox oy row byte) acc

/-- The rows of a sprite from `row` on, in order (R135). -/
def drawRows (ox oy : Nat) : Nat → List Byte → Framebuffer × Bool → Framebuffer × Bool
  | _, [], acc => acc
  | row, byte :: rest, acc => drawRows ox oy (row + 1) rest (drawRow ox oy row byte acc)

/-- `draw_sprite(ox, oy, bytes, cnt)` with `cnt` the number of bytes: the framebuffer after it and the collision
flag (R135). -/
def drawSprite (fb : Framebuffer) (ox oy : Byte) (bytes : List Byte) : Framebuffer × Bool :=
  drawRows ox.toNat oy.toNat 0 bytes (fb, false)

/-- Rising, with every index at least `lo` and below `hi`. -/
def risingBelow : Nat → Nat → List Nat → Bool
  | _, _, [] => true
  | lo, hi, a :: rest => decide (lo ≤ a) && decide (a < hi) && risingBelow (a + 1) hi rest

/-- A framebuffer has at least one pixel, and lists pixels it has, rising. -/
def Framebuffer.wf (fb : Framebuffer) : Bool :=
  decide (0 < fb.width) && decide (0 < fb.height) && risingBelow 0 (fb.width * fb.height) fb.lit

end Sys2Proof.Machine
end

