-- ==== Sys2Proof/Machine/Memory.lean ====
section
/-! DEFINITION. The memory array (20_memory.md R32 to R36): 4096 bytes, held as the list of the bytes that differ from
their reset contents, in one canonical form (log 25): addresses strictly rising and in range, and no entry equal to
what an unlisted address reads as. -/

namespace Sys2Proof.Machine

open Config

/-- Memory as (address, byte) pairs in canonical form. -/
abbrev Memory := List Host.Cell

/-- The glyph of digit 0, at 0x000 to 0x004: the source's own bytes (R44). -/
def glyphZero : List Byte := [0xF0, 0x90, 0x90, 0x90, 0xF0]

/-- The default of the argument GLYPH_TABLE: five bytes a glyph, digits 1 to F in order (R45; PRESUMED, log 9). -/
def defaultGlyphRows : GlyphRows :=
  ⟨#[0x20, 0x60, 0x20, 0x20, 0x70,  0xF0, 0x10, 0xF0, 0x80, 0xF0,  0xF0, 0x10, 0xF0, 0x10, 0xF0,
     0x90, 0x90, 0xF0, 0x10, 0x10,  0xF0, 0x80, 0xF0, 0x10, 0xF0,  0xF0, 0x80, 0xF0, 0x90, 0xF0,
     0xF0, 0x10, 0x20, 0x40, 0x40,  0xF0, 0x90, 0xF0, 0x90, 0xF0,  0xF0, 0x90, 0xF0, 0x10, 0xF0,
     0xF0, 0x90, 0xF0, 0x90, 0x90,  0xE0, 0x90, 0xE0, 0x90, 0xE0,  0xF0, 0x80, 0x80, 0x80, 0xF0,
     0xE0, 0x90, 0x90, 0x90, 0xE0,  0xF0, 0x80, 0xF0, 0x80, 0xF0,  0xF0, 0x80, 0xF0, 0x80, 0x80], rfl⟩

/-- The 80 bytes of the glyph table under the default rows, digits 0 to F in order (R44). -/
def glyphTable : List Byte := glyphZero ++ defaultGlyphRows.toList

/-- What an unlisted address reads as: the reset contents under the default glyph rows, the glyph table at 0x000 and
0x00 above it (R29, R44, R141). Another GLYPH_TABLE is listed over it: `resetMemory`. -/
def resetByte (a : Nat) : Byte := glyphTable.getD a 0

/-- The byte at an address, in range or not: the entry listed for it, else its reset contents. -/
def Memory.look : Memory → Nat → Byte
  | [], a => resetByte a
  | (k, b) :: rest, a => if k = a then b else Memory.look rest a

/-- Set the byte at an address, keeping the canonical form. -/
def Memory.put : Memory → Nat → Byte → Memory
  | [], a, b => if b = resetByte a then [] else [(a, b)]
  | (k, c) :: rest, a, b =>
    if a < k then
      if b = resetByte a then (k, c) :: rest else (a, b) :: (k, c) :: rest
    else if a = k then
      if b = resetByte a then rest else (a, b) :: rest
    else (k, c) :: Memory.put rest a b

/-- `get(a)`, MemRead(a, 1): none where the index is out of range (R33, R36). -/
def Memory.read (m : Memory) (a : Nat) : Option Byte := if a < memSize then some (m.look a) else none

/-- `set(a, v)`, MemWrite(a, 1, v): none where the index is out of range (R34, R36). -/
def Memory.write (m : Memory) (a : Nat) (b : Byte) : Option Memory := if a < memSize then some (m.put a b) else none

/-- `get_word(a)`, MemRead(a, 2): big-endian, and index+1 must be in range too (R35, R37). -/
def Memory.readWord (m : Memory) (a : Nat) : Option Word :=
  if a + 1 < memSize then some (m.look a ++ m.look (a + 1)) else none

/-- Canonical from address `lo` up. -/
def Memory.wfFrom : Nat → Memory → Bool
  | _, [] => true
  | lo, (k, b) :: rest => decide (lo ≤ k) && decide (k < memSize) && b != resetByte k && Memory.wfFrom (k + 1) rest

/-- The canonical form: strictly rising addresses below 4096, and no entry equal to its reset contents. -/
def Memory.wf (m : Memory) : Bool := Memory.wfFrom 0 m

/-- Put bytes at consecutive addresses, the first at `a` (R142: the program load). -/
def Memory.putAll : Memory → Nat → List Byte → Memory
  | m, _, [] => m
  | m, a, b :: bs => Memory.putAll (m.put a b) (a + 1) bs

/-- Memory after reset under the glyph rows `g`: zero-filled, then seeded (R44, R45, R141). -/
def resetMemory (g : GlyphRows) : Memory := Memory.putAll [] glyphZero.length g.toList

end Sys2Proof.Machine
end

