-- ==== Sys2Proof/Machine/State.lean ====
section
/-! DEFINITION. The machine's state (10_state.md R11, R27), the faults and refusals, and the state after reset
(R29). -/

namespace Sys2Proof.Machine

/-- The fault kinds and the info each records (60_exceptions.md R118). A fault is an entry of the state: `status`
becomes `Faulted(kind, info)` and the machine takes no further step (R122), so no step of this model answers
`Host.Outcome.fault` (log 1, safe). -/
inductive Fault where
  /-- FAULT_MEM_RANGE: a memory index outside 0..4095, or a word read at `a` with `a + 1` ≥ 4096; the failing
  index. Raised by the fetch, DRW, LD_B_VX, LD_MEM_VX, LD_VX_MEM (R119). Safe: the spec's own fault. -/
  | memRange (a : Nat)
  /-- FAULT_STACK_RANGE: SP ≥ 16 at the check of a push or pop; the SP checked. Raised by CALL and RET (R120).
  Safe: the spec's own fault (D10). -/
  | stackRange (sp : Byte)
  /-- FAULT_KEY_RANGE: a key number V[x] > 15 given to is_down; the value. Raised by SKP and SKNP (R121). Safe:
  the spec's own fault (D16, log 16). -/
  | keyRange (value : Byte)
deriving DecidableEq, Repr

/-- Why a step is not taken. None of these is an instruction's: every instruction runs (R72). -/
inductive Refusal where
  /-- Raised by an arm of `exec` whose instruction has no meaning yet; no arm of this model does. Safe. -/
  | notModelled (mnemonic : String)
  /-- Raised by `step` on a Faulted machine: "the model refuses such a step" (R152, R122). Safe. -/
  | stepAfterFault (f : Fault)
  /-- Raised by `step` on an Aborted machine (R152, R131). Safe. -/
  | stepAfterAbort
  /-- Raised by `step` when the host shuts down a Running machine: it ceases stepping, and the state at that point
  is the result (R151, log 2). Safe. -/
  | hostStopped
  /-- Raised by `step` where the host would step a Running machine into which no program has been loaded: the load is
  done before the first step (R142, R144, log 29). Safe. -/
  | notLoaded
  /-- Raised by `load` on a machine that has its program: a program load is "done once" (R142, R52, log 29). Safe. -/
  | alreadyLoaded
  /-- Raised by `load` on an image over 3584 bytes, with its length: no run starts (R142). Safe. -/
  | programTooLong (length : Nat)
deriving DecidableEq, Repr

/-- How the run stands (R31). -/
inductive Status where
  /-- The host may perform the next step. -/
  | running
  /-- An LD_VX_K is blocked and will write `V[x]` (R130). -/
  | waiting (x : Reg)
  /-- A fatal invariant violation happened; no further step (R122). -/
  | faulted (f : Fault)
  /-- The host cancelled a blocked LD_VX_K at shutdown; no further step (R131). -/
  | aborted
deriving DecidableEq, Repr

/-- What the host may do next (60_exceptions.md R138). -/
inductive HostAction where
  /-- Let the core take one step (R73). -/
  | step
  /-- A timer tick (R132). -/
  | tick
  /-- `set_down(k)` (R136). -/
  | setDown (k : Key)
  /-- `set_up(k)` (R136). -/
  | setUp (k : Key)
  /-- Deliver one key press to a waiting core (R130). -/
  | press (k : Key)
  /-- Report a press of a host key code, translated before it reaches the core; a code that translates to none is no
  event (R130, R137). -/
  | pressCode (code : Nat)
  /-- Shut down (R131, R151). -/
  | shutdown
deriving DecidableEq, Repr

/-- The machine: the core's state of R11, the collaborators' state of R27 beside it, and three fields of the
model's own (`host`, `draws`, `loaded`). -/
structure State where
  /-- M, the memory array (R32). -/
  mem : Memory
  /-- V0 to VF (R12). -/
  v : Vector Byte 16
  /-- I, the address register (R15). -/
  i : Word
  /-- PC, the program counter (R16). -/
  pc : Word
  /-- SP, the stack pointer (R17). -/
  sp : Byte
  /-- Stack[0..15], the call stack's slots (R18). -/
  stack : Vector Word 16
  /-- DT, the delay timer (R22). -/
  dt : Byte
  /-- ST, the sound timer (R23). -/
  st : Byte
  /-- How the run stands (R31). -/
  status : Status
  /-- The display's framebuffer (R27, R134). -/
  fb : Framebuffer
  /-- The input device's key-down bits (R27, R136). -/
  keys : Vector Bool 16
  /-- THE MODEL'S OWN: the host's coming actions, the next one first; an empty list is a host that only steps the
  core (DESIGN CHOICE, log 3). -/
  host : List HostAction
  /-- THE MODEL'S OWN: how many random bytes have been drawn (DESIGN CHOICE, log 6). -/
  draws : Nat
  /-- THE MODEL'S OWN: the program load has been done (R142). Before it the host takes no step, so that the PC of reset
  is never used to fetch (R144; DESIGN CHOICE, log 29). -/
  loaded : Bool
deriving DecidableEq, Repr

/-- The machine right after reset, before program load (R29, R141), under the default glyph rows; under other ones it is
`State.resetWith` (Machine/HostSide.lean). -/
def State.reset : State :=
  { mem := []
    v := Vector.replicate 16 0
    i := 0
    pc := 0
    sp := 0
    stack := Vector.replicate 16 0
    dt := 0
    st := 0
    status := .running
    fb := Framebuffer.initial
    keys := Vector.replicate 16 false
    host := []
    draws := 0
    loaded := false }

end Sys2Proof.Machine
end

