-- ==== Sys2Proof/Machine/Ops.lean ====
section
/-! DEFINITION. The named operations over registers, memory, the call stack and the collaborators (10_state.md R12 to
R23, 20_memory.md R33 to R42), taking a fault (60_exceptions.md R122, R123), and the fetch (40_engine.md R73). -/

namespace Sys2Proof.Machine

open Config

/-- The outcome of one execution or one step. -/
abbrev Result := Host.Outcome State Fault Refusal

/-! ## Registers -/

/-- `V[r]` (R12). -/
def State.getV (s : State) (r : Reg) : Byte := s.v[r.val]

/-- `V[r] <- b` (R12). -/
def State.setV (s : State) (r : Reg) (b : Byte) : State := { s with v := s.v.set r.val b }

/-- `I <- w` (R15). -/
def State.setI (s : State) (w : Word) : State := { s with i := w }

/-- `PC <- w` (R16). -/
def State.setPc (s : State) (w : Word) : State := { s with pc := w }

/-- `SP <- b` (R17). -/
def State.setSp (s : State) (b : Byte) : State := { s with sp := b }

/-- `DT <- b` (R22). -/
def State.setDt (s : State) (b : Byte) : State := { s with dt := b }

/-- `ST <- b` (R23). -/
def State.setSt (s : State) (b : Byte) : State := { s with st := b }

/-- `status <- t` (R31). -/
def State.setStatus (s : State) (t : Status) : State := { s with status := t }

/-- `Stack[j]` (R18). -/
def State.slot (s : State) (j : Fin 16) : Word := s.stack[j.val]

/-- `Stack[j] <- w` (R18). -/
def State.setSlot (s : State) (j : Fin 16) (w : Word) : State := { s with stack := s.stack.set j.val w }

/-- The memory array as a whole. -/
def State.setMem (s : State) (m : Memory) : State := { s with mem := m }

/-- The framebuffer as a whole (R27). -/
def State.setFb (s : State) (fb : Framebuffer) : State := { s with fb := fb }

/-- `is_down(k)` (R136). -/
def State.isDown (s : State) (k : Key) : Bool := s.keys[k.val]

/-- Change one key-down bit (R136). -/
def State.setKey (s : State) (k : Key) (down : Bool) : State := { s with keys := s.keys.set k.val down }

/-- The host's coming actions. -/
def State.setHost (s : State) (acts : List HostAction) : State := { s with host := acts }

/-- Whether the program load has been done. -/
def State.setLoaded (s : State) (b : Bool) : State := { s with loaded := b }

/-- `skip()`: PC <- (PC + 2) mod 2^16 (R77). -/
def State.skip (s : State) : State := s.setPc (s.pc + 2)

/-- Skip when the condition holds. -/
def State.skipIf (s : State) (c : Bool) : State := if c then s.skip else s

/-- `draw_rand()`: the free byte of this draw, in 0..254 (R104, log 6). -/
def State.randByte (s : State) : Byte := BitVec.ofNat 8 (drawRand s.draws).val

/-- Count one draw, so that the next one is a fresh free value. -/
def State.countDraw (s : State) : State := { s with draws := s.draws + 1 }

/-! ## Taking a fault -/

/-- The cause code of a fault (R118). -/
def Fault.code : Fault → Nat
  | .memRange _ => 1
  | .stackRange _ => 2
  | .keyRange _ => 3

/-- The info a fault records (R118). -/
def Fault.info : Fault → Nat
  | .memRange a => a
  | .stackRange sp => sp.toNat
  | .keyRange value => value.toNat

/-- FAULT ENTRY (R122): `status` becomes Faulted(kind, info) and nothing else is written; there is no handler, no
vector, no saved state, and no return from it (R125). `s` holds the effects before the failing primitive (R123). -/
def takeFault (f : Fault) (s : State) : Result := .next (s.setStatus (.faulted f))

/-- A sequence of primitives, so far: done, or stopped at a failing one with the state the ones before it left
(R123). -/
inductive Attempt where
  | done (s : State)
  | raised (f : Fault) (s : State)
deriving DecidableEq, Repr

/-- Go on with the next primitives where none has failed. -/
def Attempt.andThen (a : Attempt) (k : State → Attempt) : Attempt :=
  match a with
  | .done s => k s
  | .raised f s => .raised f s

/-- End an instruction: Done, or the fault entry. -/
def Attempt.finish : Attempt → Result
  | .done s => .next s
  | .raised f s => takeFault f s

/-! ## The call stack -/

/-- The stack slot a pointer names, where the bound check passes: SP < 16, the entry count (R19, R20, R120, D10). -/
def stackIndex (sp : Byte) : Option (Fin 16) :=
  if h : sp.toNat < stackSlots then some ⟨sp.toNat, h⟩ else none

/-- `push(a)` (R19): increment, check, write. A failing push leaves SP incremented and writes no slot (R123). -/
def State.push (s : State) (a : Word) : Attempt :=
  match stackIndex (s.sp + 1) with
  | some j => .done ((s.setSp (s.sp + 1)).setSlot j a)
  | none => .raised (.stackRange (s.sp + 1)) (s.setSp (s.sp + 1))

/-- `pop()` (R20): check, read, decrement. A failing pop changes nothing. -/
def State.pop (s : State) : Except Fault (Word × State) :=
  match stackIndex s.sp with
  | some j => .ok (s.slot j, s.setSp (s.sp - 1))
  | none => .error (.stackRange s.sp)

/-! ## Memory accesses -/

/-- MemWrite(a, 1, b) on the state; out of range it raises FAULT_MEM_RANGE(a) and has no effect (R34, R36). -/
def State.writeByte (s : State) (a : Nat) (b : Byte) : Attempt :=
  match s.mem.write a b with
  | some m => .done (s.setMem m)
  | none => .raised (.memRange a) s

/-- Write bytes at consecutive addresses from `a`, in increasing order, up to the first that is out of range; the
writes before it stay done (R42, R123). -/
def State.storeBytes : State → Nat → List Byte → Attempt
  | s, _, [] => .done s
  | s, a, b :: bs => (s.writeByte a b).andThen fun s' => State.storeBytes s' (a + 1) bs

/-- Read `n` bytes at consecutive addresses from `a`, in increasing order; the first out of range raises
FAULT_MEM_RANGE (R42, R105). -/
def Memory.readBytes (m : Memory) : Nat → Nat → Except Fault (List Byte)
  | _, 0 => .ok []
  | a, n + 1 =>
    match m.read a with
    | none => .error (.memRange a)
    | some b =>
      match Memory.readBytes m (a + 1) n with
      | .error f => .error f
      | .ok bs => .ok (b :: bs)

/-- Load registers from consecutive addresses from `a`, in increasing order, up to the first that is out of range;
the loads before it stay done (R42, R116, R123). -/
def State.loadRegs : State → Nat → List Reg → Attempt
  | s, _, [] => .done s
  | s, a, r :: rs =>
    match s.mem.read a with
    | none => .raised (.memRange a) s
    | some b => State.loadRegs (s.setV r b) (a + 1) rs

/-- The host's fetch (R73): the word at PC, and the state with PC advanced by 2 modulo 2^16. A fetch out of range
raises FAULT_MEM_RANGE(PC) before PC is advanced. -/
def State.fetch (s : State) : Except Fault (Word × State) :=
  match s.mem.readWord s.pc.toNat with
  | some w => .ok (w, s.setPc (s.pc + 2))
  | none => .error (.memRange s.pc.toNat)

end Sys2Proof.Machine
end

