-- ==== Sys2Proof/Machine/Operands.lean ====
section
/-! DEFINITION. The operand forms of the instructions (30_encoding.md R56): register, byte constant, absolute address,
I plus an offset (20_memory.md R42), the range V0..Vx, the glyph address and the BCD digits. -/

namespace Sys2Proof.Machine

open Config

/-- An absolute address or constant: `zext_16(nnn)` (R56). -/
def absAddr (nnn : Addr) : Word := nnn.setWidth 16

/-- The target of JP_V0: `zext_16(nnn) + zext_16(V[0])`, not reduced to 12 bits (R103). -/
def indexedAddr (nnn : Addr) (v0 : Byte) : Word := BitVec.ofNat 16 (nnn.toNat + v0.toNat)

/-- The effective address `I + off`, an integer: no reduction modulo 2^12 or 2^16 (R42). -/
def State.effAddr (s : State) (off : Nat) : Nat := s.i.toNat + off

/-- The registers V0 to VF in order. -/
def allRegs : List Reg := [0, 1, 2, 3, 4, 5, 6, 7, 8, 9, 10, 11, 12, 13, 14, 15]

/-- The registers V0 to Vx in order: `i in 0 .. x` (R114 to R116). -/
def regsUpTo (x : Reg) : List Reg := allRegs.take (x.val + 1)

/-- The values of V0 to Vx in order. -/
def State.regBytes (s : State) (x : Reg) : List Byte := (regsUpTo x).map s.getV

/-- The address of the glyph of digit `d`: `d * 5`, not reduced (R113). -/
def glyphAddr (d : Byte) : Word := BitVec.ofNat 16 (d.toNat * glyphHeight)

/-- The hundreds, tens and units digits of a byte (R114). -/
def bcdDigits (b : Byte) : List Byte :=
  [BitVec.ofNat 8 (b.toNat / 100), BitVec.ofNat 8 (b.toNat / 10 % 10), BitVec.ofNat 8 (b.toNat % 10)]

/-- A register's value as a key number; above 15 it is outside the contract of `is_down` (R106, R107, R121, D16). -/
def keyOf (b : Byte) : Except Fault Key :=
  if h : b.toNat < 16 then .ok ⟨b.toNat, h⟩ else .error (.keyRange b)

end Sys2Proof.Machine
end

