-- ==== Sys2Proof/Machine/Flags.lean ====
section
/-! DEFINITION. The values the flag-producing instructions write (10_state.md R13), and the arithmetic of the register
ALU (40_engine.md R76): computed on integers, reduced to a byte at the end. -/

namespace Sys2Proof.Machine

/-- `bool8(b)`: 1 when true, 0 when false (00_scope.md R7, D7). -/
def bool8 (b : Bool) : Byte := if b then 1 else 0

/-- The integer sum of two bytes, 0..510 (R96). -/
def byteSum (a b : Byte) : Nat := a.toNat + b.toNat

/-- The carry of ADD_REG: `bool8(sum > 255)` (R96). -/
def carryFlag (sum : Nat) : Byte := bool8 (decide (sum > 255))

/-- The comparison of SUB and SUBN: `bool8(a > b)`, unsigned and strict (R97, R99). -/
def greaterFlag (a b : Byte) : Byte := bool8 (decide (a.toNat > b.toNat))

/-- The flag of SHR: bit 0 (R98). -/
def lowBitFlag (a : Byte) : Byte := a &&& 0x01

/-- The flag of SHL: bit 7 as 0x80 or 0x00, not 1 or 0 (R100). -/
def highBitFlag (a : Byte) : Byte := a &&& 0x80

/-- The flag of DRW (R105). -/
def collisionFlag (c : Bool) : Byte := bool8 c

/-- A sum reduced modulo 256 (R76). -/
def wrapByte (n : Nat) : Byte := BitVec.ofNat 8 n

/-- `(a - b) mod 256` (R97, R99). -/
def subByte (a b : Byte) : Byte := a - b

/-- `a / 2`: integer division (R98). -/
def halfByte (a : Byte) : Byte := BitVec.ofNat 8 (a.toNat / 2)

/-- `(a * 2) mod 256` (R100). -/
def doubleByte (a : Byte) : Byte := BitVec.ofNat 8 (a.toNat * 2)

end Sys2Proof.Machine
end

