-- ==== Sys2Proof/Machine/Alu.lean ====
section
/-! DEFINITION. Family 8 (43_alu_8.md R92 to R100). The statements run in the order the rule writes them, each reading
the registers as the ones before it left them (40_engine.md R75, D6; log 14), which decides every case of x = y and
of x or y = 0xF. -/

namespace Sys2Proof.Machine

/-- LD Vx, Vy (R92). -/
def execLdReg (x y : Reg) (s : State) : Result := .next (s.setV x (s.getV y))

/-- OR Vx, Vy (R93). -/
def execOrReg (x y : Reg) (s : State) : Result := .next (s.setV x (s.getV x ||| s.getV y))

/-- AND Vx, Vy (R94). -/
def execAndReg (x y : Reg) (s : State) : Result := .next (s.setV x (s.getV x &&& s.getV y))

/-- XOR Vx, Vy (R95). -/
def execXorReg (x y : Reg) (s : State) : Result := .next (s.setV x (s.getV x ^^^ s.getV y))

/-- ADD Vx, Vy (R96): the sum is read before any write. -/
def execAddReg (x y : Reg) (s : State) : Result :=
  let sum := byteSum (s.getV x) (s.getV y)
  let s₁ := s.setV VF (carryFlag sum)
  .next (s₁.setV x (wrapByte sum))

/-- SUB Vx, Vy (R97): the subtraction reads V[x], V[y] after the flag write. -/
def execSub (x y : Reg) (s : State) : Result :=
  let s₁ := s.setV VF (greaterFlag (s.getV x) (s.getV y))
  .next (s₁.setV x (subByte (s₁.getV x) (s₁.getV y)))

/-- SHR Vx, Vy (R98): halves V[x] after the flag write; V[y] is not read. -/
def execShr (x _y : Reg) (s : State) : Result :=
  let s₁ := s.setV VF (lowBitFlag (s.getV x))
  .next (s₁.setV x (halfByte (s₁.getV x)))

/-- SUBN Vx, Vy (R99), kept as implemented (D8, C7; log 17): the flag goes into V[x], and the subtraction uses the
overwritten V[x]. -/
def execSubn (x y : Reg) (s : State) : Result :=
  let s₁ := s.setV x (greaterFlag (s.getV y) (s.getV x))
  .next (s₁.setV x (subByte (s₁.getV y) (s₁.getV x)))

/-- SHL Vx, Vy (R100): doubles V[x] after the flag write; V[y] is not read. -/
def execShl (x _y : Reg) (s : State) : Result :=
  let s₁ := s.setV VF (highBitFlag (s.getV x))
  .next (s₁.setV x (doubleByte (s₁.getV x)))

end Sys2Proof.Machine
end

