-- ==== Sys2Proof/Machine/Flow.lean ====
section
/-! DEFINITION. Families 0, 1 and 2 (41_flow_0-2.md R83 to R86) and the no-op class (40_engine.md R78). PC in `s` is
the value handed to `execute`, the instruction's address + 2 in a host step (R74, R82). -/

namespace Sys2Proof.Machine

/-- CLS (R83): clear the display; the core's own state is unchanged. -/
def execCls (s : State) : Result := .next (s.setFb s.fb.clear)

/-- RET (R84): `PC <- pop()`; a failing pop writes neither PC nor SP. -/
def execRet (s : State) : Result :=
  match s.pop with
  | .ok (target, s') => .next (s'.setPc target)
  | .error f => takeFault f s

/-- JP nnn (R85). -/
def execJp (nnn : Addr) (s : State) : Result := .next (s.setPc (absAddr nnn))

/-- CALL nnn (R86): push PC, then jump; a failing push leaves PC unwritten. -/
def execCall (nnn : Addr) (s : State) : Result :=
  ((s.push s.pc).andThen fun s' => .done (s'.setPc (absAddr nnn))).finish

/-- NOP (R78): no register, no memory byte, no collaborator state changes. -/
def execNop (s : State) : Result := .next s

end Sys2Proof.Machine
end

