-- ==== Sys2Proof/Machine/Keys.lean ====
section
/-! DEFINITION. Family E (45_keys_E.md R106, R107): key skips. A key number above 15 faults (D16, log 16). -/

namespace Sys2Proof.Machine

/-- SKP Vx (R106): skip if the key numbered V[x] is down. -/
def execSkp (x : Reg) (s : State) : Result :=
  match keyOf (s.getV x) with
  | .ok k => .next (s.skipIf (s.isDown k))
  | .error f => takeFault f s

/-- SKNP Vx (R107): skip if the key numbered V[x] is up. -/
def execSknp (x : Reg) (s : State) : Result :=
  match keyOf (s.getV x) with
  | .ok k => .next (s.skipIf (!s.isDown k))
  | .error f => takeFault f s

end Sys2Proof.Machine
end

