-- ==== Sys2Proof/Machine/Misc.lean ====
section
/-! DEFINITION. Families 9 to D (44_misc_9-D.md R101 to R105): register skip, index load, indexed jump, random, draw. -/

namespace Sys2Proof.Machine

/-- SNE Vx, Vy (R101). -/
def execSneReg (x y : Reg) (s : State) : Result := .next (s.skipIf (s.getV x != s.getV y))

/-- LD I, nnn (R102). -/
def execLdI (nnn : Addr) (s : State) : Result := .next (s.setI (absAddr nnn))

/-- JP V0, nnn (R103). -/
def execJpV0 (nnn : Addr) (s : State) : Result := .next (s.setPc (indexedAddr nnn (s.getV 0)))

/-- RND Vx, kk (R104): a fresh free byte in 0..254, masked by kk. -/
def execRnd (x : Reg) (kk : Byte) (s : State) : Result := .next ((s.setV x (s.randByte &&& kk)).countDraw)

/-- DRW Vx, Vy, n (R105): read the n rows, then draw at the origin (V[x], V[y]), then write the collision into VF. A
failing read draws nothing and leaves VF. -/
def execDrw (x y : Reg) (n : RowCount) (s : State) : Result :=
  match s.mem.readBytes (s.effAddr 0) n.val with
  | .error f => takeFault f s
  | .ok sprite =>
    let drawn := drawSprite s.fb (s.getV x) (s.getV y) sprite
    .next ((s.setFb drawn.1).setV VF (collisionFlag drawn.2))

end Sys2Proof.Machine
end

