-- ==== Sys2Proof/Machine/SkipLoad.lean ====
section
/-! DEFINITION. Families 3 to 7 (42_skip_load_3-7.md R87 to R91): conditional skips, load and add immediate. -/

namespace Sys2Proof.Machine

/-- SE Vx, kk (R87). -/
def execSeImm (x : Reg) (kk : Byte) (s : State) : Result := .next (s.skipIf (s.getV x == kk))

/-- SNE Vx, kk (R88). -/
def execSneImm (x : Reg) (kk : Byte) (s : State) : Result := .next (s.skipIf (s.getV x != kk))

/-- SE Vx, Vy (R89). -/
def execSeReg (x y : Reg) (s : State) : Result := .next (s.skipIf (s.getV x == s.getV y))

/-- LD Vx, kk (R90). -/
def execLdImm (x : Reg) (kk : Byte) (s : State) : Result := .next (s.setV x kk)

/-- ADD Vx, kk (R91): wraps, no carry recorded. -/
def execAddImm (x : Reg) (kk : Byte) (s : State) : Result := .next (s.setV x (wrapByte (byteSum (s.getV x) kk)))

end Sys2Proof.Machine
end

