-- ==== Sys2Proof/Machine/TimersMem.lean ====
section
/-! DEFINITION. Family F (46_timers_mem_F.md R108 to R116): timers, key wait, index arithmetic, BCD and register block
moves. No instruction of this family changes PC or the stack. -/

namespace Sys2Proof.Machine

/-- LD Vx, DT (R108). -/
def execLdVxDt (x : Reg) (s : State) : Result := .next (s.setV x s.dt)

/-- LD Vx, K (R109): the wait begins; no register is written yet. A key press completes it (R130), a shutdown aborts
it (R131): `hostAct` in Machine/HostSide.lean. -/
def execLdVxK (x : Reg) (s : State) : Result := .next (s.setStatus (.waiting x))

/-- LD DT, Vx (R110). -/
def execLdDtVx (x : Reg) (s : State) : Result := .next (s.setDt (s.getV x))

/-- LD ST, Vx (R111). -/
def execLdStVx (x : Reg) (s : State) : Result := .next (s.setSt (s.getV x))

/-- ADD I, Vx (R112): modulo 2^16, no flag. -/
def execAddIVx (x : Reg) (s : State) : Result := .next (s.setI (s.i + (s.getV x).setWidth 16))

/-- LD F, Vx (R113). -/
def execLdFVx (x : Reg) (s : State) : Result := .next (s.setI (glyphAddr (s.getV x)))

/-- LD B, Vx (R114): the BCD digits of V[x] at I, I+1, I+2, then the kept fall-through into the register dump of
LD_MEM_VX (D9, log 17). -/
def execLdBVx (x : Reg) (s : State) : Result :=
  ((s.storeBytes (s.effAddr 0) (bcdDigits (s.getV x))).andThen fun s' =>
    s'.storeBytes (s'.effAddr 0) (s'.regBytes x)).finish

/-- LD [I], Vx (R115): V0 to Vx at I, I+1, … -/
def execLdMemVx (x : Reg) (s : State) : Result := (s.storeBytes (s.effAddr 0) (s.regBytes x)).finish

/-- LD Vx, [I] (R116): V0 to Vx from I, I+1, … -/
def execLdVxMem (x : Reg) (s : State) : Result := (s.loadRegs (s.effAddr 0) (regsUpTo x)).finish

end Sys2Proof.Machine
end

