-- ==== Sys2Proof/Machine/HostSide.lean ====
section
/-! DEFINITION. The host driver's side of a run (60_exceptions.md R130 to R138, 70_reset_and_hazards.md R142, R151, R152):
what each of its actions does, whose turn is next, and the program load. -/

namespace Sys2Proof.Machine

open Config

/-- A timer moved one toward zero (R132). -/
def countDown (b : Byte) : Byte := if b.toNat > 0 then b - 1 else b

/-- `tick()`: both timers move one toward zero (R132). -/
def State.tick (s : State) : State := (s.setDt (countDown s.dt)).setSt (countDown s.st)

/-- A key-press event with key k: it completes a wait, `V[x] <- k; status <- Running` (R109, R130). With no wait it
finds no receiver and is dropped (R138 delivers presses only during a wait; DESIGN CHOICE, log 5). -/
def State.pressKey (s : State) (k : Key) : State :=
  match s.status with
  | .waiting x => (s.setV x (BitVec.ofNat 8 k.val)).setStatus .running
  | .running => s
  | .faulted _ => s
  | .aborted => s

/-- A press of a host key code: a key-press event with its translation, or no event (R130, R137; log 24). -/
def State.pressCode (s : State) (code : Nat) : State :=
  match translate code with
  | some k => s.pressKey k
  | none => s

/-- What a host action does to the machine. `step` and `shutdown` act through `turn`. -/
def hostAct (a : HostAction) (s : State) : State :=
  match a with
  | .tick => s.tick
  | .setDown k => s.setKey k true
  | .setUp k => s.setKey k false
  | .press k => s.pressKey k
  | .pressCode code => s.pressCode code
  | .step => s
  | .shutdown => s

/-- What happens next. -/
inductive Turn where
  /-- The core fetches and executes an instruction from this state. -/
  | instruction (s : State)
  /-- Something other than an instruction has happened, or nothing while the core waits. -/
  | quiet (s : State)
  /-- No further step is taken. -/
  | ended (r : Refusal)
deriving DecidableEq, Repr

/-- The host's step, from the state it leaves: an instruction, once a program has been loaded; before that no step is
taken (R142, R144; log 29). -/
def hostStep (s : State) : Turn := if s.loaded then .instruction s else .ended .notLoaded

/-- The turn of a Running machine: an instruction where the host steps or has nothing else to do; a shutdown ceases
the stepping, the state being the result (R138, R151; log 2, log 3). -/
def turnRunning (s : State) : Turn :=
  match s.host with
  | [] => hostStep s
  | .step :: rest => hostStep (s.setHost rest)
  | .shutdown :: _ => .ended .hostStopped
  | .tick :: rest => .quiet (hostAct .tick (s.setHost rest))
  | .setDown k :: rest => .quiet (hostAct (.setDown k) (s.setHost rest))
  | .setUp k :: rest => .quiet (hostAct (.setUp k) (s.setHost rest))
  | .press k :: rest => .quiet (hostAct (.press k) (s.setHost rest))
  | .pressCode code :: rest => .quiet (hostAct (.pressCode code) (s.setHost rest))

/-- The turn of a waiting machine: no instruction is fetched or executed (R130); with nothing pending the wait goes
on (log 4); a shutdown aborts it (R131). -/
def turnWaiting (s : State) : Turn :=
  match s.host with
  | [] => .quiet s
  | .step :: rest => .quiet (s.setHost rest)
  | .shutdown :: rest => .quiet ((s.setHost rest).setStatus .aborted)
  | .tick :: rest => .quiet (hostAct .tick (s.setHost rest))
  | .setDown k :: rest => .quiet (hostAct (.setDown k) (s.setHost rest))
  | .setUp k :: rest => .quiet (hostAct (.setUp k) (s.setHost rest))
  | .press k :: rest => .quiet (hostAct (.press k) (s.setHost rest))
  | .pressCode code :: rest => .quiet (hostAct (.pressCode code) (s.setHost rest))

/-- Whose turn it is, by the run's status (R31, R152). -/
def turn (s : State) : Turn :=
  match s.status with
  | .running => turnRunning s
  | .waiting _ => turnWaiting s
  | .faulted f => .ended (.stepAfterFault f)
  | .aborted => .ended .stepAfterAbort

/-- The longest program: 0x200 to 0xFFF (R47, R142). -/
def maxProgram : Nat := memSize - programBase

/-- The program's bytes at 0x200 upward, and PC at 0x0200; no other register is written (R142). -/
def State.loadImage (s : State) (image : List Byte) : State :=
  ((s.setMem (s.mem.putAll programBase image)).setPc (BitVec.ofNat 16 programBase)).setLoaded true

/-- Program load, the host's action "done once, after reset and before the first step": an image over 3584 bytes is
refused (R142, D27), and so is a second load (log 29). -/
def load (image : List Byte) (s : State) : Result :=
  if s.loaded then .refused .alreadyLoaded
  else if image.length > maxProgram then .refused (.programTooLong image.length)
  else .next (s.loadImage image)

/-- Machine reset under the argument GLYPH_TABLE (R5, R29, R45, R141, D20). -/
def State.resetWith (g : GlyphRows) : State := State.reset.setMem (resetMemory g)

end Sys2Proof.Machine
end

