-- ==== Sys2Proof/Machine/Cycle.lean ====
section
/-! DEFINITION. The host driver's cycle (40_engine.md R73): fetch, advance PC, decode, execute; and the step of the whole
machine, in which the host's other actions take their turns between instructions and during a wait (R138, R148). -/

namespace Sys2Proof.Machine

open Config

/-- `step(S)` of R73 on a Running machine, under the decoder's parameters: a fetch fault ends the run before PC is
advanced. -/
def runInstruction (p : DecoderParams) (s : State) : Result :=
  match s.fetch with
  | .ok (w, s') => exec (decodeWith p w) s'
  | .error f => takeFault f s

/-- One step of the machine under the decoder's parameters. -/
def stepWith (p : DecoderParams) (s : State) : Result :=
  match turn s with
  | .instruction s' => runInstruction p s'
  | .quiet s' => .next s'
  | .ended r => .refused r

/-- The two bytes of a table word, as a program image. -/
def tableImage (nbits w : Nat) : List Byte := [highByte (tableWord nbits w), lowByte (tableWord nbits w)]

end Sys2Proof.Machine
end

