-- ==== Sys2Proof/Machine/Step.lean ====
section
/-! DEFINITION. One step of the machine under the default parameters, and the placing of one instruction where the next
step fetches it. -/

namespace Sys2Proof.Machine

/-- One step (R73, R138), FAMILY0_SELECT and CHECK_LOW_NIBBLE_5_9 at their defaults. -/
def step (s : State) : Host.Outcome State Fault Refusal := stepWith decoderDefaults s

/-- `s` with one instruction loaded as its program, so that the very next step fetches and runs it: the program load
of R142 (bytes at 0x200, PC = 0x0200, the load done), the machine Running and no host action before the step (log
12). -/
def State.withFetchWord (s : State) (nbits w : Nat) : State :=
  ((s.loadImage (tableImage nbits w)).setStatus .running).setHost []

end Sys2Proof.Machine
end

