-- ==== Sys2Proof/Safety.lean ====
section
/-! DEFINITION. The terms the claims are stated in: the machine's invariant, when a run has ended, the frames (what an
instruction leaves unchanged, 10_state.md R14), and the pushes and pops of 10_state.md R21 in a row. -/

namespace Sys2Proof.Machine

open Config

/-- The state a result holds, if it is a next state. -/
def stateOf : Result → Option State
  | .next s => some s
  | .fault _ => none
  | .refused _ => none

/-- The machine's invariant: memory and framebuffer are in canonical form. -/
def State.wf (s : State) : Bool := s.mem.wf && s.fb.wf

/-- The run has ended: the machine is Faulted or Aborted (R31). -/
def State.ended (s : State) : Bool :=
  match s.status with
  | .running => false
  | .waiting _ => false
  | .faulted _ => true
  | .aborted => true

/-- A safe run's states: no invariant violation has happened (R117, R122). -/
def State.safe (s : State) : Bool :=
  match s.status with
  | .running => true
  | .waiting _ => true
  | .faulted _ => false
  | .aborted => true

/-! ## Frames -/

/-- Every general register but those of `ds` is unchanged. -/
def SameV (ds : List Reg) (s t : State) : Prop := ∀ r, r ∉ ds → t.getV r = s.getV r

/-- Every address reads as before. -/
def SameMem (s t : State) : Prop := ∀ a, t.mem.read a = s.mem.read a

/-- Every address but the `len` ones from `base` reads as before. -/
def SameMemOutside (base len : Nat) (s t : State) : Prop :=
  ∀ a, (a < base ∨ base + len ≤ a) → t.mem.read a = s.mem.read a

/-- SP and every stack slot are unchanged. -/
def SameStack (s t : State) : Prop := t.sp = s.sp ∧ ∀ j, t.slot j = s.slot j

/-- Both timers are unchanged. -/
def SameTimers (s t : State) : Prop := t.dt = s.dt ∧ t.st = s.st

/-- The collaborators and the host are as before: framebuffer, key-down bits, pending host actions, the load done. -/
def SameAround (s t : State) : Prop :=
  t.fb = s.fb ∧ (∀ k, t.isDown k = s.isDown k) ∧ t.host = s.host ∧ t.loaded = s.loaded

/-- The frame of an instruction that writes the general registers `ds` alone. -/
def OnlyV (ds : List Reg) (s t : State) : Prop :=
  SameV ds s t ∧ t.i = s.i ∧ t.pc = s.pc ∧ SameStack s t ∧ SameTimers s t ∧ t.status = s.status ∧ SameMem s t ∧
    SameAround s t ∧ t.draws = s.draws

/-- The frame of an instruction that writes PC alone. -/
def OnlyPc (s t : State) : Prop :=
  SameV [] s t ∧ t.i = s.i ∧ SameStack s t ∧ SameTimers s t ∧ t.status = s.status ∧ SameMem s t ∧
    SameAround s t ∧ t.draws = s.draws

/-- The frame of an instruction that writes PC, SP and at most the stack slots of `js`. -/
def OnlyPcStack (js : List (Fin 16)) (s t : State) : Prop :=
  SameV [] s t ∧ t.i = s.i ∧ (∀ j, j ∉ js → t.slot j = s.slot j) ∧ SameTimers s t ∧ t.status = s.status ∧
    SameMem s t ∧ SameAround s t ∧ t.draws = s.draws

/-- The frame of an instruction that writes I alone. -/
def OnlyI (s t : State) : Prop :=
  SameV [] s t ∧ t.pc = s.pc ∧ SameStack s t ∧ SameTimers s t ∧ t.status = s.status ∧ SameMem s t ∧
    SameAround s t ∧ t.draws = s.draws

/-- The frame of an instruction that writes the `len` bytes of memory from `base` alone. -/
def OnlyMem (base len : Nat) (s t : State) : Prop :=
  SameV [] s t ∧ t.i = s.i ∧ t.pc = s.pc ∧ SameStack s t ∧ SameTimers s t ∧ t.status = s.status ∧
    SameMemOutside base len s t ∧ SameAround s t ∧ t.draws = s.draws

/-- The frame of a draw: the framebuffer and VF alone. -/
def OnlyDisplayVF (s t : State) : Prop :=
  SameV [VF] s t ∧ t.i = s.i ∧ t.pc = s.pc ∧ SameStack s t ∧ SameTimers s t ∧ t.status = s.status ∧ SameMem s t ∧
    (∀ k, t.isDown k = s.isDown k) ∧ t.host = s.host ∧ t.loaded = s.loaded ∧ t.draws = s.draws

/-! ## What the rules' tables say, as functions of the instruction -/

/-- The general registers an instruction may write (10_state.md R14). -/
def writesV : Instr → List Reg
  | .ldImm x _ | .addImm x _ | .ldReg x _ | .orReg x _ | .andReg x _ | .xorReg x _ | .subn x _ | .rnd x _ => [x]
  | .ldVxDt x => [x]
  | .addReg x _ | .sub x _ | .shr x _ | .shl x _ => [x, VF]
  | .drw _ _ _ => [VF]
  | .ldVxMem x => regsUpTo x
  | .cls | .ret | .jp _ | .call _ | .seImm _ _ | .sneImm _ _ | .seReg _ _ | .sneReg _ _ | .ldI _ | .jpV0 _ => []
  | .skp _ | .sknp _ | .ldVxK _ | .ldDtVx _ | .ldStVx _ | .addIVx _ | .ldFVx _ | .ldBVx _ | .ldMemVx _ | .nop _ => []

/-- The fault of `len` byte accesses from address `base` in increasing order: the first index out of range, if any
(R42, R119, R123). -/
def rangeFault (base len : Nat) : Option Fault :=
  if 0 < len ∧ memSize < base + len then some (.memRange (max base memSize)) else none

/-- The fault of using `value` as a key number (R121). -/
def keyFault (value : Byte) : Option Fault := if 15 < value.toNat then some (.keyRange value) else none

/-- The fault of a bound check of the stack pointer (R120). -/
def stackFault (sp : Byte) : Option Fault := if 16 ≤ sp.toNat then some (.stackRange sp) else none

/-- The fault each instruction raises, and when: the table of 40_engine.md R80. -/
def expectedFault (i : Instr) (s : State) : Option Fault :=
  match i with
  | .ret => stackFault s.sp
  | .call _ => stackFault (s.sp + 1)
  | .drw _ _ n => rangeFault s.i.toNat n.val
  | .skp x | .sknp x => keyFault (s.getV x)
  | .ldBVx x => rangeFault s.i.toNat (max 3 (x.val + 1))
  | .ldMemVx x | .ldVxMem x => rangeFault s.i.toNat (x.val + 1)
  | .cls | .jp _ | .seImm _ _ | .sneImm _ _ | .seReg _ _ | .ldImm _ _ | .addImm _ _ | .ldReg _ _ => none
  | .orReg _ _ | .andReg _ _ | .xorReg _ _ | .addReg _ _ | .sub _ _ | .shr _ _ | .subn _ _ | .shl _ _ => none
  | .sneReg _ _ | .ldI _ | .jpV0 _ | .rnd _ _ | .ldVxDt _ | .ldVxK _ | .ldDtVx _ | .ldStVx _ | .addIVx _ => none
  | .ldFVx _ | .nop _ => none

/-! ## Pushes and pops in a row (R21) -/

/-- Push the addresses in order. -/
def pushAll : State → List Word → Attempt
  | s, [] => .done s
  | s, a :: rest => (s.push a).andThen fun s' => pushAll s' rest

/-- Pop `k` addresses, the first popped first. -/
def popAll : State → Nat → Except Fault (List Word × State)
  | s, 0 => .ok ([], s)
  | s, k + 1 =>
    match s.pop with
    | .error f => .error f
    | .ok (a, s') =>
      match popAll s' k with
      | .error f => .error f
      | .ok (as, s'') => .ok (a :: as, s'')

/-! ## Sprites, by pixel (R135) -/

/-- Bit `b` of row `row` of a sprite is one, and falls on the pixel (px, py). -/
def spriteHits (fb : Framebuffer) (ox oy : Byte) (bytes : List Byte) (px py row b : Nat) : Bool :=
  (bytes.getD row 0).getMsbD b && decide ((ox.toNat + b) % fb.width = px) && decide ((oy.toNat + row) % fb.height = py)

/-- The (row, bit) positions of a sprite of `cnt` rows, in the order it is drawn. -/
def spritePositions (cnt : Nat) : List (Nat × Nat) :=
  (List.range cnt).flatMap fun row => (List.range 8).map fun b => (row, b)

/-- How many one bits of a sprite fall on the pixel (px, py). -/
def spriteCount (fb : Framebuffer) (ox oy : Byte) (bytes : List Byte) (px py : Nat) : Nat :=
  ((spritePositions bytes.length).filter fun q => spriteHits fb ox oy bytes px py q.1 q.2).length

end Sys2Proof.Machine
end

