-- ==== Sys2Proof/Certificates/Slice0/Obligations.lean ====
section
/-! DEFINITION. The statements about the model. Each docstring names the rule or section of spec/ it formalises, and the
spec's decision D<n> or the log entry where a clause rests on one. -/

open Sys2Proof Sys2Proof.Machine Sys2Proof.Config

/-! ## Encoding -/

/-- A word of each of the 16 families (10_state.md R10: the top nibble) and two of the no-op class, written out from the
formats and the map of 30_encoding.md sections 1 and 2, decode under the default parameters to the instruction they
stand for. -/
def Obligations.SampleWordsDecodeAsWritten : Prop :=
  decodeWith decoderDefaults 0b0000000011100000 = .cls ∧ decodeWith decoderDefaults 0b0000000011101110 = .ret ∧
  decodeWith decoderDefaults 0b0000000000000000 = .nop 0 ∧ decodeWith decoderDefaults 0b0001001100000000 = .jp 0x300 ∧
  decodeWith decoderDefaults 0b0010001100000000 = .call 0x300 ∧
  decodeWith decoderDefaults 0b0011001100000101 = .seImm 3 5 ∧
  decodeWith decoderDefaults 0b0100001101000011 = .sneImm 3 0x43 ∧
  decodeWith decoderDefaults 0b0101000100100000 = .seReg 1 2 ∧
  decodeWith decoderDefaults 0b0110101001011100 = .ldImm 0xA 0x5C ∧
  decodeWith decoderDefaults 0b0111000000000011 = .addImm 0 3 ∧
  decodeWith decoderDefaults 0b1000000000010100 = .addReg 0 1 ∧
  decodeWith decoderDefaults 0b1000000000011000 = .nop 0x8018 ∧
  decodeWith decoderDefaults 0b1001000100100000 = .sneReg 1 2 ∧
  decodeWith decoderDefaults 0b1010001011110000 = .ldI 0x2F0 ∧
  decodeWith decoderDefaults 0b1011001100000000 = .jpV0 0x300 ∧
  decodeWith decoderDefaults 0b1100001100001111 = .rnd 3 0x0F ∧
  decodeWith decoderDefaults 0b1101000000010101 = .drw 0 1 5 ∧
  decodeWith decoderDefaults 0b1110001010011110 = .skp 2 ∧
  decodeWith decoderDefaults 0b1111001001010101 = .ldMemVx 2

/-- Decode and encode agree, for every well-formed instruction under every setting of the decoder's parameters, on
words and on bytes: no bit of an encoding is dropped (30_encoding.md R57, R59, R68, R70). -/
def Obligations.EveryEncodedInstructionDecodesBack : Prop :=
  ∀ (p : DecoderParams) (i : Instr) (rest : List Byte), i.wellFormed p = true →
    decodeWith p (encode i) = i ∧ decodeBytes p (encodeBytes i ++ rest) = .ok (i, rest)

/-- The other direction, for FAMILY0_SELECT = word: a word is the encoding of what it decodes to, but for the low
nibble of families 5 and 9 where it is not checked, which decodes alike for its 16 values (30_encoding.md R61, R70). -/
def Obligations.EveryWordIsTheEncodingOfItsInstruction : Prop :=
  ∀ (p : DecoderParams) (w : Word), p.family0 = .word →
    encode (decodeWith p w) =
      if (fieldF w = 5 ∨ fieldF w = 9) ∧ p.checkLowNibble = false then w &&& 0xFFF0 else w

/-- The two-level dispatch agrees with the opcode map: a word decodes to a row's instruction exactly when it matches
the row's mask and pattern (so at most one row matches a word), and to NOP exactly when no row matches; and what a
word decodes to is well formed (30_encoding.md R58, R59, R65). -/
def Obligations.DispatchAgreesWithTheOpcodeMap : Prop :=
  ∀ (p : DecoderParams) (w : Word),
    (∀ r ∈ opcodeRows p, r.hits w = true ↔ (decodeWith p w).opcode = r.op) ∧
    ((decodeWith p w).opcode = .nop ↔ noOpWord p w = true) ∧
    (decodeWith p w).wellFormed p = true

/-- Family 0 picks 00E0 and 00EE by FAMILY0_SELECT, and every other word of it is a no-op (30_encoding.md, the rule of
decision D4). -/
def Obligations.FamilyZeroFollowsItsSelector : Prop :=
  ∀ (c : Bool) (w : Word), fieldF w = 0 →
    decodeWith ⟨.word, c⟩ w = (if w = 0x00E0 then .cls else if w = 0x00EE then .ret else .nop w) ∧
    decodeWith ⟨.low8, c⟩ w =
      (if w.toNat % 256 = 0xE0 then .cls else if w.toNat % 256 = 0xEE then .ret else .nop w) ∧
    decodeWith ⟨.low4, c⟩ w =
      (if w.toNat % 16 = 0x0 then .cls else if w.toNat % 16 = 0xE then .ret else .nop w)

/-- Families 5 and 9 ignore their low nibble by default, and with CHECK_LOW_NIBBLE_5_9 a nonzero one is a no-op
(30_encoding.md, the rule of decision D5; 90_conflicts.md C2). -/
def Obligations.FamiliesFiveAndNineLowNibble : Prop :=
  ∀ (f : Family0Select) (x y n : Fin 16),
    decodeWith ⟨f, false⟩ (encXYN 5 x y n) = .seReg x y ∧ decodeWith ⟨f, false⟩ (encXYN 9 x y n) = .sneReg x y ∧
    decodeWith ⟨f, true⟩ (encXYN 5 x y n) = (if n = 0 then .seReg x y else .nop (encXYN 5 x y n)) ∧
    decodeWith ⟨f, true⟩ (encXYN 9 x y n) = (if n = 0 then .sneReg x y else .nop (encXYN 9 x y n))

/-- The decoded instruction keeps the raw word, so no bit of any word is lost, and the word is each row's fixed bits with
the decoded fields under them; the variant and the fields its rule names give the instruction. Decoding is not
injective on variants: every word of the no-op class has the same one, and while the low nibble is not checked the 16
words 5xyN (9xyN) have the same variant with the same operands (30_encoding.md sections 1 and 5, R70; 10_state.md
R25). -/
def Obligations.DecodedInstructionKeepsItsWord : Prop :=
  ∀ (p : DecoderParams) (w : Word),
    (decodeRecord p w).word = w ∧ (decodeRecord p w).instr = decodeWith p w ∧
    (∀ r ∈ opcodeRows p, r.hits w = true → r.assemble (decodeRecord p w) = w) ∧
    (noOpWord p w = true → (decodeRecord p w).op = .nop) ∧
    ∀ v : Word, p.checkLowNibble = false → (fieldF w = 5 ∨ fieldF w = 9) → w &&& 0xFFF0 = v &&& 0xFFF0 →
      (decodeRecord p v).op = (decodeRecord p w).op ∧ (decodeRecord p v).instr = (decodeRecord p w).instr

/-! ## Memory -/

/-- R53: a byte written reads back, and a word read is its two bytes, the one at the lower address the higher. The
canonical form is premised; `WritesKeepTheCanonicalForm` and `EveryStepKeepsTheInvariant` keep it. -/
def Obligations.MemoryRoundTrip : Prop :=
  ∀ (m : Memory), m.wf = true →
    (∀ (a : Nat) (b : Byte), a < 4096 → ∃ m', m.write a b = some m' ∧ m'.read a = some b) ∧
    ∀ (a : Nat), a + 1 < 4096 → ∃ hi lo, m.read a = some hi ∧ m.read (a + 1) = some lo ∧
      m.readWord a = some (hi.setWidth 16 <<< 8 ||| lo.setWidth 16)

/-- A write keeps the canonical form and every other address, and an index out of range is never accessed
(20_memory.md section 1, R33 to R36). -/
def Obligations.WritesKeepTheCanonicalForm : Prop :=
  ∀ (m : Memory) (a : Nat) (b : Byte), m.wf = true →
    (∀ m', m.write a b = some m' → m'.wf = true ∧ ∀ c, c ≠ a → m'.read c = m.read c) ∧
    (m.write a b = none ↔ 4096 ≤ a) ∧ (m.read a = none ↔ 4096 ≤ a) ∧ (m.readWord a = none ↔ 4096 ≤ a + 1)

/-- Canonical memories that read alike at every address are the same data (20_memory.md R32; log 25). -/
def Obligations.MemoriesThatReadAlikeAreEqual : Prop :=
  ∀ (m m' : Memory), m.wf = true → m'.wf = true → (∀ a, m.read a = m'.read a) → m = m'

/-! ## Flow: families 0 to 2 and B -/

/-- CLS clears every pixel and changes nothing else (41_flow_0-2.md 00E0, R83; 60_exceptions.md section 5, R134). Which
words decode to it is FAMILY0_SELECT's choice (R60, decision D4; log 7 for the default). A draw of rows in range onto
the cleared framebuffer reports no collision, on a display at least as large as a sprite: an inference from R135 and
decision D18 (the default 64 × 32, log 8, is that large). -/
def Obligations.ClearScreen : Prop :=
  (∀ (c : Bool) (w : Word), (decodeWith ⟨.word, c⟩ w = .cls ↔ w = 0x00E0) ∧
    (decodeWith ⟨.low8, c⟩ w = .cls ↔ fieldF w = 0 ∧ w.toNat % 256 = 0xE0) ∧
    (decodeWith ⟨.low4, c⟩ w = .cls ↔ fieldF w = 0 ∧ w.toNat % 16 = 0)) ∧
  ∀ (s : State), ∃ t, exec .cls s = .next t ∧
    (∀ px py, t.fb.pixel px py = false) ∧ t.fb.width = s.fb.width ∧ t.fb.height = s.fb.height ∧
    (t.fb.wf = true ∨ s.fb.wf = false) ∧
    SameV [] s t ∧ t.i = s.i ∧ t.pc = s.pc ∧ SameStack s t ∧ SameTimers s t ∧ t.status = s.status ∧ SameMem s t ∧
    (∀ k, t.isDown k = s.isDown k) ∧ t.host = s.host ∧ t.loaded = s.loaded ∧ t.draws = s.draws ∧
    ∀ (x y : Reg) (n : RowCount), s.fb.wf = true → 8 ≤ s.fb.width → n.val ≤ s.fb.height → s.i.toNat + n.val ≤ 4096 →
      ∃ u, exec (.drw x y n) t = .next u ∧ u.getV VF = 0

/-- RET pops PC where SP is below 16, a pop at SP = 0 included (SP becomes 0xFF, decision D11), and faults otherwise
with PC and SP unwritten (41_flow_0-2.md; decisions D2, D10, D11). -/
def Obligations.ReturnPopsPc : Prop :=
  ∀ (s : State),
    (∀ j : Fin 16, j.val = s.sp.toNat → ∃ t, exec .ret s = .next t ∧ t.pc = s.slot j ∧ t.sp = s.sp - 1 ∧
      OnlyPcStack [] s t) ∧
    (16 ≤ s.sp.toNat → exec .ret s = .next (s.setStatus (.faulted (.stackRange s.sp))))

/-- JP writes the zero-extended nnn into PC and nothing else. A jump to its own address is an endless loop in which each
step leaves the state unchanged, and a target of 0xFFF makes the next fetch fault (41_flow_0-2.md 1nnn). That the fault
is a next state with nothing else changed is log 1 (decisions D2, D3), that an empty queue is a host that steps log
3, and that it steps after the load log 29. -/
def Obligations.JumpWritesOnlyPc : Prop :=
  (∀ (p : DecoderParams) (w : Word), w &&& 0xF000 = 0x1000 → decodeWith p w = .jp (fieldNNN w)) ∧
  (∀ (nnn : Addr) (s : State), ∃ t, exec (.jp nnn) s = .next t ∧ t.pc.toNat = nnn.toNat ∧ OnlyPc s t) ∧
  (∀ (s : State) (nnn : Addr), s.loaded = true → s.status = .running → s.host = [] → s.pc = nnn.setWidth 16 → nnn.toNat + 1 < 4096 →
    s.mem.readWord nnn.toNat = some (encode (.jp nnn)) → step s = .next s) ∧
  ∀ (s t : State), s.loaded = true → s.status = .running → s.host = [] → exec (.jp 0xFFF) s = .next t →
    step t = .next (t.setStatus (.faulted (.memRange 0xFFF)))

/-- CALL pushes PC and jumps where the incremented SP is below 16; otherwise it faults with SP incremented, PC
unwritten and no slot written (41_flow_0-2.md; decisions D2, D10, D11, D26). -/
def Obligations.CallPushesPc : Prop :=
  ∀ (nnn : Addr) (s : State),
    (∀ j : Fin 16, j.val = (s.sp + 1).toNat → ∃ t, exec (.call nnn) s = .next t ∧ t.sp = s.sp + 1 ∧
      t.slot j = s.pc ∧ t.pc.toNat = nnn.toNat ∧ OnlyPcStack [j] s t) ∧
    (16 ≤ (s.sp + 1).toNat →
      exec (.call nnn) s = .next ((s.setSp (s.sp + 1)).setStatus (.faulted (.stackRange (s.sp + 1)))))

/-- A CALL followed by a RET is back at the PC and SP before it (95_test_vectors.md S7). -/
def Obligations.ReturnUndoesCall : Prop :=
  ∀ (nnn : Addr) (s : State), (s.sp + 1).toNat < 16 →
    ∃ t u, exec (.call nnn) s = .next t ∧ exec .ret t = .next u ∧ u.pc = s.pc ∧ u.sp = s.sp ∧ SameV [] s u ∧
      u.i = s.i ∧ SameMem s u ∧ u.status = s.status

/-- k pushes then k pops, k ≤ 15 from SP = 0, more generally while SP stays below 16: each pop returns the value of
the matching push in reverse order, and SP is back (10_state.md section 3, "Usable depth"). -/
def Obligations.PushesThenPopsReverse : Prop :=
  ∀ (s : State) (as : List Word), s.sp.toNat + as.length ≤ 15 →
    ∃ t u, pushAll s as = .done t ∧ t.sp.toNat = s.sp.toNat + as.length ∧
      popAll t as.length = .ok (as.reverse, u) ∧ u.sp = s.sp ∧ OnlyPcStack ((List.finRange 16).drop (s.sp.toNat + 1)) s u ∧
      u.pc = s.pc

/-- JP_V0 jumps to nnn + V0, at most 0x10FE and not reduced to 12 bits (44_misc_9-D.md; decision D13). -/
def Obligations.IndexedJumpAddsV0 : Prop :=
  (∀ (p : DecoderParams) (w : Word), w &&& 0xF000 = 0xB000 → decodeWith p w = .jpV0 (fieldNNN w)) ∧
  ∀ (nnn : Addr) (s : State), ∃ t, exec (.jpV0 nnn) s = .next t ∧ t.pc.toNat = nnn.toNat + (s.getV 0).toNat ∧
    OnlyPc s t

/-! ## Skips -/

/-- The immediate skips: PC is advanced by 2 when V[x] equals (differs from) kk, and nothing else changes
(42_skip_load_3-7.md 3xkk, 4xkk; decision D13 for the advance modulo 2^16, log 15). -/
def Obligations.ImmediateSkips : Prop :=
  (∀ (p : DecoderParams) (w : Word),
    (w &&& 0xF000 = 0x3000 → decodeWith p w = .seImm (fieldX w) (fieldKK w)) ∧
    (w &&& 0xF000 = 0x4000 → decodeWith p w = .sneImm (fieldX w) (fieldKK w))) ∧
  ∀ (x : Reg) (kk : Byte) (s : State),
    (∃ t, exec (.seImm x kk) s = .next t ∧ t.pc = (if s.getV x = kk then s.pc + 2 else s.pc) ∧ OnlyPc s t) ∧
    (∃ t, exec (.sneImm x kk) s = .next t ∧ t.pc = (if s.getV x = kk then s.pc else s.pc + 2) ∧ OnlyPc s t)

/-- The register skips: PC is advanced by 2 when V[x] equals (differs from) V[y]; x = y always (never) skips
(42_skip_load_3-7.md 5xy0, 44_misc_9-D.md 9xy0; decisions D5, D13). -/
def Obligations.RegisterSkips : Prop :=
  ∀ (x y : Reg) (s : State),
    (∃ t, exec (.seReg x y) s = .next t ∧ t.pc = (if s.getV x = s.getV y then s.pc + 2 else s.pc) ∧ OnlyPc s t) ∧
    (∃ t, exec (.sneReg x y) s = .next t ∧ t.pc = (if s.getV x = s.getV y then s.pc else s.pc + 2) ∧ OnlyPc s t)

/-- The key skips: on a key number up to 15, PC is advanced by 2 when the key is down (up) and nothing else changes;
above 15 the fault FAULT_KEY_RANGE is entered and nothing else changes (45_keys_E.md; decisions D2, D13, D16). -/
def Obligations.KeySkips : Prop :=
  (∀ (p : DecoderParams) (w : Word),
    (w &&& 0xF0FF = 0xE09E → decodeWith p w = .skp (fieldX w)) ∧
    (w &&& 0xF0FF = 0xE0A1 → decodeWith p w = .sknp (fieldX w))) ∧
  ∀ (x : Reg) (s : State),
    (∀ k : Key, (s.getV x).toNat = k.val →
      (∃ t, exec (.skp x) s = .next t ∧ t.pc = (if s.isDown k then s.pc + 2 else s.pc) ∧ OnlyPc s t) ∧
      (∃ t, exec (.sknp x) s = .next t ∧ t.pc = (if s.isDown k then s.pc else s.pc + 2) ∧ OnlyPc s t)) ∧
    (15 < (s.getV x).toNat →
      exec (.skp x) s = .next (s.setStatus (.faulted (.keyRange (s.getV x)))) ∧
      exec (.sknp x) s = .next (s.setStatus (.faulted (.keyRange (s.getV x)))))

/-! ## Loads, additions and logic -/

/-- R90 and R91. LD Vx, kk writes the constant; ADD Vx, kk adds it modulo 256 and records no carry: no other register,
VF among them, is written. -/
def Obligations.LoadAndAddConstant : Prop :=
  (∀ (p : DecoderParams) (w : Word),
    (w &&& 0xF000 = 0x6000 → decodeWith p w = .ldImm (fieldX w) (fieldKK w)) ∧
    (w &&& 0xF000 = 0x7000 → decodeWith p w = .addImm (fieldX w) (fieldKK w))) ∧
  ∀ (x : Reg) (kk : Byte) (s : State),
    (∃ t, exec (.ldImm x kk) s = .next t ∧ t.getV x = kk ∧ OnlyV [x] s t) ∧
    (∃ t, exec (.addImm x kk) s = .next t ∧ (t.getV x).toNat = ((s.getV x).toNat + kk.toNat) % 256 ∧ OnlyV [x] s t)

/-- R92 to R95. Copy, or, and, exclusive or, bit by bit; VF is written only where x is 0xF. -/
def Obligations.CopyAndLogic : Prop :=
  (∀ (p : DecoderParams) (w : Word),
    (w &&& 0xF00F = 0x8000 → decodeWith p w = .ldReg (fieldX w) (fieldY w)) ∧
    (w &&& 0xF00F = 0x8001 → decodeWith p w = .orReg (fieldX w) (fieldY w)) ∧
    (w &&& 0xF00F = 0x8002 → decodeWith p w = .andReg (fieldX w) (fieldY w)) ∧
    (w &&& 0xF00F = 0x8003 → decodeWith p w = .xorReg (fieldX w) (fieldY w))) ∧
  ∀ (x y : Reg) (s : State),
    (∃ t, exec (.ldReg x y) s = .next t ∧ t.getV x = s.getV y ∧ OnlyV [x] s t) ∧
    (∃ t, exec (.orReg x y) s = .next t ∧
      (∀ b, b < 8 → (t.getV x).getLsbD b = ((s.getV x).getLsbD b || (s.getV y).getLsbD b)) ∧ OnlyV [x] s t) ∧
    (∃ t, exec (.andReg x y) s = .next t ∧
      (∀ b, b < 8 → (t.getV x).getLsbD b = ((s.getV x).getLsbD b && (s.getV y).getLsbD b)) ∧ OnlyV [x] s t) ∧
    (∃ t, exec (.xorReg x y) s = .next t ∧
      (∀ b, b < 8 → (t.getV x).getLsbD b = ((s.getV x).getLsbD b ^^ (s.getV y).getLsbD b)) ∧ OnlyV [x] s t)

/-- ADD Vx, Vy: the sum modulo 256, read before any write, and the carry in VF unless x is 0xF, which ends as the sum
(43_alu_8.md 8xy4; decisions D6, D7; log 14). -/
def Obligations.AddWithCarry : Prop :=
  ∀ (x y : Reg) (s : State), ∃ t, exec (.addReg x y) s = .next t ∧
    (t.getV x).toNat = ((s.getV x).toNat + (s.getV y).toNat) % 256 ∧
    (x ≠ VF → (t.getV VF).toNat = ((s.getV x).toNat + (s.getV y).toNat) / 256) ∧
    OnlyV [x, VF] s t

/-- SUB Vx, Vy: the flag is strictly-greater and is written first, so that the corner cases of x or y = 0xF come out
as the rule's closed forms say (43_alu_8.md 8xy5; decisions D6, D7; log 14). -/
def Obligations.SubtractAfterFlag : Prop :=
  ∀ (x y : Reg) (s : State), ∃ t, exec (.sub x y) s = .next t ∧
    (x ≠ VF → y ≠ VF → t.getV x = s.getV x - s.getV y) ∧
    (x ≠ VF → y = VF → t.getV x = s.getV x - (if s.getV VF < s.getV x then 1 else 0)) ∧
    (x ≠ VF → t.getV VF = if s.getV y < s.getV x then 1 else 0) ∧
    (x = VF → y ≠ VF → t.getV VF = (if s.getV y < s.getV VF then 1 else 0) - s.getV y) ∧
    (x = VF → y = VF → t.getV VF = 0) ∧
    OnlyV [x, VF] s t

/-- SHR Vx: half of V[x], bit 0 in VF; VF itself ends as 0; V[y] is not read (43_alu_8.md 8xy6; decision D6). -/
def Obligations.HalveIntoFlag : Prop :=
  ∀ (x y : Reg) (s : State), ∃ t, exec (.shr x y) s = .next t ∧ (∀ y', exec (.shr x y') s = .next t) ∧
    (x ≠ VF → (t.getV x).toNat = (s.getV x).toNat / 2 ∧ (t.getV VF).toNat = (s.getV x).toNat % 2) ∧
    (x = VF → t.getV VF = 0) ∧
    OnlyV [x, VF] s t

/-- SUBN Vx, Vy as implemented: the comparison goes into V[x] and is subtracted from V[y]; VF is written only where x
is 0xF (43_alu_8.md 8xy7; 90_conflicts.md C7; decisions D6, D7, D8; log 17). -/
def Obligations.ReverseSubtractAsImplemented : Prop :=
  ∀ (x y : Reg) (s : State), ∃ t, exec (.subn x y) s = .next t ∧
    (x ≠ y → t.getV x = s.getV y - (if s.getV x < s.getV y then 1 else 0)) ∧
    (x = y → t.getV x = 0) ∧
    OnlyV [x] s t

/-- SHL Vx: twice V[x] modulo 256, bit 7 in VF as 0x80 or 0x00; VF itself ends as 0; V[y] is not read
(43_alu_8.md 8xyE; decision D6). -/
def Obligations.DoubleIntoFlag : Prop :=
  ∀ (x y : Reg) (s : State), ∃ t, exec (.shl x y) s = .next t ∧ (∀ y', exec (.shl x y') s = .next t) ∧
    (x ≠ VF → (t.getV x).toNat = (s.getV x).toNat * 2 % 256 ∧
      t.getV VF = if 128 ≤ (s.getV x).toNat then 0x80 else 0x00) ∧
    (x = VF → t.getV VF = 0) ∧
    OnlyV [x, VF] s t

/-! ## Index register, random byte -/

/-- R102 and R113. LD I, nnn writes nnn, the upper 4 bits of I becoming 0; LD F, Vx writes V[x] * 5, V[x] not reduced.
Only I changes. -/
def Obligations.IndexLoads : Prop :=
  (∀ (p : DecoderParams) (w : Word),
    (w &&& 0xF000 = 0xA000 → decodeWith p w = .ldI (fieldNNN w)) ∧
    (w &&& 0xF0FF = 0xF029 → decodeWith p w = .ldFVx (fieldX w))) ∧
  ∀ (nnn : Addr) (x : Reg) (s : State),
    (∃ t, exec (.ldI nnn) s = .next t ∧ t.i.toNat = nnn.toNat ∧ OnlyI s t) ∧
    (∃ t, exec (.ldFVx x) s = .next t ∧ t.i.toNat = (s.getV x).toNat * 5 ∧ OnlyI s t)

/-- ADD I, Vx: modulo 2^16, no 12-bit wrap, no flag (46_timers_mem_F.md Fx1E; decision D14). -/
def Obligations.IndexAddWrapsAtSixteenBits : Prop :=
  ∀ (x : Reg) (s : State), ∃ t, exec (.addIVx x) s = .next t ∧
    t.i.toNat = (s.i.toNat + (s.getV x).toNat) % 65536 ∧ OnlyI s t

/-- RND Vx, kk: the byte of this draw, in 0..254, masked by kk, so that kk = 0xFF never gives 0xFF and kk = 0 gives 0; the
draw is counted, so that the next one is another value of the free function (44_misc_9-D.md Cxkk; decision D15; log
6). It holds for every such function. -/
def Obligations.RandomByteIsMasked : Prop :=
  ∀ (x : Reg) (kk : Byte) (s : State), ∃ t, exec (.rnd x kk) s = .next t ∧
    t.getV x = BitVec.ofNat 8 (drawRand s.draws).val &&& kk ∧
    (BitVec.ofNat 8 (drawRand s.draws).val : Byte).toNat = (drawRand s.draws).val ∧ (drawRand s.draws).val ≤ 254 ∧
    (kk = 0xFF → t.getV x ≠ 0xFF) ∧ (kk = 0 → t.getV x = 0) ∧
    t.draws = s.draws + 1 ∧ ∀ u, u = { t with draws := s.draws } → OnlyV [x] s u

/-! ## Display -/

/-- DRW Vx, Vy, n: where the n rows are in range it draws them at the origin read from V[x] and V[y] before VF is
written, and VF is the collision; where one is not, it faults at the first, drawing nothing (44_misc_9-D.md Dxyn;
decisions D2, D7, D26). -/
def Obligations.DrawReadsThenDraws : Prop :=
  ∀ (x y : Reg) (n : RowCount) (s : State),
    (n.val = 0 ∨ s.i.toNat + n.val ≤ 4096 →
      ∃ t bytes, exec (.drw x y n) s = .next t ∧ bytes.length = n.val ∧
        (∀ r (h : r < bytes.length), s.mem.read (s.i.toNat + r) = some bytes[r]) ∧
        t.fb = (drawSprite s.fb (s.getV x) (s.getV y) bytes).1 ∧
        t.getV VF = (if (drawSprite s.fb (s.getV x) (s.getV y) bytes).2 then 1 else 0) ∧
        OnlyDisplayVF s t) ∧
    (0 < n.val → 4096 < s.i.toNat + n.val →
      exec (.drw x y n) s = .next (s.setStatus (.faulted (.memRange (max s.i.toNat 4096)))))

/-- `draw_sprite` pixel by pixel: a pixel is inverted once for each one bit that falls on it, the coordinates wrapping,
and every other pixel is left; on a display at least as large as the sprite the result is true exactly when a set
pixel was cleared; no bytes draw nothing. The dimensions and the canonical form are kept (60_exceptions.md
section 5; decision D18). -/
def Obligations.SpriteIsXoredPixelByPixel : Prop :=
  ∀ (fb : Framebuffer) (ox oy : Byte) (bytes : List Byte), fb.wf = true →
    (∀ px py, px < fb.width → py < fb.height →
      (drawSprite fb ox oy bytes).1.pixel px py =
        (fb.pixel px py ^^ decide (spriteCount fb ox oy bytes px py % 2 = 1))) ∧
    (8 ≤ fb.width → bytes.length ≤ fb.height →
      ((drawSprite fb ox oy bytes).2 = true ↔ ∃ px py, px < fb.width ∧ py < fb.height ∧ fb.pixel px py = true ∧
        (drawSprite fb ox oy bytes).1.pixel px py = false)) ∧
    drawSprite fb ox oy [] = (fb, false) ∧
    (drawSprite fb ox oy bytes).1.width = fb.width ∧ (drawSprite fb ox oy bytes).1.height = fb.height ∧
    (drawSprite fb ox oy bytes).1.wf = true

/-- A sprite drawn twice at the same place on the same framebuffer leaves it as it was (95_test_vectors.md program G,
at every origin and for every sprite). -/
def Obligations.DrawingTwiceRestoresTheScreen : Prop :=
  ∀ (fb : Framebuffer) (ox oy : Byte) (bytes : List Byte), fb.wf = true →
    (drawSprite (drawSprite fb ox oy bytes).1 ox oy bytes).1 = fb

/-! ## Timers and key wait -/

/-- R108 and R110. LD Vx, DT; LD DT, Vx; LD ST, Vx: the one register is written and nothing else. Of R111 the effect of
LD ST, Vx is here and that no instruction reads ST in `NoInstructionReadsTheSoundTimer`. -/
def Obligations.TimerMoves : Prop :=
  (∀ (p : DecoderParams) (w : Word),
    (w &&& 0xF0FF = 0xF007 → decodeWith p w = .ldVxDt (fieldX w)) ∧
    (w &&& 0xF0FF = 0xF015 → decodeWith p w = .ldDtVx (fieldX w)) ∧
    (w &&& 0xF0FF = 0xF018 → decodeWith p w = .ldStVx (fieldX w))) ∧
  ∀ (x : Reg) (s : State),
    (∃ t, exec (.ldVxDt x) s = .next t ∧ t.getV x = s.dt ∧ OnlyV [x] s t) ∧
    (∃ t, exec (.ldDtVx x) s = .next t ∧ t.dt = s.getV x ∧ t.st = s.st ∧ SameV [] s t ∧ t.i = s.i ∧ t.pc = s.pc ∧
      SameStack s t ∧ t.status = s.status ∧ SameMem s t ∧ SameAround s t ∧ t.draws = s.draws) ∧
    (∃ t, exec (.ldStVx x) s = .next t ∧ t.st = s.getV x ∧ t.dt = s.dt ∧ SameV [] s t ∧ t.i = s.i ∧ t.pc = s.pc ∧
      SameStack s t ∧ t.status = s.status ∧ SameMem s t ∧ SameAround s t ∧ t.draws = s.draws)

/-- No instruction reads ST: two states that differ in ST alone give results that differ in ST alone, and not even there
after LD ST, Vx (10_state.md sections 2 and 4; 46_timers_mem_F.md Fx18; decision D30). -/
def Obligations.NoInstructionReadsTheSoundTimer : Prop :=
  ∀ (i : Instr) (s : State) (b : Byte), ∃ t, exec i s = .next t ∧
    exec i (s.setSt b) = .next (if i.opcode = .ldStVx then t else t.setSt b)

/-- LD Vx, K begins the wait and writes no register; a step with a key press pending ends it with V[x] the key number,
a host key code counting as the key it translates to, or as no event; a step with a shutdown pending aborts it with
V[x] unwritten (46_timers_mem_F.md Fx0A, 60_exceptions.md sections 3 and 5; decision D17). It holds for every
translation (log 24). -/
def Obligations.KeyWaitBeginsAndEnds : Prop :=
  (∀ (x : Reg) (s : State), ∃ t, exec (.ldVxK x) s = .next t ∧ t.status = .waiting x ∧
    ∀ u, u = { t with status := s.status } → OnlyV [] s u) ∧
  ∀ (x : Reg) (s : State) (rest : List HostAction), s.status = .waiting x →
    (∀ k : Key, s.host = .press k :: rest → ∃ t, step s = .next t ∧ (t.getV x).toNat = k.val ∧ t.status = .running ∧
      t.host = rest ∧ ∀ u, u = { t with status := s.status, host := s.host } → OnlyV [x] s u) ∧
    (∀ code, s.host = .pressCode code :: rest → step s =
      match translate code with
      | some k => step { s with host := .press k :: rest }
      | none => .next { s with host := rest }) ∧
    (s.host = .shutdown :: rest → ∃ t, step s = .next t ∧ t.status = .aborted ∧ t.host = rest ∧
      ∀ u, u = { t with status := s.status, host := s.host } → OnlyV [] s u)

/-- While the machine waits no instruction is executed: whatever the host does, memory, I, PC, the stack, the
framebuffer and every register but V[x] survive, and V[x] too unless a key is pressed (60_exceptions.md section 3;
decision D17; log 4). -/
def Obligations.WaitingMachineExecutesNothing : Prop :=
  ∀ (x : Reg) (s : State), s.status = .waiting x →
    ∃ t, step s = .next t ∧ SameV [x] s t ∧ t.i = s.i ∧ t.pc = s.pc ∧ SameStack s t ∧ SameMem s t ∧ t.fb = s.fb ∧
      t.draws = s.draws ∧
      ((∀ k, s.host.head? ≠ some (.press k)) → (∀ c, s.host.head? ≠ some (.pressCode c)) →
        t.getV x = s.getV x ∧ t.status ≠ .running)

/-! ## Register block moves -/

/-- LD B, Vx with its kept fall-through: V0 to Vx at I, I+1, … and the BCD digits of V[x] only where the dump does not
reach; where the addresses run out of range it faults at the first, the digits or the registers before it stored
(46_timers_mem_F.md Fx33; decisions D2, D9, D26; log 17, log 20). -/
def Obligations.BcdStoreFallsThrough : Prop :=
  ∀ (x : Reg) (s : State), s.mem.wf = true →
    (s.i.toNat + max 3 (x.val + 1) ≤ 4096 → ∃ t, exec (.ldBVx x) s = .next t ∧
      (∀ r : Reg, r ≤ x → t.mem.read (s.i.toNat + r.val) = some (s.getV r)) ∧
      (x.val < 1 → t.mem.read (s.i.toNat + 1) = some (BitVec.ofNat 8 ((s.getV x).toNat / 10 % 10))) ∧
      (x.val < 2 → t.mem.read (s.i.toNat + 2) = some (BitVec.ofNat 8 ((s.getV x).toNat % 10))) ∧
      OnlyMem s.i.toNat (max 3 (x.val + 1)) s t) ∧
    (4096 < s.i.toNat + max 3 (x.val + 1) → ∃ t, exec (.ldBVx x) s = .next t ∧
      t.status = .faulted (.memRange (max s.i.toNat 4096)) ∧
      (4096 < s.i.toNat + 3 →
        (s.i.toNat < 4096 → t.mem.read s.i.toNat = some (BitVec.ofNat 8 ((s.getV x).toNat / 100))) ∧
        (s.i.toNat + 1 < 4096 →
          t.mem.read (s.i.toNat + 1) = some (BitVec.ofNat 8 ((s.getV x).toNat / 10 % 10)))) ∧
      (s.i.toNat + 3 ≤ 4096 →
        ∀ r : Reg, s.i.toNat + r.val < 4096 → t.mem.read (s.i.toNat + r.val) = some (s.getV r)) ∧
      ∀ u, u = { t with status := s.status } → OnlyMem s.i.toNat (max 3 (x.val + 1)) s u)

/-- LD [I], Vx: V0 to Vx at I, I+1, …; I unchanged; where the addresses run out of range it faults at the first, the
registers before it stored (46_timers_mem_F.md Fx55; decisions D2, D26; log 20). -/
def Obligations.RegisterDump : Prop :=
  ∀ (x : Reg) (s : State), s.mem.wf = true →
    (s.i.toNat + (x.val + 1) ≤ 4096 → ∃ t, exec (.ldMemVx x) s = .next t ∧
      (∀ r : Reg, r ≤ x → t.mem.read (s.i.toNat + r.val) = some (s.getV r)) ∧
      OnlyMem s.i.toNat (x.val + 1) s t) ∧
    (4096 < s.i.toNat + (x.val + 1) → ∃ t, exec (.ldMemVx x) s = .next t ∧
      t.status = .faulted (.memRange (max s.i.toNat 4096)) ∧
      (∀ r : Reg, s.i.toNat + r.val < 4096 → t.mem.read (s.i.toNat + r.val) = some (s.getV r)) ∧
      ∀ u, u = { t with status := s.status } → OnlyMem s.i.toNat (x.val + 1) s u)

/-- LD Vx, [I]: V0 to Vx from I, I+1, …, the registers above x untouched; where the addresses run out of range it
faults at the first, the registers before it loaded (46_timers_mem_F.md Fx65; decisions D2, D26; log 20). -/
def Obligations.RegisterLoad : Prop :=
  ∀ (x : Reg) (s : State),
    (s.i.toNat + (x.val + 1) ≤ 4096 → ∃ t, exec (.ldVxMem x) s = .next t ∧
      (∀ r : Reg, r ≤ x → some (t.getV r) = s.mem.read (s.i.toNat + r.val)) ∧ OnlyV (regsUpTo x) s t ∧
      ∀ r : Reg, x < r → t.getV r = s.getV r) ∧
    (4096 < s.i.toNat + (x.val + 1) → ∃ t, exec (.ldVxMem x) s = .next t ∧
      t.status = .faulted (.memRange (max s.i.toNat 4096)) ∧
      (∀ r : Reg, s.i.toNat + r.val < 4096 → some (t.getV r) = s.mem.read (s.i.toNat + r.val)) ∧
      (∀ r : Reg, 4096 ≤ s.i.toNat + r.val → t.getV r = s.getV r) ∧
      ∀ u, u = { t with status := s.status } → OnlyV (regsUpTo x) s u)

/-- What LD [I], Vx stored, LD Vx, [I] loads back, whatever the registers hold in between (46_timers_mem_F.md Fx55,
Fx65). -/
def Obligations.DumpThenLoadRestoresRegisters : Prop :=
  ∀ (x : Reg) (s t u : State), s.mem.wf = true → s.i.toNat + (x.val + 1) ≤ 4096 → exec (.ldMemVx x) s = .next t →
    u.mem = t.mem → u.i = t.i → ∃ w, exec (.ldVxMem x) u = .next w ∧ ∀ r : Reg, r ≤ x → w.getV r = s.getV r

/-! ## The no-op class -/

/-- A word of the no-op class decodes to NOP, whose execution leaves the whole state as it is (40_engine.md R78); a host
step over it advances PC by 2, uses up the host's turn, if it named one, and changes nothing else (R73, R78; the queue
of host actions, whose empty list is a host that only steps, is log 3, and the load done before log 29). -/
def Obligations.NoOpChangesNothing : Prop :=
  (∀ (p : DecoderParams) (w : Word), noOpWord p w = true → decodeWith p w = .nop w) ∧
  (∀ (w : Word) (s : State), exec (.nop w) s = .next s) ∧
  ∀ (w : Word) (s : State) (rest : List HostAction), s.loaded = true → s.status = .running →
    (s.host = .step :: rest ∨ s.host = [] ∧ rest = []) → s.mem.readWord s.pc.toNat = some w →
    noOpWord decoderDefaults w = true → step s = .next { s with host := rest, pc := s.pc + 2 }

/-! ## The step -/

/-- A step of a Running machine runs the instruction at PC: PC is advanced by 2, the host's turn, if it named one, is
used up, and the outcome is that of `exec` (40_engine.md section 2; decisions D1, D13; log 3; log 29 for the load done
before). -/
def Obligations.StepRunsTheInstructionAtPc : Prop :=
  ∀ (s : State) (i : Instr) (rest : List HostAction), s.loaded = true → s.status = .running →
    (s.host = .step :: rest ∨ s.host = [] ∧ rest = []) → i.wellFormed decoderDefaults = true →
    s.pc.toNat + 1 < 4096 → s.mem.read s.pc.toNat = some (highByte (encode i)) →
    s.mem.read (s.pc.toNat + 1) = some (lowByte (encode i)) →
    step s = exec i { s with host := rest, pc := s.pc + 2 }

/-- The word a step runs is the one `decodeWith` reads from the two bytes at PC, whatever they are (40_engine.md
section 2, 30_encoding.md section 1). -/
def Obligations.StepDecodesTheWordAtPc : Prop :=
  ∀ (s : State) (hi lo : Byte) (rest : List HostAction), s.loaded = true → s.status = .running →
    (s.host = .step :: rest ∨ s.host = [] ∧ rest = []) →
    s.mem.read s.pc.toNat = some hi → s.mem.read (s.pc.toNat + 1) = some lo →
    step s = exec (decodeWith decoderDefaults (BitVec.ofNat 16 (hi.toNat * 256 + lo.toNat)))
      { s with host := rest, pc := s.pc + 2 }

/-- A fetch at PC above 0xFFE faults before PC is advanced (40_engine.md section 2; decisions D2, D13). -/
def Obligations.FetchFaultLeavesPc : Prop :=
  ∀ (s : State) (rest : List HostAction), s.loaded = true → s.status = .running →
    (s.host = .step :: rest ∨ s.host = [] ∧ rest = []) → 0xFFF ≤ s.pc.toNat →
    step s = .next { s with host := rest, status := .faulted (.memRange s.pc.toNat) }

/-- A tick moves each nonzero timer one toward zero, Running or waiting, and changes nothing else; the key changes set
one key-down bit and change nothing else (60_exceptions.md sections 4 and 5; decisions D21, D22). -/
def Obligations.HostTicksAndKeyChanges : Prop :=
  ∀ (s : State) (rest : List HostAction), s.ended = false →
    (s.host = .tick :: rest → ∃ t, step s = .next t ∧ t.dt.toNat = s.dt.toNat - 1 ∧ t.st.toNat = s.st.toNat - 1 ∧
      t.host = rest ∧ ∀ u, u = { t with dt := s.dt, st := s.st, host := s.host } → u = s) ∧
    (∀ k : Key, s.host = .setDown k :: rest → ∃ t, step s = .next t ∧
      (∀ q, t.isDown q = (decide (q = k) || s.isDown q)) ∧ t.host = rest ∧
      ∀ u, u = { t with keys := s.keys, host := s.host } → u = s) ∧
    (∀ k : Key, s.host = .setUp k :: rest → ∃ t, step s = .next t ∧
      (∀ q, t.isDown q = (decide (q ≠ k) && s.isDown q)) ∧ t.host = rest ∧
      ∀ u, u = { t with keys := s.keys, host := s.host } → u = s)

/-- A step is refused exactly outside a run: after its end (a Faulted or Aborted machine), at the shutdown that ends a
Running one (70_reset_and_hazards.md section 4; decisions D2, D25; log 1, log 2), and, of the core, before the program
load that begins it (section 1; log 29). Every other step is taken; for a waiting machine with nothing or a step
pending that is the model's choice of log 4, for a key press outside a wait that of log 5. -/
def Obligations.StepIsRefusedExactlyOutsideARun : Prop :=
  ∀ (s : State),
    (∀ f, s.status = .faulted f → step s = .refused (.stepAfterFault f)) ∧
    (s.status = .aborted → step s = .refused .stepAfterAbort) ∧
    (s.status = .running → (∃ rest, s.host = .shutdown :: rest) → step s = .refused .hostStopped) ∧
    (s.status = .running → s.loaded = false → (s.host = [] ∨ ∃ rest, s.host = .step :: rest) →
      step s = .refused .notLoaded) ∧
    (s.ended = false → (s.status = .running → ∀ rest, s.host ≠ .shutdown :: rest) →
      (s.status = .running → s.loaded = false → s.host ≠ [] ∧ ∀ rest, s.host ≠ .step :: rest) → ∃ t, step s = .next t)

/-! ## Whole-machine rules -/

/-- `execute` always answers: Done, a fault entry, or the wait of LD_VX_K; it never refuses (40_engine.md section 1;
decisions D1, D2). -/
def Obligations.ExecuteHasThreeOutcomes : Prop :=
  ∀ (i : Instr) (s : State), ∃ t, exec i s = .next t ∧
    (t.status = s.status ∨ (∃ f, t.status = .faulted f) ∨ ∃ x, i = .ldVxK x ∧ t.status = .waiting x)

/-- On a Running machine an instruction enters a fault exactly when the fault table says, and that fault
(40_engine.md section 3, 60_exceptions.md section 1; decisions D2, D3, D10, D16, D26). -/
def Obligations.FaultsAreThoseOfTheTable : Prop :=
  ∀ (i : Instr) (s : State), s.status = .running →
    ∃ t, exec i s = .next t ∧ ∀ f, t.status = .faulted f ↔ expectedFault i s = some f

/-- Only LD_B_VX and LD_MEM_VX write memory, only CLS and DRW the framebuffer, only CALL and RET the stack; no
instruction changes a key-down bit, the host's actions or the load done (10_state.md section 2, the access table;
20_memory.md section 2). -/
def Obligations.OnlyTheirInstructionsWriteMemoryDisplayStack : Prop :=
  ∀ (i : Instr) (s t : State), exec i s = .next t →
    (i.opcode ∉ [.ldBVx, .ldMemVx] → SameMem s t) ∧ (i.opcode ∉ [.cls, .drw] → t.fb = s.fb) ∧
    (i.opcode ∉ [.ret, .call] → SameStack s t) ∧ (∀ k, t.isDown k = s.isDown k) ∧ t.host = s.host ∧
    t.loaded = s.loaded

/-- PC, I, DT and ST are written only by the instructions the access table names, and a general register, VF among
them, only by an instruction that has it as a destination or flag (10_state.md sections 2 to 4, the access table). -/
def Obligations.OnlyTheirInstructionsWriteRegisters : Prop :=
  ∀ (i : Instr) (s t : State), exec i s = .next t →
    (i.opcode ∉ [.ret, .jp, .call, .jpV0, .seImm, .sneImm, .seReg, .sneReg, .skp, .sknp] → t.pc = s.pc) ∧
    (i.opcode ∉ [.ldI, .addIVx, .ldFVx] → t.i = s.i) ∧ (i.opcode ≠ .ldDtVx → t.dt = s.dt) ∧
    (i.opcode ≠ .ldStVx → t.st = s.st) ∧ SameV (writesV i) s t

/-- The machine's invariant, memory and framebuffer in canonical form, is kept by every step, under every setting of
the decoder's parameters; and no step changes the display's dimensions (20_memory.md R32; 60_exceptions.md R134; log
19, log 25). -/
def Obligations.EveryStepKeepsTheInvariant : Prop :=
  ∀ (p : DecoderParams) (s t : State), s.wf = true → stepWith p s = .next t →
    t.wf = true ∧ t.fb.width = s.fb.width ∧ t.fb.height = s.fb.height

/-- What the host does between the core's steps (a tick, a key change, a key press) never ends a Running machine's run
and writes no memory, V, I, PC, SP or stack slot (60_exceptions.md section 5; decisions D2, D22; log 26; that a press
outside a wait is dropped is log 5). -/
def Obligations.HostActionsNeverFault : Prop :=
  ∀ (s t : State) (a : HostAction) (rest : List HostAction), s.status = .running → s.host = a :: rest → a ≠ .step →
    step s = .next t → t.status = .running ∧ t.mem = s.mem ∧ t.v = s.v ∧ t.i = s.i ∧ t.pc = s.pc ∧ SameStack s t

/-! ## Fetch of stored code -/

/-- A stored byte is seen by the next fetch: after a register dump onto the word at PC, the next fetch reads V0 and V1
as the word (20_memory.md section 5, 70_reset_and_hazards.md section 2). -/
def Obligations.StoredCodeIsFetchedNext : Prop :=
  ∀ (x : Reg) (s t : State), s.mem.wf = true → 1 ≤ x.val → s.i = s.pc → s.i.toNat + (x.val + 1) ≤ 4096 →
    exec (.ldMemVx x) s = .next t →
    t.fetch = .ok (wordOfBytes (s.getV 0) (s.getV 1), t.setPc (s.pc + 2))

/-! ## Reset and load -/

/-- Machine reset: the glyph of digit 0 at 0x000, zeros from 0x050 up, every register zero, SP zero, PC zero
(10_state.md section 7, 70_reset_and_hazards.md section 1). The stack slots, the framebuffer and the key state are
the spec's own choice (decisions D12, D19; log 10, log 11), `Running` too (D2); the glyphs of 1 to F (log 9) and the
display's size (log 8) are not stated here. -/
def Obligations.ResetState : Prop :=
  (State.reset.mem.read 0 = some 0xF0 ∧ State.reset.mem.read 1 = some 0x90 ∧ State.reset.mem.read 2 = some 0x90 ∧
    State.reset.mem.read 3 = some 0x90 ∧ State.reset.mem.read 4 = some 0xF0) ∧
  (∀ a, 0x050 ≤ a → a < 4096 → State.reset.mem.read a = some 0) ∧ (∀ r, State.reset.getV r = 0) ∧
  State.reset.i = 0 ∧ State.reset.pc = 0 ∧ State.reset.sp = 0 ∧ State.reset.dt = 0 ∧ State.reset.st = 0 ∧
  (∀ j, State.reset.slot j = 0) ∧ State.reset.status = .running ∧
  (∀ px py, State.reset.fb.pixel px py = false) ∧ ∀ k, State.reset.isDown k = false

/-- The argument GLYPH_TABLE: under any 75 bytes for the digits 1 to F, reset memory holds digit 0's glyph at 0x000 to
0x004, those bytes at 0x005 to 0x04F in order and zeros above, in canonical form, and everything else is as at reset
under the default bytes (00_scope.md section 3; 20_memory.md section 3, R44, R45; decision D20; log 9 for the default). -/
def Obligations.ResetUnderAnyGlyphTable : Prop :=
  ∀ g : GlyphRows,
    (∀ (a : Nat) (h : a < 5), (State.resetWith g).mem.read a = some ([0xF0, 0x90, 0x90, 0x90, 0xF0] : List Byte)[a]) ∧
    (∀ (j : Nat) (h : j < 75), (State.resetWith g).mem.read (5 + j) = some g[j]) ∧
    (∀ a, 0x050 ≤ a → a < 4096 → (State.resetWith g).mem.read a = some 0) ∧ (State.resetWith g).wf = true ∧
    (∀ u, u = { State.resetWith g with mem := State.reset.mem } → u = State.reset) ∧
    State.resetWith defaultGlyphRows = State.reset

/-- Before the program load a Running machine executes nothing: the host's step is refused, and whatever else the host
does memory, PC and V are as before and no program is loaded; so the PC of reset is never used to fetch. After a load
the first step fetches the word at 0x200 (70_reset_and_hazards.md section 1, R142, R144; log 12, and log 29 for the
refusal). -/
def Obligations.FirstInstructionIsTheOneAt0x200 : Prop :=
  State.reset.loaded = false ∧
  (∀ (s : State), s.loaded = false → s.status = .running →
    ((s.host = [] ∨ ∃ rest, s.host = .step :: rest) → step s = .refused .notLoaded) ∧
    ∀ t, step s = .next t → t.loaded = false ∧ t.status = .running ∧ t.mem = s.mem ∧ t.pc = s.pc ∧ SameV [] s t) ∧
  ∀ (image : List Byte) (s t : State), s.status = .running → s.host = [] → load image s = .next t →
    ∃ hi lo, t.mem.read 0x200 = some hi ∧ t.mem.read 0x201 = some lo ∧
      step t = exec (decodeWith decoderDefaults (BitVec.ofNat 16 (hi.toNat * 256 + lo.toNat))) (t.setPc 0x202)

/-- The invariant holds at reset (10_state.md section 7). -/
def Obligations.ResetMeetsTheInvariant : Prop := State.reset.wf = true

/-- Program load, once after reset: an image of at most 3584 bytes stands at 0x200 upward, PC is 0x0200, every other byte
and register is as before; a longer one is refused (70_reset_and_hazards.md section 1; decision D27; log 12), and so is
a second load (log 29). -/
def Obligations.ProgramLoad : Prop :=
  ∀ (image : List Byte) (s : State), s.mem.wf = true →
    (s.loaded = false → image.length ≤ 3584 → ∃ t, load image s = .next t ∧ t.pc = 0x200 ∧ t.loaded = true ∧
      (∀ j (h : j < image.length), t.mem.read (0x200 + j) = some image[j]) ∧
      (∀ u, u = { t with pc := s.pc, loaded := s.loaded } → OnlyMem 0x200 image.length s u) ∧ t.mem.wf = true) ∧
    (s.loaded = false → 3584 < image.length → load image s = .refused (.programTooLong image.length)) ∧
    (s.loaded = true → load image s = .refused .alreadyLoaded)

/-- After a load of an instruction's two bytes the next step runs that instruction, with PC = 0x202, from any state
(70_reset_and_hazards.md section 1; log 12): what `withFetchWord` stands for. -/
def Obligations.LoadedInstructionRunsFirst : Prop :=
  ∀ (s : State) (i : Instr), s.mem.wf = true → i.wellFormed decoderDefaults = true →
    ∃ t, step (s.withFetchWord 16 (encode i).toNat) = exec i t ∧ t.pc = 0x202 ∧ SameV [] s t ∧ t.i = s.i ∧
      SameStack s t ∧ SameTimers s t ∧ t.status = .running ∧ SameMemOutside 0x200 2 s t ∧ t.fb = s.fb ∧
      (∀ k, t.isDown k = s.isDown k) ∧ t.host = [] ∧ t.loaded = true ∧ t.draws = s.draws
end

