-- ==== Sys2Proof/Laws/Decode.lean ====
section
/-! SUPPORT. The fields of an encoded word (30_encoding.md R55, R57), the word as the sum of its fields, and the decoding
of each family. -/

namespace Sys2Proof

open Config

/-! ## Fields of the encoder's words -/

theorem encNNN_toNat {f : Nat} (hf : f < 16) (nnn : Addr) : (encNNN f nnn).toNat = f * 0x1000 + nnn.toNat := by
  have := nnn.isLt
  rw [encNNN, BitVec.toNat_ofNat, Nat.mod_eq_of_lt (by omega)]

theorem encXKK_toNat {f : Nat} (hf : f < 16) (x : Reg) (kk : Byte) :
    (encXKK f x kk).toNat = f * 0x1000 + x.val * 0x100 + kk.toNat := by
  have := kk.isLt
  rw [encXKK, BitVec.toNat_ofNat, Nat.mod_eq_of_lt (by omega)]

theorem encXYN_toNat {f : Nat} (hf : f < 16) (x y : Reg) (n : Fin 16) :
    (encXYN f x y n).toNat = f * 0x1000 + x.val * 0x100 + y.val * 0x10 + n.val := by
  rw [encXYN, BitVec.toNat_ofNat, Nat.mod_eq_of_lt (by omega)]

theorem fieldF_encNNN {f : Nat} (hf : f < 16) (nnn : Addr) : fieldF (encNNN f nnn) = f := by
  have := nnn.isLt
  rw [fieldF, encNNN_toNat hf]
  omega

theorem fieldNNN_encNNN {f : Nat} (hf : f < 16) (nnn : Addr) : fieldNNN (encNNN f nnn) = nnn := by
  have := nnn.isLt
  apply BitVec.eq_of_toNat_eq
  rw [fieldNNN, BitVec.toNat_setWidth, encNNN_toNat hf]
  omega

theorem fieldF_encXKK {f : Nat} (hf : f < 16) (x : Reg) (kk : Byte) : fieldF (encXKK f x kk) = f := by
  have := kk.isLt
  rw [fieldF, encXKK_toNat hf]
  omega

theorem fieldX_encXKK {f : Nat} (hf : f < 16) (x : Reg) (kk : Byte) : fieldX (encXKK f x kk) = x := by
  have := kk.isLt
  apply Fin.ext
  show (encXKK f x kk).toNat / 0x100 % 16 = x.val
  rw [encXKK_toNat hf]
  omega

theorem fieldKK_encXKK {f : Nat} (hf : f < 16) (x : Reg) (kk : Byte) : fieldKK (encXKK f x kk) = kk := by
  have := kk.isLt
  apply BitVec.eq_of_toNat_eq
  rw [fieldKK, BitVec.toNat_setWidth, encXKK_toNat hf]
  omega

theorem fieldF_encXYN {f : Nat} (hf : f < 16) (x y : Reg) (n : Fin 16) : fieldF (encXYN f x y n) = f := by
  rw [fieldF, encXYN_toNat hf]
  omega

theorem fieldX_encXYN {f : Nat} (hf : f < 16) (x y : Reg) (n : Fin 16) : fieldX (encXYN f x y n) = x := by
  apply Fin.ext
  show (encXYN f x y n).toNat / 0x100 % 16 = x.val
  rw [encXYN_toNat hf]
  omega

theorem fieldY_encXYN {f : Nat} (hf : f < 16) (x y : Reg) (n : Fin 16) : fieldY (encXYN f x y n) = y := by
  apply Fin.ext
  show (encXYN f x y n).toNat / 0x10 % 16 = y.val
  rw [encXYN_toNat hf]
  omega

theorem fieldN_encXYN {f : Nat} (hf : f < 16) (x y : Reg) (n : Fin 16) : fieldN (encXYN f x y n) = n := by
  apply Fin.ext
  show (encXYN f x y n).toNat % 16 = n.val
  rw [encXYN_toNat hf]
  omega

/-! ## A word from its fields -/

theorem fieldF_lt (w : Word) : fieldF w < 16 := by
  have := w.isLt
  rw [fieldF]
  omega

theorem word_eq_encNNN (w : Word) : encNNN (fieldF w) (fieldNNN w) = w := by
  have h := w.isLt
  apply BitVec.eq_of_toNat_eq
  rw [encNNN_toNat (fieldF_lt w), fieldF, fieldNNN, BitVec.toNat_setWidth]
  omega

theorem word_eq_encXKK (w : Word) : encXKK (fieldF w) (fieldX w) (fieldKK w) = w := by
  have h := w.isLt
  apply BitVec.eq_of_toNat_eq
  rw [encXKK_toNat (fieldF_lt w), fieldF, fieldKK, BitVec.toNat_setWidth]
  show w.toNat / 0x1000 * 0x1000 + w.toNat / 0x100 % 16 * 0x100 + w.toNat % 2 ^ 8 = w.toNat
  omega

theorem word_eq_encXYN (w : Word) : encXYN (fieldF w) (fieldX w) (fieldY w) (fieldN w) = w := by
  have h := w.isLt
  apply BitVec.eq_of_toNat_eq
  rw [encXYN_toNat (fieldF_lt w), fieldF]
  show w.toNat / 0x1000 * 0x1000 + w.toNat / 0x100 % 16 * 0x100 + w.toNat / 0x10 % 16 * 0x10 + w.toNat % 16 = w.toNat
  omega

/-! ## Masks -/

theorem and_F000_toNat (w : Word) : (w &&& 0xF000).toNat = fieldF w * 0x1000 := by
  have h : w &&& (0xF000 : Word) = (w >>> 12) <<< 12 := by
    ext i hi
    simp only [BitVec.getElem_and, BitVec.getElem_shiftLeft]
    interval_cases i <;> simp
  have := w.isLt
  rw [h, BitVec.toNat_shiftLeft, BitVec.toNat_ushiftRight, Nat.shiftLeft_eq, Nat.shiftRight_eq_div_pow, fieldF]
  omega

theorem and_000F_toNat (w : Word) : (w &&& 0x000F).toNat = (fieldN w).val := by
  have h : w &&& 0x000F = BitVec.ofNat 16 (w.toNat % 16) := by
    apply BitVec.eq_of_toNat_eq
    rw [BitVec.toNat_and, BitVec.toNat_ofNat]
    have : (15 : Nat) = 2 ^ 4 - 1 := rfl
    show w.toNat &&& 15 = _
    rw [this, Nat.and_two_pow_sub_one_eq_mod]
    omega
  rw [h, BitVec.toNat_ofNat]
  show w.toNat % 16 % 2 ^ 16 = w.toNat % 16
  omega

theorem and_00FF_toNat (w : Word) : (w &&& 0x00FF).toNat = (fieldKK w).toNat := by
  rw [BitVec.toNat_and, fieldKK, BitVec.toNat_setWidth]
  show w.toNat &&& (2 ^ 8 - 1) = _
  rw [Nat.and_two_pow_sub_one_eq_mod]

/-- `w & 0xF000 == f000` says that the family is f. -/
theorem hits_F000 {w : Word} {f : Nat} (hf : f < 16) : w &&& 0xF000 = BitVec.ofNat 16 (f * 0x1000) ↔ fieldF w = f := by
  rw [← BitVec.toNat_inj, and_F000_toNat, BitVec.toNat_ofNat, Nat.mod_eq_of_lt (by omega)]
  omega

theorem and_split {w : Word} {lo : Word} (h : 0xF000#16 &&& lo = 0) :
    (w &&& (0xF000 ||| lo)).toNat = (w &&& 0xF000).toNat + (w &&& lo).toNat := by
  have hd : (w &&& 0xF000) &&& (w &&& lo) = 0#16 := by
    calc (w &&& 0xF000) &&& (w &&& lo) = (w &&& w) &&& (0xF000#16 &&& lo) := by ac_rfl
      _ = 0#16 := by rw [h]; simp
  have hs : w &&& (0xF000 ||| lo) = (w &&& 0xF000) + (w &&& lo) := by
    rw [BitVec.add_eq_or_of_and_eq_zero _ _ hd]
    ext i hi
    simp [Bool.and_or_distrib_left]
  have h1 : (w &&& 0xF000).toNat + (w &&& lo).toNat < 2 ^ 16 := by
    have := BitVec.toNat_add_of_and_eq_zero hd
    have := ((w &&& 0xF000) + (w &&& lo)).isLt
    omega
  rw [hs, BitVec.toNat_add, Nat.mod_eq_of_lt h1]

/-- `w & 0xF00F == f00n` says that the family is f and the low nibble n. -/
theorem hits_F00F {w : Word} {f n : Nat} (hf : f < 16) (hn : n < 16) :
    w &&& 0xF00F = BitVec.ofNat 16 (f * 0x1000 + n) ↔ fieldF w = f ∧ (fieldN w).val = n := by
  have hs := and_split (w := w) (lo := 0x000F) (by decide)
  rw [← BitVec.toNat_inj, show (0xF00F : Word) = 0xF000 ||| 0x000F from by decide, hs, and_F000_toNat, and_000F_toNat,
    BitVec.toNat_ofNat, Nat.mod_eq_of_lt (by omega)]
  have := (fieldN w).isLt
  omega

/-- `w & 0xF0FF == f0kk` says that the family is f and the low byte kk. -/
theorem hits_F0FF {w : Word} {f k : Nat} (hf : f < 16) (hk : k < 256) :
    w &&& 0xF0FF = BitVec.ofNat 16 (f * 0x1000 + k) ↔ fieldF w = f ∧ (fieldKK w).toNat = k := by
  have hs := and_split (w := w) (lo := 0x00FF) (by decide)
  rw [← BitVec.toNat_inj, show (0xF0FF : Word) = 0xF000 ||| 0x00FF from by decide, hs, and_F000_toNat, and_00FF_toNat,
    BitVec.toNat_ofNat, Nat.mod_eq_of_lt (by omega)]
  have := (fieldKK w).isLt
  omega

/-! ## Decoding by family -/

theorem decode_family_0 {p : DecoderParams} {w : Word} (h : fieldF w = 0x0) : decodeWith p w = decode0 p w := by
  simp only [decodeWith, h]

theorem decode_family_1 {p : DecoderParams} {w : Word} (h : fieldF w = 0x1) : decodeWith p w = .jp (fieldNNN w) := by
  simp only [decodeWith, h]

theorem decode_family_2 {p : DecoderParams} {w : Word} (h : fieldF w = 0x2) : decodeWith p w = .call (fieldNNN w) := by
  simp only [decodeWith, h]

theorem decode_family_3 {p : DecoderParams} {w : Word} (h : fieldF w = 0x3) : decodeWith p w = .seImm (fieldX w) (fieldKK w) := by
  simp only [decodeWith, h]

theorem decode_family_4 {p : DecoderParams} {w : Word} (h : fieldF w = 0x4) : decodeWith p w = .sneImm (fieldX w) (fieldKK w) := by
  simp only [decodeWith, h]

theorem decode_family_5 {p : DecoderParams} {w : Word} (h : fieldF w = 0x5) : decodeWith p w = decodeLowNibble p w (.seReg (fieldX w) (fieldY w)) := by
  simp only [decodeWith, h]

theorem decode_family_6 {p : DecoderParams} {w : Word} (h : fieldF w = 0x6) : decodeWith p w = .ldImm (fieldX w) (fieldKK w) := by
  simp only [decodeWith, h]

theorem decode_family_7 {p : DecoderParams} {w : Word} (h : fieldF w = 0x7) : decodeWith p w = .addImm (fieldX w) (fieldKK w) := by
  simp only [decodeWith, h]

theorem decode_family_8 {p : DecoderParams} {w : Word} (h : fieldF w = 0x8) : decodeWith p w = decode8 w := by
  simp only [decodeWith, h]

theorem decode_family_9 {p : DecoderParams} {w : Word} (h : fieldF w = 0x9) : decodeWith p w = decodeLowNibble p w (.sneReg (fieldX w) (fieldY w)) := by
  simp only [decodeWith, h]

theorem decode_family_A {p : DecoderParams} {w : Word} (h : fieldF w = 0xA) : decodeWith p w = .ldI (fieldNNN w) := by
  simp only [decodeWith, h]

theorem decode_family_B {p : DecoderParams} {w : Word} (h : fieldF w = 0xB) : decodeWith p w = .jpV0 (fieldNNN w) := by
  simp only [decodeWith, h]

theorem decode_family_C {p : DecoderParams} {w : Word} (h : fieldF w = 0xC) : decodeWith p w = .rnd (fieldX w) (fieldKK w) := by
  simp only [decodeWith, h]

theorem decode_family_D {p : DecoderParams} {w : Word} (h : fieldF w = 0xD) : decodeWith p w = .drw (fieldX w) (fieldY w) (fieldN w) := by
  simp only [decodeWith, h]

theorem decode_family_E {p : DecoderParams} {w : Word} (h : fieldF w = 0xE) : decodeWith p w = decodeE w := by
  simp only [decodeWith, h]

theorem decode_family_F {p : DecoderParams} {w : Word} (h : fieldF w = 0xF) : decodeWith p w = decodeF w := by
  simp only [decodeWith, h]

/-- The low byte of a word as a numeral. -/
theorem fieldKK_eq_iff {w : Word} {k : Nat} (hk : k < 256) : fieldKK w = BitVec.ofNat 8 k ↔ (fieldKK w).toNat = k := by
  rw [← BitVec.toNat_inj, BitVec.toNat_ofNat, Nat.mod_eq_of_lt (by omega)]

/-! ## Bytes of a word -/

theorem wordOfBytes_toNat (hi lo : Byte) : (wordOfBytes hi lo).toNat = hi.toNat * 256 + lo.toNat := by
  have := lo.isLt
  rw [wordOfBytes, BitVec.toNat_append, ← Nat.shiftLeft_add_eq_or_of_lt this, Nat.shiftLeft_eq]

@[simp] theorem wordOfBytes_high_low (w : Word) : wordOfBytes (highByte w) (lowByte w) = w := by
  apply BitVec.eq_of_toNat_eq
  have := w.isLt
  rw [wordOfBytes_toNat, highByte, lowByte, BitVec.extractLsb'_toNat, BitVec.toNat_setWidth, Nat.shiftRight_eq_div_pow]
  omega

theorem tableWord_toNat (w : Word) : tableWord 16 w.toNat = w := by
  apply BitVec.eq_of_toNat_eq
  have := w.isLt
  rw [tableWord, BitVec.toNat_ofNat]
  omega

end Sys2Proof
end

