-- ==== Sys2Proof/Laws/Display.lean ====
section
/-! SUPPORT. The laws of the display (60_exceptions.md R134, R135): what a flip does to each pixel, and that drawing
keeps the framebuffer's dimensions and canonical form. -/

namespace Sys2Proof.Machine

theorem risingBelow_cons {lo hi a : Nat} {rest : List Nat} :
    risingBelow lo hi (a :: rest) = true ↔ lo ≤ a ∧ a < hi ∧ risingBelow (a + 1) hi rest = true := by
  simp [risingBelow, and_assoc]

theorem risingBelow_mono {lo lo' hi : Nat} (h : lo' ≤ lo) :
    ∀ {l : List Nat}, risingBelow lo hi l = true → risingBelow lo' hi l = true
  | [], _ => rfl
  | _ :: _, hl => by
    rw [risingBelow_cons] at hl ⊢
    exact ⟨h.trans hl.1, hl.2⟩

theorem le_of_mem_rising {lo hi a : Nat} : ∀ {l : List Nat}, risingBelow lo hi l = true → a ∈ l → lo ≤ a
  | [], _, h => absurd h (by simp)
  | b :: rest, hl, h => by
    rw [risingBelow_cons] at hl
    rcases List.mem_cons.mp h with e | e
    · omega
    · have := le_of_mem_rising hl.2.2 e
      omega

/-- A toggle leaves every other index where it is. -/
theorem mem_toggle_other {a c : Nat} (h : c ≠ a) : ∀ l : List Nat, c ∈ toggle l a ↔ c ∈ l
  | [] => by simp [toggle, h]
  | b :: rest => by
    have ih := mem_toggle_other h rest
    rw [toggle]
    rcases Nat.lt_trichotomy a b with hlt | heq | hgt
    · rw [if_pos hlt]
      simp [h]
    · subst heq
      rw [if_neg (by omega), if_pos rfl]
      simp [h]
    · rw [if_neg (by omega), if_neg (by omega), List.mem_cons, ih, List.mem_cons]

/-- A toggle inverts its own index's membership. -/
theorem mem_toggle_self {lo hi a : Nat} : ∀ {l : List Nat}, risingBelow lo hi l = true → (a ∈ toggle l a ↔ a ∉ l)
  | [], _ => by simp [toggle]
  | b :: rest, hl => by
    rw [risingBelow_cons] at hl
    have low : a ∈ rest → b + 1 ≤ a := le_of_mem_rising hl.2.2
    have ih := mem_toggle_self (a := a) hl.2.2
    rw [toggle]
    rcases Nat.lt_trichotomy a b with hlt | heq | hgt
    · rw [if_pos hlt]
      have hr : a ∉ rest := fun e => by have := low e; omega
      have hb : a ≠ b := by omega
      simp [hr, hb]
    · subst heq
      rw [if_neg (by omega), if_pos rfl]
      have hr : a ∉ rest := fun e => by have := low e; omega
      simp [hr]
    · have hb : a ≠ b := by omega
      rw [if_neg (by omega), if_neg hb, List.mem_cons, ih, List.mem_cons]
      simp [hb]

/-- A toggle keeps a list rising. -/
theorem rising_toggle {hi a : Nat} (ha : a < hi) : ∀ {l : List Nat} {lo : Nat}, lo ≤ a → risingBelow lo hi l = true →
    risingBelow lo hi (toggle l a) = true
  | [], lo, hlo, _ => by
    rw [toggle, risingBelow_cons]
    exact ⟨hlo, ha, rfl⟩
  | b :: rest, lo, hlo, hl => by
    have hl' := hl
    rw [risingBelow_cons] at hl
    rw [toggle]
    split_ifs with h1 h2
    · rw [risingBelow_cons]
      refine ⟨hlo, ha, ?_⟩
      rw [risingBelow_cons]
      exact ⟨h1, hl.2⟩
    · exact risingBelow_mono (by omega) hl.2.2
    · rw [risingBelow_cons]
      exact ⟨hl.1, hl.2.1, rising_toggle ha (by omega) hl.2.2⟩

theorem Framebuffer.wf_iff {fb : Framebuffer} :
    fb.wf = true ↔ 0 < fb.width ∧ 0 < fb.height ∧ risingBelow 0 (fb.width * fb.height) fb.lit = true := by
  simp [Framebuffer.wf, and_assoc]

@[simp] theorem Framebuffer.flip_width (fb : Framebuffer) (px py : Nat) : (fb.flip px py).width = fb.width := rfl
@[simp] theorem Framebuffer.flip_height (fb : Framebuffer) (px py : Nat) : (fb.flip px py).height = fb.height := rfl
@[simp] theorem Framebuffer.clear_width (fb : Framebuffer) : fb.clear.width = fb.width := rfl
@[simp] theorem Framebuffer.clear_height (fb : Framebuffer) : fb.clear.height = fb.height := rfl
@[simp] theorem Framebuffer.clear_pixel (fb : Framebuffer) (px py : Nat) : fb.clear.pixel px py = false := by
  simp [Framebuffer.clear, Framebuffer.pixel]

theorem Framebuffer.clear_wf {fb : Framebuffer} (h : fb.wf = true) : fb.clear.wf = true := by
  rw [Framebuffer.wf_iff] at h ⊢
  exact ⟨h.1, h.2.1, rfl⟩

/-- Pixels of a framebuffer have their own index each. -/
theorem Framebuffer.index_inj {fb : Framebuffer} {px py qx qy : Nat} (hp : px < fb.width) (hq : qx < fb.width) :
    fb.index px py = fb.index qx qy ↔ px = qx ∧ py = qy := by
  unfold Framebuffer.index
  constructor
  · intro h
    have h1 : (py * fb.width + px) % fb.width = (qy * fb.width + qx) % fb.width := by rw [h]
    have h2 : (py * fb.width + px) / fb.width = (qy * fb.width + qx) / fb.width := by rw [h]
    have hw : 0 < fb.width := by omega
    rw [Nat.add_comm, Nat.add_mul_mod_self_right, Nat.add_comm (qy * fb.width), Nat.add_mul_mod_self_right,
      Nat.mod_eq_of_lt hp, Nat.mod_eq_of_lt hq] at h1
    rw [Nat.add_comm, Nat.add_mul_div_right _ _ hw, Nat.div_eq_of_lt hp, Nat.add_comm (qy * fb.width),
      Nat.add_mul_div_right _ _ hw, Nat.div_eq_of_lt hq] at h2
    omega
  · rintro ⟨rfl, rfl⟩
    rfl

theorem Framebuffer.index_lt {fb : Framebuffer} {px py : Nat} (hp : px < fb.width) (hq : py < fb.height) :
    fb.index px py < fb.width * fb.height := by
  unfold Framebuffer.index
  calc py * fb.width + px < py * fb.width + fb.width := by omega
    _ = (py + 1) * fb.width := by ring
    _ ≤ fb.height * fb.width := Nat.mul_le_mul_right _ hq
    _ = fb.width * fb.height := Nat.mul_comm _ _

/-- A flip inverts its own pixel and no other (R135). -/
theorem Framebuffer.pixel_flip {fb : Framebuffer} (h : fb.wf = true) {px py qx qy : Nat} (hp : px < fb.width)
    (hq : qx < fb.width) :
    (fb.flip px py).pixel qx qy = if qx = px ∧ qy = py then !fb.pixel qx qy else fb.pixel qx qy := by
  rw [Framebuffer.wf_iff] at h
  show decide (fb.index qx qy ∈ toggle fb.lit (fb.index px py)) = _
  unfold Framebuffer.pixel
  by_cases he : qx = px ∧ qy = py
  · obtain ⟨rfl, rfl⟩ := he
    rw [if_pos ⟨rfl, rfl⟩, ← decide_not]
    exact decide_eq_decide.mpr (mem_toggle_self h.2.2)
  · rw [if_neg he]
    exact decide_eq_decide.mpr (mem_toggle_other (fun e => he ((Framebuffer.index_inj hq hp).mp e)) _)

/-- A flip keeps the canonical form. -/
theorem Framebuffer.flip_wf {fb : Framebuffer} (h : fb.wf = true) {px py : Nat} (hp : px < fb.width)
    (hq : py < fb.height) : (fb.flip px py).wf = true := by
  rw [Framebuffer.wf_iff] at h ⊢
  exact ⟨h.1, h.2.1, rising_toggle (Framebuffer.index_lt hp hq) (Nat.zero_le _) h.2.2⟩

/-- What drawing one bit keeps: the dimensions and the canonical form. -/
theorem drawBit_keeps {ox oy row b : Nat} {byte : Byte} {acc : Framebuffer × Bool} (h : acc.1.wf = true) :
    (drawBit ox oy row byte acc b).1.wf = true ∧ (drawBit ox oy row byte acc b).1.width = acc.1.width ∧
      (drawBit ox oy row byte acc b).1.height = acc.1.height := by
  unfold drawBit
  split_ifs
  · have hw := Framebuffer.wf_iff.mp h
    exact ⟨Framebuffer.flip_wf h (Nat.mod_lt _ hw.1) (Nat.mod_lt _ hw.2.1), rfl, rfl⟩
  · exact ⟨h, rfl, rfl⟩

theorem drawBits_keeps {ox oy row : Nat} {byte : Byte} : ∀ {bits : List Nat} {acc : Framebuffer × Bool},
    acc.1.wf = true → (bits.foldl (drawBit ox oy row byte) acc).1.wf = true ∧
      (bits.foldl (drawBit ox oy row byte) acc).1.width = acc.1.width ∧
      (bits.foldl (drawBit ox oy row byte) acc).1.height = acc.1.height
  | [], _, h => ⟨h, rfl, rfl⟩
  | b :: bits, acc, h => by
    obtain ⟨h1, h2, h3⟩ := drawBit_keeps (ox := ox) (oy := oy) (row := row) (b := b) (byte := byte) h
    obtain ⟨k1, k2, k3⟩ := drawBits_keeps (bits := bits) h1
    exact ⟨k1, k2.trans h2, k3.trans h3⟩

theorem drawRows_keeps {ox oy : Nat} : ∀ {bytes : List Byte} {row : Nat} {acc : Framebuffer × Bool},
    acc.1.wf = true → (drawRows ox oy row bytes acc).1.wf = true ∧
      (drawRows ox oy row bytes acc).1.width = acc.1.width ∧ (drawRows ox oy row bytes acc).1.height = acc.1.height
  | [], _, _, h => ⟨h, rfl, rfl⟩
  | byte :: rest, row, acc, h => by
    obtain ⟨h1, h2, h3⟩ := drawBits_keeps (ox := ox) (oy := oy) (row := row) (byte := byte)
      (bits := [0, 1, 2, 3, 4, 5, 6, 7]) h
    obtain ⟨k1, k2, k3⟩ := drawRows_keeps (bytes := rest) (row := row + 1) h1
    exact ⟨k1, k2.trans h2, k3.trans h3⟩

/-- What a sprite draw keeps: the dimensions and the canonical form (R135). -/
theorem drawSprite_keeps {fb : Framebuffer} (h : fb.wf = true) (ox oy : Byte) (bytes : List Byte) :
    (drawSprite fb ox oy bytes).1.wf = true ∧ (drawSprite fb ox oy bytes).1.width = fb.width ∧
      (drawSprite fb ox oy bytes).1.height = fb.height :=
  drawRows_keeps (acc := (fb, false)) h

/-- The dimensions never change, whatever the framebuffer. -/
theorem drawBits_dims {ox oy row : Nat} {byte : Byte} : ∀ {bits : List Nat} {acc : Framebuffer × Bool},
    (bits.foldl (drawBit ox oy row byte) acc).1.width = acc.1.width ∧
      (bits.foldl (drawBit ox oy row byte) acc).1.height = acc.1.height
  | [], _ => ⟨rfl, rfl⟩
  | b :: bits, acc => by
    have h : (drawBit ox oy row byte acc b).1.width = acc.1.width ∧
        (drawBit ox oy row byte acc b).1.height = acc.1.height := by
      unfold drawBit
      split_ifs <;> exact ⟨rfl, rfl⟩
    obtain ⟨k1, k2⟩ := drawBits_dims (ox := ox) (oy := oy) (row := row) (byte := byte) (bits := bits)
      (acc := drawBit ox oy row byte acc b)
    exact ⟨k1.trans h.1, k2.trans h.2⟩

/-! ## Pixels -/

/-- A set pixel of a canonical framebuffer is one it has. -/
theorem lt_of_mem_rising {lo hi a : Nat} : ∀ {l : List Nat}, risingBelow lo hi l = true → a ∈ l → a < hi
  | [], _, h => absurd h (by simp)
  | b :: rest, hl, h => by
    rw [risingBelow_cons] at hl
    rcases List.mem_cons.mp h with e | e
    · omega
    · exact lt_of_mem_rising hl.2.2 e

/-- Rising lists with the same members are equal. -/
theorem rising_ext {hi : Nat} : ∀ {l l' : List Nat} {lo : Nat}, risingBelow lo hi l = true →
    risingBelow lo hi l' = true → (∀ a, a ∈ l ↔ a ∈ l') → l = l'
  | [], [], _, _, _, _ => rfl
  | [], b :: l', _, _, _, h => absurd ((h b).mpr List.mem_cons_self) (by simp)
  | b :: l', [], _, _, _, h => absurd ((h b).mp List.mem_cons_self) (by simp)
  | a :: l, b :: l', lo, h1, h2, h => by
    rw [risingBelow_cons] at h1 h2
    have la : ∀ {c}, c ∈ l → a + 1 ≤ c := fun hc => le_of_mem_rising h1.2.2 hc
    have lb : ∀ {c}, c ∈ l' → b + 1 ≤ c := fun hc => le_of_mem_rising h2.2.2 hc
    have hab : a = b := by
      rcases List.mem_cons.mp ((h a).mp List.mem_cons_self) with e | e
      · exact e
      · rcases List.mem_cons.mp ((h b).mpr List.mem_cons_self) with e' | e'
        · exact e'.symm
        · have := la e'
          have := lb e
          omega
    subst hab
    congr 1
    refine rising_ext h1.2.2 h2.2.2 fun c => ?_
    have := h c
    simp only [List.mem_cons] at this
    constructor
    · intro hc
      rcases this.mp (.inr hc) with e | e
      · have := la hc
        omega
      · exact e
    · intro hc
      rcases this.mpr (.inr hc) with e | e
      · have := lb hc
        omega
      · exact e

/-- Canonical framebuffers of one size with the same pixels are the same data (log 19). -/
theorem Framebuffer.eq_of_pixels {fb fb' : Framebuffer} (h : fb.wf = true) (h' : fb'.wf = true)
    (hw : fb'.width = fb.width) (hh : fb'.height = fb.height)
    (hp : ∀ px py, px < fb.width → py < fb.height → fb'.pixel px py = fb.pixel px py) : fb' = fb := by
  obtain ⟨w, hgt, lit⟩ := fb
  obtain ⟨w', hgt', lit'⟩ := fb'
  simp only at hw hh hp
  subst hw hh
  rw [Framebuffer.wf_iff] at h h'
  simp only at h h'
  congr 1
  refine rising_ext h'.2.2 h.2.2 fun a => ?_
  have conv : ∀ l, (Framebuffer.mk w' hgt' l).pixel (a % w') (a / w') = true ↔ a ∈ l := by
    intro l
    simp [Framebuffer.pixel, Framebuffer.index, Nat.div_add_mod']
  by_cases ha : a < w' * hgt'
  · have := hp (a % w') (a / w') (Nat.mod_lt _ h.1) (Nat.div_lt_of_lt_mul ha)
    rw [← conv lit', ← conv lit, this]
  · exact ⟨fun hm => absurd (lt_of_mem_rising h'.2.2 hm) ha, fun hm => absurd (lt_of_mem_rising h.2.2 hm) ha⟩

/-- Bit `b` of a row falls on the pixel (px, py) of a `w` × `h` framebuffer. -/
def bitHits (w h ox oy row : Nat) (byte : Byte) (px py b : Nat) : Bool :=
  byte.getMsbD b && decide ((ox + b) % w = px) && decide ((oy + row) % h = py)

/-- What drawing one bit does to a pixel: it is inverted where the bit falls on it (R135). -/
theorem drawBit_pixel {ox oy row b : Nat} {byte : Byte} {acc : Framebuffer × Bool} (h : acc.1.wf = true)
    {px py : Nat} (hp : px < acc.1.width) :
    (drawBit ox oy row byte acc b).1.pixel px py =
      (acc.1.pixel px py ^^ bitHits acc.1.width acc.1.height ox oy row byte px py b) := by
  have hw := Framebuffer.wf_iff.mp h
  unfold drawBit bitHits
  by_cases hb : byte.getMsbD b
  · rw [if_pos hb, Framebuffer.pixel_flip h (Nat.mod_lt _ hw.1) hp, hb]
    by_cases h1 : px = (ox + b) % acc.1.width
    · by_cases h2 : py = (oy + row) % acc.1.height
      · simp [← h1, ← h2]
      · simp [h1, h2, eq_comm]
    · simp [h1, eq_comm]
  · rw [if_neg hb]
    simp [hb]

/-- What drawing bits of one row does to a pixel: it is inverted once for each bit that falls on it. -/
theorem drawBits_pixel {ox oy row : Nat} {byte : Byte} {px py : Nat} : ∀ (bits : List Nat) {acc : Framebuffer × Bool}
    (_ : acc.1.wf = true) (_ : px < acc.1.width),
    (bits.foldl (drawBit ox oy row byte) acc).1.pixel px py = (acc.1.pixel px py ^^
      decide ((bits.filter (bitHits acc.1.width acc.1.height ox oy row byte px py)).length % 2 = 1))
  | [], _, _, _ => by simp
  | b :: bits, acc, h, hp => by
    obtain ⟨h1, h2, h3⟩ := drawBit_keeps (ox := ox) (oy := oy) (row := row) (b := b) (byte := byte) h
    rw [List.foldl_cons, drawBits_pixel bits h1 (h2 ▸ hp), drawBit_pixel h hp, h2, h3, List.filter_cons]
    cases bitHits acc.1.width acc.1.height ox oy row byte px py b
    · simp
    · simp only [if_true, List.length_cons, Bool.xor_assoc]
      congr 1
      rcases Nat.mod_two_eq_zero_or_one
        (bits.filter (bitHits acc.1.width acc.1.height ox oy row byte px py)).length with e | e
      · simp [Nat.add_mod, e]
      · simp [Nat.add_mod, e]

end Sys2Proof.Machine
end

