-- ==== Sys2Proof/Laws/Memory.lean ====
section
/-! SUPPORT. The laws of the memory array (20_memory.md R33 to R36, R53): read after write, the rest unchanged, and that
every memory operation keeps the canonical form. -/

namespace Sys2Proof.Machine

open Config

@[simp] theorem Memory.look_nil (a : Nat) : Memory.look [] a = resetByte a := rfl

theorem Memory.look_cons (k a : Nat) (c : Byte) (rest : Memory) :
    Memory.look ((k, c) :: rest) a = if k = a then c else Memory.look rest a := rfl

theorem Memory.wfFrom_cons {lo k : Nat} {c : Byte} {rest : Memory} :
    Memory.wfFrom lo ((k, c) :: rest) = true ↔
      lo ≤ k ∧ k < memSize ∧ c ≠ resetByte k ∧ Memory.wfFrom (k + 1) rest = true := by
  simp [Memory.wfFrom, and_assoc]

theorem Memory.wfFrom_mono {lo lo' : Nat} (h : lo' ≤ lo) : ∀ {m : Memory}, m.wfFrom lo = true → m.wfFrom lo' = true
  | [], _ => rfl
  | (_, _) :: _, hm => by
    rw [Memory.wfFrom_cons] at hm ⊢
    exact ⟨h.trans hm.1, hm.2⟩

/-- Below its first address a canonical memory reads as at reset. -/
theorem Memory.look_below {lo a : Nat} (h : a < lo) : ∀ {m : Memory}, m.wfFrom lo = true → m.look a = resetByte a
  | [], _ => rfl
  | (k, _) :: _, hm => by
    rw [Memory.wfFrom_cons] at hm
    rw [Memory.look_cons, if_neg (by omega)]
    exact Memory.look_below (by omega) hm.2.2.2

theorem Memory.look_put_self {lo a : Nat} (b : Byte) : ∀ {m : Memory}, m.wfFrom lo = true → (m.put a b).look a = b
  | [], _ => by
    by_cases h : b = resetByte a <;> simp [Memory.put, Memory.look, h]
  | (k, c) :: rest, hm => by
    rw [Memory.wfFrom_cons] at hm
    have below : a ≤ k → Memory.look rest a = resetByte a := fun h => Memory.look_below (by omega) hm.2.2.2
    have ih := Memory.look_put_self (a := a) b hm.2.2.2
    rw [Memory.put]
    split_ifs with h1 h2 h3 h4
    · rw [Memory.look_cons, if_neg (by omega), below (by omega), h2]
    · simp [Memory.look_cons]
    · rw [below (by omega), h4]
    · simp [Memory.look_cons]
    · rw [Memory.look_cons, if_neg (by omega), ih]

theorem Memory.look_put_other {a a' : Nat} (h : a' ≠ a) (b : Byte) : ∀ m : Memory, (m.put a b).look a' = m.look a'
  | [] => by
    rw [Memory.put]
    split_ifs with h1
    · rfl
    · rw [Memory.look_cons, if_neg (by omega)]
  | (k, c) :: rest => by
    have ih := Memory.look_put_other h b rest
    rw [Memory.put]
    split_ifs with h1 h2 h3 h4
    · rfl
    · rw [Memory.look_cons, if_neg (by omega)]
    · rw [Memory.look_cons, if_neg (by omega)]
    · rw [Memory.look_cons, Memory.look_cons, if_neg (by omega), if_neg (by omega)]
    · rw [Memory.look_cons, Memory.look_cons, ih]

theorem Memory.wfFrom_put {a lo : Nat} (b : Byte) (ha : a < memSize) (hlo : lo ≤ a) :
    ∀ {m : Memory}, m.wfFrom lo = true → (m.put a b).wfFrom lo = true
  | [], _ => by
    rw [Memory.put]
    split_ifs with h1
    · rfl
    · rw [Memory.wfFrom_cons]
      exact ⟨hlo, ha, h1, rfl⟩
  | (k, c) :: rest, hm => by
    have hm' := hm
    rw [Memory.wfFrom_cons] at hm
    rw [Memory.put]
    split_ifs with h1 h2 h3 h4
    · exact hm'
    · rw [Memory.wfFrom_cons]
      refine ⟨hlo, ha, h2, ?_⟩
      rw [Memory.wfFrom_cons]
      exact ⟨h1, hm.2⟩
    · exact Memory.wfFrom_mono (by omega) hm.2.2.2
    · rw [Memory.wfFrom_cons]
      exact ⟨hlo, ha, h4, h3 ▸ hm.2.2.2⟩
    · rw [Memory.wfFrom_cons]
      exact ⟨hm.1, hm.2.1, hm.2.2.1, Memory.wfFrom_put b ha (by omega) hm.2.2.2⟩

/-- A write keeps the canonical form. -/
theorem Memory.wf_put {m : Memory} {a : Nat} (b : Byte) (ha : a < memSize) (hm : m.wf = true) : (m.put a b).wf = true :=
  Memory.wfFrom_put b ha (Nat.zero_le _) hm

/-- What a write answers: the byte put at an index in range. -/
theorem Memory.write_eq_some {m m' : Memory} {a : Nat} {b : Byte} :
    m.write a b = some m' ↔ a < memSize ∧ m' = m.put a b := by
  unfold Memory.write
  split_ifs with h <;> simp [h, eq_comm]

theorem Memory.write_of_lt {m : Memory} {a : Nat} (b : Byte) (h : a < memSize) : m.write a b = some (m.put a b) := by
  simp [Memory.write, h]

theorem Memory.write_of_ge {m : Memory} {a : Nat} (b : Byte) (h : memSize ≤ a) : m.write a b = none := by
  simp [Memory.write, Nat.not_lt.mpr h]

theorem Memory.read_of_lt {m : Memory} {a : Nat} (h : a < memSize) : m.read a = some (m.look a) := by
  simp [Memory.read, h]

theorem Memory.read_of_ge {m : Memory} {a : Nat} (h : memSize ≤ a) : m.read a = none := by
  simp [Memory.read, Nat.not_lt.mpr h]

theorem Memory.read_put {m : Memory} {a : Nat} (b : Byte) (ha : a < memSize) (hm : m.wf = true) (c : Nat) :
    (m.put a b).read c = if c = a then some b else m.read c := by
  by_cases h : c = a
  · subst h
    simp [Memory.read, ha, Memory.look_put_self b hm]
  · simp [Memory.read, h, Memory.look_put_other h]

/-- A write keeps the canonical form, over lists of bytes in range. -/
theorem Memory.wf_putAll : ∀ {bs : List Byte} {m : Memory} {a : Nat}, a + bs.length ≤ memSize → m.wf = true →
    (m.putAll a bs).wf = true
  | [], _, _, _, hm => hm
  | b :: bs, _, _, ha, hm =>
    Memory.wf_putAll (bs := bs) (by simp only [List.length_cons] at ha; omega)
      (Memory.wf_put b (by simp only [List.length_cons] at ha; omega) hm)

/-- After bytes are put from `a`, each of their addresses reads its byte and every other address reads as before. -/
theorem Memory.look_putAll : ∀ {bs : List Byte} {m : Memory} {a : Nat} (_ : a + bs.length ≤ memSize) (_ : m.wf = true)
    (c : Nat), (m.putAll a bs).look c = if a ≤ c ∧ c < a + bs.length then bs.getD (c - a) 0 else m.look c
  | [], m, a, _, _, c => by
    simp [Memory.putAll]
  | b :: bs, m, a, ha, hm, c => by
    simp only [List.length_cons] at ha ⊢
    rw [Memory.putAll, Memory.look_putAll (bs := bs) (by omega) (Memory.wf_put b (by omega) hm) c]
    by_cases h1 : c = a
    · subst h1
      rw [if_neg (by omega), if_pos (by omega), Memory.look_put_self b hm]
      simp
    · rw [Memory.look_put_other h1]
      by_cases h2 : a + 1 ≤ c ∧ c < a + 1 + bs.length
      · rw [if_pos h2, if_pos (by omega)]
        have : c - a = (c - (a + 1)) + 1 := by omega
        simp [this]
      · rw [if_neg h2, if_neg (by omega)]

/-- After bytes are put from `a`, a read gives the byte put there, and every other read is as before. -/
theorem Memory.read_putAll {m : Memory} {a : Nat} {bs : List Byte} (h : a + bs.length ≤ memSize) (hm : m.wf = true)
    (c : Nat) :
    (m.putAll a bs).read c = if a ≤ c ∧ c < a + bs.length then some (bs.getD (c - a) 0) else m.read c := by
  unfold Memory.read
  rw [Memory.look_putAll h hm]
  by_cases h1 : a ≤ c ∧ c < a + bs.length
  · rw [if_pos h1, if_pos h1, if_pos (by omega)]
  · rw [if_neg h1, if_neg h1]

/-- Reset memory under the glyph rows `g`: those bytes at 0x005 to 0x04F, and the default reset contents elsewhere. -/
theorem read_resetMemory (g : GlyphRows) (c : Nat) :
    (resetMemory g).read c = if 5 ≤ c ∧ c < 80 then some (g.toList.getD (c - 5) 0) else Memory.read [] c := by
  have h := Memory.read_putAll (m := []) (a := glyphZero.length) (bs := g.toList) (by simp [glyphZero, memSize]) rfl c
  rw [Vector.length_toList] at h
  exact h

theorem wf_resetMemory (g : GlyphRows) : (resetMemory g).wf = true :=
  Memory.wf_putAll (by simp [glyphZero, memSize]) rfl

/-- Canonical memories that look alike from `lo` up are equal. -/
theorem Memory.eq_of_look {lo : Nat} : ∀ {m m' : Memory}, m.wfFrom lo = true → m'.wfFrom lo = true →
    (∀ a, lo ≤ a → m.look a = m'.look a) → m = m'
  | [], [], _, _, _ => rfl
  | [], (k, c) :: rest, _, h', h => by
    rw [Memory.wfFrom_cons] at h'
    have := h k h'.1
    simp [Memory.look_cons] at this
    exact absurd this.symm h'.2.2.1
  | (k, c) :: rest, [], h, _, hl => by
    rw [Memory.wfFrom_cons] at h
    have := hl k h.1
    simp [Memory.look_cons] at this
    exact absurd this h.2.2.1
  | (k, c) :: rest, (k', c') :: rest', h, h', hl => by
    have hw := h
    have hw' := h'
    rw [Memory.wfFrom_cons] at h h'
    have hk : k = k' := by
      rcases Nat.lt_trichotomy k k' with hlt | heq | hgt
      · have e := hl k h.1
        rw [Memory.look_cons, if_pos rfl, Memory.look_cons, if_neg (by omega),
          Memory.look_below (by omega) h'.2.2.2] at e
        exact absurd e h.2.2.1
      · exact heq
      · have e := hl k' h'.1
        rw [Memory.look_cons, if_neg (by omega), Memory.look_below (by omega) h.2.2.2, Memory.look_cons, if_pos rfl] at e
        exact absurd e.symm h'.2.2.1
    subst hk
    have hc : c = c' := by simpa [Memory.look_cons] using hl k h.1
    subst hc
    have hr : rest = rest' := Memory.eq_of_look h.2.2.2 h'.2.2.2 fun a ha => by
      have e := hl a (by omega)
      rwa [Memory.look_cons, if_neg (by omega), Memory.look_cons, if_neg (by omega)] at e
    rw [hr]

/-- A canonical memory looks like reset outside the address space. -/
theorem Memory.look_above {lo a : Nat} (h : memSize ≤ a) : ∀ {m : Memory}, m.wfFrom lo = true → m.look a = resetByte a
  | [], _ => rfl
  | (k, _) :: _, hm => by
    rw [Memory.wfFrom_cons] at hm
    rw [Memory.look_cons, if_neg (by omega)]
    exact Memory.look_above h hm.2.2.2

end Sys2Proof.Machine
end

