-- ==== Sys2Proof/Laws/State.lean ====
section
/-! SUPPORT. One lemma per field and per update of State, so that no later proof unfolds a record update. -/

namespace Sys2Proof.Machine

/-! ### setV -/

@[simp] theorem State.setV_getV (s : State) (r : Reg) (b : Byte) (q : Reg) : (s.setV r b).getV q = if q = r then b else s.getV q := by
  simp [State.getV, State.setV, Vector.getElem_set, Fin.ext_iff, eq_comm]
@[simp] theorem State.setV_i (s : State) (r : Reg) (b : Byte) : (s.setV r b).i = s.i := rfl
@[simp] theorem State.setV_pc (s : State) (r : Reg) (b : Byte) : (s.setV r b).pc = s.pc := rfl
@[simp] theorem State.setV_sp (s : State) (r : Reg) (b : Byte) : (s.setV r b).sp = s.sp := rfl
@[simp] theorem State.setV_slot (s : State) (r : Reg) (b : Byte) (j : Fin 16) : (s.setV r b).slot j = s.slot j := rfl
@[simp] theorem State.setV_dt (s : State) (r : Reg) (b : Byte) : (s.setV r b).dt = s.dt := rfl
@[simp] theorem State.setV_st (s : State) (r : Reg) (b : Byte) : (s.setV r b).st = s.st := rfl
@[simp] theorem State.setV_status (s : State) (r : Reg) (b : Byte) : (s.setV r b).status = s.status := rfl
@[simp] theorem State.setV_mem (s : State) (r : Reg) (b : Byte) : (s.setV r b).mem = s.mem := rfl
@[simp] theorem State.setV_fb (s : State) (r : Reg) (b : Byte) : (s.setV r b).fb = s.fb := rfl
@[simp] theorem State.setV_isDown (s : State) (r : Reg) (b : Byte) (q : Key) : (s.setV r b).isDown q = s.isDown q := rfl
@[simp] theorem State.setV_host (s : State) (r : Reg) (b : Byte) : (s.setV r b).host = s.host := rfl
@[simp] theorem State.setV_draws (s : State) (r : Reg) (b : Byte) : (s.setV r b).draws = s.draws := rfl
@[simp] theorem State.setV_loaded (s : State) (r : Reg) (b : Byte) : (s.setV r b).loaded = s.loaded := rfl

/-! ### setI -/

@[simp] theorem State.setI_getV (s : State) (w : Word) (q : Reg) : (s.setI w).getV q = s.getV q := rfl
@[simp] theorem State.setI_i (s : State) (w : Word) : (s.setI w).i = w := rfl
@[simp] theorem State.setI_pc (s : State) (w : Word) : (s.setI w).pc = s.pc := rfl
@[simp] theorem State.setI_sp (s : State) (w : Word) : (s.setI w).sp = s.sp := rfl
@[simp] theorem State.setI_slot (s : State) (w : Word) (j : Fin 16) : (s.setI w).slot j = s.slot j := rfl
@[simp] theorem State.setI_dt (s : State) (w : Word) : (s.setI w).dt = s.dt := rfl
@[simp] theorem State.setI_st (s : State) (w : Word) : (s.setI w).st = s.st := rfl
@[simp] theorem State.setI_status (s : State) (w : Word) : (s.setI w).status = s.status := rfl
@[simp] theorem State.setI_mem (s : State) (w : Word) : (s.setI w).mem = s.mem := rfl
@[simp] theorem State.setI_fb (s : State) (w : Word) : (s.setI w).fb = s.fb := rfl
@[simp] theorem State.setI_isDown (s : State) (w : Word) (q : Key) : (s.setI w).isDown q = s.isDown q := rfl
@[simp] theorem State.setI_host (s : State) (w : Word) : (s.setI w).host = s.host := rfl
@[simp] theorem State.setI_draws (s : State) (w : Word) : (s.setI w).draws = s.draws := rfl
@[simp] theorem State.setI_loaded (s : State) (w : Word) : (s.setI w).loaded = s.loaded := rfl

/-! ### setPc -/

@[simp] theorem State.setPc_getV (s : State) (w : Word) (q : Reg) : (s.setPc w).getV q = s.getV q := rfl
@[simp] theorem State.setPc_i (s : State) (w : Word) : (s.setPc w).i = s.i := rfl
@[simp] theorem State.setPc_pc (s : State) (w : Word) : (s.setPc w).pc = w := rfl
@[simp] theorem State.setPc_sp (s : State) (w : Word) : (s.setPc w).sp = s.sp := rfl
@[simp] theorem State.setPc_slot (s : State) (w : Word) (j : Fin 16) : (s.setPc w).slot j = s.slot j := rfl
@[simp] theorem State.setPc_dt (s : State) (w : Word) : (s.setPc w).dt = s.dt := rfl
@[simp] theorem State.setPc_st (s : State) (w : Word) : (s.setPc w).st = s.st := rfl
@[simp] theorem State.setPc_status (s : State) (w : Word) : (s.setPc w).status = s.status := rfl
@[simp] theorem State.setPc_mem (s : State) (w : Word) : (s.setPc w).mem = s.mem := rfl
@[simp] theorem State.setPc_fb (s : State) (w : Word) : (s.setPc w).fb = s.fb := rfl
@[simp] theorem State.setPc_isDown (s : State) (w : Word) (q : Key) : (s.setPc w).isDown q = s.isDown q := rfl
@[simp] theorem State.setPc_host (s : State) (w : Word) : (s.setPc w).host = s.host := rfl
@[simp] theorem State.setPc_draws (s : State) (w : Word) : (s.setPc w).draws = s.draws := rfl
@[simp] theorem State.setPc_loaded (s : State) (w : Word) : (s.setPc w).loaded = s.loaded := rfl

/-! ### setSp -/

@[simp] theorem State.setSp_getV (s : State) (b : Byte) (q : Reg) : (s.setSp b).getV q = s.getV q := rfl
@[simp] theorem State.setSp_i (s : State) (b : Byte) : (s.setSp b).i = s.i := rfl
@[simp] theorem State.setSp_pc (s : State) (b : Byte) : (s.setSp b).pc = s.pc := rfl
@[simp] theorem State.setSp_sp (s : State) (b : Byte) : (s.setSp b).sp = b := rfl
@[simp] theorem State.setSp_slot (s : State) (b : Byte) (j : Fin 16) : (s.setSp b).slot j = s.slot j := rfl
@[simp] theorem State.setSp_dt (s : State) (b : Byte) : (s.setSp b).dt = s.dt := rfl
@[simp] theorem State.setSp_st (s : State) (b : Byte) : (s.setSp b).st = s.st := rfl
@[simp] theorem State.setSp_status (s : State) (b : Byte) : (s.setSp b).status = s.status := rfl
@[simp] theorem State.setSp_mem (s : State) (b : Byte) : (s.setSp b).mem = s.mem := rfl
@[simp] theorem State.setSp_fb (s : State) (b : Byte) : (s.setSp b).fb = s.fb := rfl
@[simp] theorem State.setSp_isDown (s : State) (b : Byte) (q : Key) : (s.setSp b).isDown q = s.isDown q := rfl
@[simp] theorem State.setSp_host (s : State) (b : Byte) : (s.setSp b).host = s.host := rfl
@[simp] theorem State.setSp_draws (s : State) (b : Byte) : (s.setSp b).draws = s.draws := rfl
@[simp] theorem State.setSp_loaded (s : State) (b : Byte) : (s.setSp b).loaded = s.loaded := rfl

/-! ### setDt -/

@[simp] theorem State.setDt_getV (s : State) (b : Byte) (q : Reg) : (s.setDt b).getV q = s.getV q := rfl
@[simp] theorem State.setDt_i (s : State) (b : Byte) : (s.setDt b).i = s.i := rfl
@[simp] theorem State.setDt_pc (s : State) (b : Byte) : (s.setDt b).pc = s.pc := rfl
@[simp] theorem State.setDt_sp (s : State) (b : Byte) : (s.setDt b).sp = s.sp := rfl
@[simp] theorem State.setDt_slot (s : State) (b : Byte) (j : Fin 16) : (s.setDt b).slot j = s.slot j := rfl
@[simp] theorem State.setDt_dt (s : State) (b : Byte) : (s.setDt b).dt = b := rfl
@[simp] theorem State.setDt_st (s : State) (b : Byte) : (s.setDt b).st = s.st := rfl
@[simp] theorem State.setDt_status (s : State) (b : Byte) : (s.setDt b).status = s.status := rfl
@[simp] theorem State.setDt_mem (s : State) (b : Byte) : (s.setDt b).mem = s.mem := rfl
@[simp] theorem State.setDt_fb (s : State) (b : Byte) : (s.setDt b).fb = s.fb := rfl
@[simp] theorem State.setDt_isDown (s : State) (b : Byte) (q : Key) : (s.setDt b).isDown q = s.isDown q := rfl
@[simp] theorem State.setDt_host (s : State) (b : Byte) : (s.setDt b).host = s.host := rfl
@[simp] theorem State.setDt_draws (s : State) (b : Byte) : (s.setDt b).draws = s.draws := rfl
@[simp] theorem State.setDt_loaded (s : State) (b : Byte) : (s.setDt b).loaded = s.loaded := rfl

/-! ### setSt -/

@[simp] theorem State.setSt_getV (s : State) (b : Byte) (q : Reg) : (s.setSt b).getV q = s.getV q := rfl
@[simp] theorem State.setSt_i (s : State) (b : Byte) : (s.setSt b).i = s.i := rfl
@[simp] theorem State.setSt_pc (s : State) (b : Byte) : (s.setSt b).pc = s.pc := rfl
@[simp] theorem State.setSt_sp (s : State) (b : Byte) : (s.setSt b).sp = s.sp := rfl
@[simp] theorem State.setSt_slot (s : State) (b : Byte) (j : Fin 16) : (s.setSt b).slot j = s.slot j := rfl
@[simp] theorem State.setSt_dt (s : State) (b : Byte) : (s.setSt b).dt = s.dt := rfl
@[simp] theorem State.setSt_st (s : State) (b : Byte) : (s.setSt b).st = b := rfl
@[simp] theorem State.setSt_status (s : State) (b : Byte) : (s.setSt b).status = s.status := rfl
@[simp] theorem State.setSt_mem (s : State) (b : Byte) : (s.setSt b).mem = s.mem := rfl
@[simp] theorem State.setSt_fb (s : State) (b : Byte) : (s.setSt b).fb = s.fb := rfl
@[simp] theorem State.setSt_isDown (s : State) (b : Byte) (q : Key) : (s.setSt b).isDown q = s.isDown q := rfl
@[simp] theorem State.setSt_host (s : State) (b : Byte) : (s.setSt b).host = s.host := rfl
@[simp] theorem State.setSt_draws (s : State) (b : Byte) : (s.setSt b).draws = s.draws := rfl
@[simp] theorem State.setSt_loaded (s : State) (b : Byte) : (s.setSt b).loaded = s.loaded := rfl

/-! ### setStatus -/

@[simp] theorem State.setStatus_getV (s : State) (u : Status) (q : Reg) : (s.setStatus u).getV q = s.getV q := rfl
@[simp] theorem State.setStatus_i (s : State) (u : Status) : (s.setStatus u).i = s.i := rfl
@[simp] theorem State.setStatus_pc (s : State) (u : Status) : (s.setStatus u).pc = s.pc := rfl
@[simp] theorem State.setStatus_sp (s : State) (u : Status) : (s.setStatus u).sp = s.sp := rfl
@[simp] theorem State.setStatus_slot (s : State) (u : Status) (j : Fin 16) : (s.setStatus u).slot j = s.slot j := rfl
@[simp] theorem State.setStatus_dt (s : State) (u : Status) : (s.setStatus u).dt = s.dt := rfl
@[simp] theorem State.setStatus_st (s : State) (u : Status) : (s.setStatus u).st = s.st := rfl
@[simp] theorem State.setStatus_status (s : State) (u : Status) : (s.setStatus u).status = u := rfl
@[simp] theorem State.setStatus_mem (s : State) (u : Status) : (s.setStatus u).mem = s.mem := rfl
@[simp] theorem State.setStatus_fb (s : State) (u : Status) : (s.setStatus u).fb = s.fb := rfl
@[simp] theorem State.setStatus_isDown (s : State) (u : Status) (q : Key) : (s.setStatus u).isDown q = s.isDown q := rfl
@[simp] theorem State.setStatus_host (s : State) (u : Status) : (s.setStatus u).host = s.host := rfl
@[simp] theorem State.setStatus_draws (s : State) (u : Status) : (s.setStatus u).draws = s.draws := rfl
@[simp] theorem State.setStatus_loaded (s : State) (u : Status) : (s.setStatus u).loaded = s.loaded := rfl

/-! ### setSlot -/

@[simp] theorem State.setSlot_getV (s : State) (k : Fin 16) (w : Word) (q : Reg) : (s.setSlot k w).getV q = s.getV q := rfl
@[simp] theorem State.setSlot_i (s : State) (k : Fin 16) (w : Word) : (s.setSlot k w).i = s.i := rfl
@[simp] theorem State.setSlot_pc (s : State) (k : Fin 16) (w : Word) : (s.setSlot k w).pc = s.pc := rfl
@[simp] theorem State.setSlot_sp (s : State) (k : Fin 16) (w : Word) : (s.setSlot k w).sp = s.sp := rfl
@[simp] theorem State.setSlot_slot (s : State) (k : Fin 16) (w : Word) (j : Fin 16) : (s.setSlot k w).slot j = if j = k then w else s.slot j := by
  simp [State.slot, State.setSlot, Vector.getElem_set, Fin.ext_iff, eq_comm]
@[simp] theorem State.setSlot_dt (s : State) (k : Fin 16) (w : Word) : (s.setSlot k w).dt = s.dt := rfl
@[simp] theorem State.setSlot_st (s : State) (k : Fin 16) (w : Word) : (s.setSlot k w).st = s.st := rfl
@[simp] theorem State.setSlot_status (s : State) (k : Fin 16) (w : Word) : (s.setSlot k w).status = s.status := rfl
@[simp] theorem State.setSlot_mem (s : State) (k : Fin 16) (w : Word) : (s.setSlot k w).mem = s.mem := rfl
@[simp] theorem State.setSlot_fb (s : State) (k : Fin 16) (w : Word) : (s.setSlot k w).fb = s.fb := rfl
@[simp] theorem State.setSlot_isDown (s : State) (k : Fin 16) (w : Word) (q : Key) : (s.setSlot k w).isDown q = s.isDown q := rfl
@[simp] theorem State.setSlot_host (s : State) (k : Fin 16) (w : Word) : (s.setSlot k w).host = s.host := rfl
@[simp] theorem State.setSlot_draws (s : State) (k : Fin 16) (w : Word) : (s.setSlot k w).draws = s.draws := rfl
@[simp] theorem State.setSlot_loaded (s : State) (k : Fin 16) (w : Word) : (s.setSlot k w).loaded = s.loaded := rfl

/-! ### setMem -/

@[simp] theorem State.setMem_getV (s : State) (m : Memory) (q : Reg) : (s.setMem m).getV q = s.getV q := rfl
@[simp] theorem State.setMem_i (s : State) (m : Memory) : (s.setMem m).i = s.i := rfl
@[simp] theorem State.setMem_pc (s : State) (m : Memory) : (s.setMem m).pc = s.pc := rfl
@[simp] theorem State.setMem_sp (s : State) (m : Memory) : (s.setMem m).sp = s.sp := rfl
@[simp] theorem State.setMem_slot (s : State) (m : Memory) (j : Fin 16) : (s.setMem m).slot j = s.slot j := rfl
@[simp] theorem State.setMem_dt (s : State) (m : Memory) : (s.setMem m).dt = s.dt := rfl
@[simp] theorem State.setMem_st (s : State) (m : Memory) : (s.setMem m).st = s.st := rfl
@[simp] theorem State.setMem_status (s : State) (m : Memory) : (s.setMem m).status = s.status := rfl
@[simp] theorem State.setMem_mem (s : State) (m : Memory) : (s.setMem m).mem = m := rfl
@[simp] theorem State.setMem_fb (s : State) (m : Memory) : (s.setMem m).fb = s.fb := rfl
@[simp] theorem State.setMem_isDown (s : State) (m : Memory) (q : Key) : (s.setMem m).isDown q = s.isDown q := rfl
@[simp] theorem State.setMem_host (s : State) (m : Memory) : (s.setMem m).host = s.host := rfl
@[simp] theorem State.setMem_draws (s : State) (m : Memory) : (s.setMem m).draws = s.draws := rfl
@[simp] theorem State.setMem_loaded (s : State) (m : Memory) : (s.setMem m).loaded = s.loaded := rfl

/-! ### setFb -/

@[simp] theorem State.setFb_getV (s : State) (d : Framebuffer) (q : Reg) : (s.setFb d).getV q = s.getV q := rfl
@[simp] theorem State.setFb_i (s : State) (d : Framebuffer) : (s.setFb d).i = s.i := rfl
@[simp] theorem State.setFb_pc (s : State) (d : Framebuffer) : (s.setFb d).pc = s.pc := rfl
@[simp] theorem State.setFb_sp (s : State) (d : Framebuffer) : (s.setFb d).sp = s.sp := rfl
@[simp] theorem State.setFb_slot (s : State) (d : Framebuffer) (j : Fin 16) : (s.setFb d).slot j = s.slot j := rfl
@[simp] theorem State.setFb_dt (s : State) (d : Framebuffer) : (s.setFb d).dt = s.dt := rfl
@[simp] theorem State.setFb_st (s : State) (d : Framebuffer) : (s.setFb d).st = s.st := rfl
@[simp] theorem State.setFb_status (s : State) (d : Framebuffer) : (s.setFb d).status = s.status := rfl
@[simp] theorem State.setFb_mem (s : State) (d : Framebuffer) : (s.setFb d).mem = s.mem := rfl
@[simp] theorem State.setFb_fb (s : State) (d : Framebuffer) : (s.setFb d).fb = d := rfl
@[simp] theorem State.setFb_isDown (s : State) (d : Framebuffer) (q : Key) : (s.setFb d).isDown q = s.isDown q := rfl
@[simp] theorem State.setFb_host (s : State) (d : Framebuffer) : (s.setFb d).host = s.host := rfl
@[simp] theorem State.setFb_draws (s : State) (d : Framebuffer) : (s.setFb d).draws = s.draws := rfl
@[simp] theorem State.setFb_loaded (s : State) (d : Framebuffer) : (s.setFb d).loaded = s.loaded := rfl

/-! ### setKey -/

@[simp] theorem State.setKey_getV (s : State) (k : Key) (b : Bool) (q : Reg) : (s.setKey k b).getV q = s.getV q := rfl
@[simp] theorem State.setKey_i (s : State) (k : Key) (b : Bool) : (s.setKey k b).i = s.i := rfl
@[simp] theorem State.setKey_pc (s : State) (k : Key) (b : Bool) : (s.setKey k b).pc = s.pc := rfl
@[simp] theorem State.setKey_sp (s : State) (k : Key) (b : Bool) : (s.setKey k b).sp = s.sp := rfl
@[simp] theorem State.setKey_slot (s : State) (k : Key) (b : Bool) (j : Fin 16) : (s.setKey k b).slot j = s.slot j := rfl
@[simp] theorem State.setKey_dt (s : State) (k : Key) (b : Bool) : (s.setKey k b).dt = s.dt := rfl
@[simp] theorem State.setKey_st (s : State) (k : Key) (b : Bool) : (s.setKey k b).st = s.st := rfl
@[simp] theorem State.setKey_status (s : State) (k : Key) (b : Bool) : (s.setKey k b).status = s.status := rfl
@[simp] theorem State.setKey_mem (s : State) (k : Key) (b : Bool) : (s.setKey k b).mem = s.mem := rfl
@[simp] theorem State.setKey_fb (s : State) (k : Key) (b : Bool) : (s.setKey k b).fb = s.fb := rfl
@[simp] theorem State.setKey_isDown (s : State) (k : Key) (b : Bool) (q : Key) : (s.setKey k b).isDown q = if q = k then b else s.isDown q := by
  simp [State.isDown, State.setKey, Vector.getElem_set, Fin.ext_iff, eq_comm]
@[simp] theorem State.setKey_host (s : State) (k : Key) (b : Bool) : (s.setKey k b).host = s.host := rfl
@[simp] theorem State.setKey_draws (s : State) (k : Key) (b : Bool) : (s.setKey k b).draws = s.draws := rfl
@[simp] theorem State.setKey_loaded (s : State) (k : Key) (b : Bool) : (s.setKey k b).loaded = s.loaded := rfl

/-! ### setHost -/

@[simp] theorem State.setHost_getV (s : State) (h : List HostAction) (q : Reg) : (s.setHost h).getV q = s.getV q := rfl
@[simp] theorem State.setHost_i (s : State) (h : List HostAction) : (s.setHost h).i = s.i := rfl
@[simp] theorem State.setHost_pc (s : State) (h : List HostAction) : (s.setHost h).pc = s.pc := rfl
@[simp] theorem State.setHost_sp (s : State) (h : List HostAction) : (s.setHost h).sp = s.sp := rfl
@[simp] theorem State.setHost_slot (s : State) (h : List HostAction) (j : Fin 16) : (s.setHost h).slot j = s.slot j := rfl
@[simp] theorem State.setHost_dt (s : State) (h : List HostAction) : (s.setHost h).dt = s.dt := rfl
@[simp] theorem State.setHost_st (s : State) (h : List HostAction) : (s.setHost h).st = s.st := rfl
@[simp] theorem State.setHost_status (s : State) (h : List HostAction) : (s.setHost h).status = s.status := rfl
@[simp] theorem State.setHost_mem (s : State) (h : List HostAction) : (s.setHost h).mem = s.mem := rfl
@[simp] theorem State.setHost_fb (s : State) (h : List HostAction) : (s.setHost h).fb = s.fb := rfl
@[simp] theorem State.setHost_isDown (s : State) (h : List HostAction) (q : Key) : (s.setHost h).isDown q = s.isDown q := rfl
@[simp] theorem State.setHost_host (s : State) (h : List HostAction) : (s.setHost h).host = h := rfl
@[simp] theorem State.setHost_draws (s : State) (h : List HostAction) : (s.setHost h).draws = s.draws := rfl
@[simp] theorem State.setHost_loaded (s : State) (h : List HostAction) : (s.setHost h).loaded = s.loaded := rfl

/-! ### countDraw -/

@[simp] theorem State.countDraw_getV (s : State) (q : Reg) : (s.countDraw).getV q = s.getV q := rfl
@[simp] theorem State.countDraw_i (s : State) : (s.countDraw).i = s.i := rfl
@[simp] theorem State.countDraw_pc (s : State) : (s.countDraw).pc = s.pc := rfl
@[simp] theorem State.countDraw_sp (s : State) : (s.countDraw).sp = s.sp := rfl
@[simp] theorem State.countDraw_slot (s : State) (j : Fin 16) : (s.countDraw).slot j = s.slot j := rfl
@[simp] theorem State.countDraw_dt (s : State) : (s.countDraw).dt = s.dt := rfl
@[simp] theorem State.countDraw_st (s : State) : (s.countDraw).st = s.st := rfl
@[simp] theorem State.countDraw_status (s : State) : (s.countDraw).status = s.status := rfl
@[simp] theorem State.countDraw_mem (s : State) : (s.countDraw).mem = s.mem := rfl
@[simp] theorem State.countDraw_fb (s : State) : (s.countDraw).fb = s.fb := rfl
@[simp] theorem State.countDraw_isDown (s : State) (q : Key) : (s.countDraw).isDown q = s.isDown q := rfl
@[simp] theorem State.countDraw_host (s : State) : (s.countDraw).host = s.host := rfl
@[simp] theorem State.countDraw_draws (s : State) : (s.countDraw).draws = s.draws + 1 := rfl
@[simp] theorem State.countDraw_loaded (s : State) : (s.countDraw).loaded = s.loaded := rfl

/-! ### setLoaded -/

@[simp] theorem State.setLoaded_getV (s : State) (b : Bool) (q : Reg) : (s.setLoaded b).getV q = s.getV q := rfl
@[simp] theorem State.setLoaded_i (s : State) (b : Bool) : (s.setLoaded b).i = s.i := rfl
@[simp] theorem State.setLoaded_pc (s : State) (b : Bool) : (s.setLoaded b).pc = s.pc := rfl
@[simp] theorem State.setLoaded_sp (s : State) (b : Bool) : (s.setLoaded b).sp = s.sp := rfl
@[simp] theorem State.setLoaded_slot (s : State) (b : Bool) (j : Fin 16) : (s.setLoaded b).slot j = s.slot j := rfl
@[simp] theorem State.setLoaded_dt (s : State) (b : Bool) : (s.setLoaded b).dt = s.dt := rfl
@[simp] theorem State.setLoaded_st (s : State) (b : Bool) : (s.setLoaded b).st = s.st := rfl
@[simp] theorem State.setLoaded_status (s : State) (b : Bool) : (s.setLoaded b).status = s.status := rfl
@[simp] theorem State.setLoaded_mem (s : State) (b : Bool) : (s.setLoaded b).mem = s.mem := rfl
@[simp] theorem State.setLoaded_fb (s : State) (b : Bool) : (s.setLoaded b).fb = s.fb := rfl
@[simp] theorem State.setLoaded_isDown (s : State) (b : Bool) (q : Key) : (s.setLoaded b).isDown q = s.isDown q := rfl
@[simp] theorem State.setLoaded_host (s : State) (b : Bool) : (s.setLoaded b).host = s.host := rfl
@[simp] theorem State.setLoaded_draws (s : State) (b : Bool) : (s.setLoaded b).draws = s.draws := rfl
@[simp] theorem State.setLoaded_loaded (s : State) (b : Bool) : (s.setLoaded b).loaded = b := rfl

/-! ### Program load and reset -/

@[simp] theorem State.loadImage_mem (s : State) (image : List Byte) : (s.loadImage image).mem = s.mem.putAll 0x200 image := rfl
@[simp] theorem State.loadImage_pc (s : State) (image : List Byte) : (s.loadImage image).pc = 0x200 := rfl
@[simp] theorem State.loadImage_loaded (s : State) (image : List Byte) : (s.loadImage image).loaded = true := rfl
@[simp] theorem State.loadImage_status (s : State) (image : List Byte) : (s.loadImage image).status = s.status := rfl
@[simp] theorem State.loadImage_host (s : State) (image : List Byte) : (s.loadImage image).host = s.host := rfl
@[simp] theorem State.resetWith_mem (g : Config.GlyphRows) : (State.resetWith g).mem = resetMemory g := rfl

/-! ### Derived updates -/

theorem State.skip_eq (s : State) : s.skip = s.setPc (s.pc + 2) := rfl

theorem State.skipIf_eq (s : State) (c : Bool) : s.skipIf c = s.setPc (if c then s.pc + 2 else s.pc) := by
  cases c <;> rfl

theorem State.tick_eq (s : State) : s.tick = (s.setDt (countDown s.dt)).setSt (countDown s.st) := rfl

theorem State.setPc_self (s : State) : s.setPc s.pc = s := rfl

theorem State.setV_eq_of_getV (s : State) (r : Reg) : s.setV r (s.getV r) = s := by
  simp [State.setV, State.getV]

/-- Two states with the same observables are the same state. -/
theorem State.ext_obs (s t : State) (hm : t.mem = s.mem) (hv : ∀ r, t.getV r = s.getV r) (hi : t.i = s.i) (hp : t.pc = s.pc)
    (hs : t.sp = s.sp) (hk : ∀ j, t.slot j = s.slot j) (hd : t.dt = s.dt) (ht : t.st = s.st) (hu : t.status = s.status)
    (hf : t.fb = s.fb) (hq : ∀ k, t.isDown k = s.isDown k) (hh : t.host = s.host) (hr : t.draws = s.draws)
    (hl : t.loaded = s.loaded) : t = s := by
  obtain ⟨m, v, i, pc, sp, stack, dt, st, status, fb, keys, host, draws, loaded⟩ := s
  obtain ⟨m', v', i', pc', sp', stack', dt', st', status', fb', keys', host', draws', loaded'⟩ := t
  simp only [State.getV, State.slot, State.isDown] at *
  subst hm hi hp hs hd ht hu hf hh hr hl
  have h1 : v' = v := Vector.ext fun n hn => hv ⟨n, hn⟩
  have h2 : stack' = stack := Vector.ext fun n hn => hk ⟨n, hn⟩
  have h3 : keys' = keys := Vector.ext fun n hn => hq ⟨n, hn⟩
  subst h1 h2 h3
  rfl

end Sys2Proof.Machine
end

