-- ==== Sys2Proof/Laws/Ops.lean ====
section
/-! SUPPORT. One lemma per shared operation, saying everything it can do: the call stack (10_state.md R19, R20), stores,
loads and row reads over consecutive addresses (20_memory.md R42), key numbers and the fault entry. -/

namespace Sys2Proof.Machine

open Config

@[simp] theorem memSize_eq : memSize = 4096 := rfl

@[simp] theorem programBase_eq : programBase = 0x200 := rfl

@[simp] theorem takeFault_eq (f : Fault) (s : State) : takeFault f s = .next (s.setStatus (.faulted f)) := rfl

@[simp] theorem Attempt.finish_done (s : State) : (Attempt.done s).finish = .next s := rfl

@[simp] theorem Attempt.finish_raised (f : Fault) (s : State) :
    (Attempt.raised f s).finish = .next (s.setStatus (.faulted f)) := rfl

@[simp] theorem Attempt.andThen_done (s : State) (k : State → Attempt) : (Attempt.done s).andThen k = k s := rfl

@[simp] theorem Attempt.andThen_raised (f : Fault) (s : State) (k : State → Attempt) :
    (Attempt.raised f s).andThen k = .raised f s := rfl

/-! ## The call stack -/

theorem stackIndex_of_val {sp : Byte} {j : Fin 16} (h : j.val = sp.toNat) : stackIndex sp = some j := by
  have hlt : sp.toNat < 16 := h ▸ j.isLt
  rw [stackIndex, dif_pos hlt]
  exact congrArg some (Fin.ext h.symm)

theorem stackIndex_of_ge {sp : Byte} (h : 16 ≤ sp.toNat) : stackIndex sp = none := by
  rw [stackIndex, dif_neg (Nat.not_lt.mpr h)]

theorem State.push_of_val {s : State} {j : Fin 16} (h : j.val = (s.sp + 1).toNat) (a : Word) :
    s.push a = .done ((s.setSp (s.sp + 1)).setSlot j a) := by
  rw [State.push, stackIndex_of_val h]

theorem State.push_of_ge {s : State} (h : 16 ≤ (s.sp + 1).toNat) (a : Word) :
    s.push a = .raised (.stackRange (s.sp + 1)) (s.setSp (s.sp + 1)) := by
  rw [State.push, stackIndex_of_ge h]

theorem State.pop_of_val {s : State} {j : Fin 16} (h : j.val = s.sp.toNat) :
    s.pop = .ok (s.slot j, s.setSp (s.sp - 1)) := by
  rw [State.pop, stackIndex_of_val h]

theorem State.pop_of_ge {s : State} (h : 16 ≤ s.sp.toNat) : s.pop = .error (.stackRange s.sp) := by
  rw [State.pop, stackIndex_of_ge h]

/-! ## Stores -/

theorem State.writeByte_of_lt {s : State} {a : Nat} (b : Byte) (h : a < 4096) :
    s.writeByte a b = .done (s.setMem (s.mem.put a b)) := by
  rw [State.writeByte, Memory.write_of_lt b h]

theorem State.writeByte_of_ge {s : State} {a : Nat} (b : Byte) (h : 4096 ≤ a) :
    s.writeByte a b = .raised (.memRange a) s := by
  rw [State.writeByte, Memory.write_of_ge b h]

/-- Stores that are all in range put every byte. -/
theorem State.storeBytes_of_le : ∀ {bs : List Byte} {s : State} {a : Nat}, a + bs.length ≤ 4096 →
    s.storeBytes a bs = .done (s.setMem (s.mem.putAll a bs))
  | [], _, _, _ => rfl
  | b :: bs, s, a, h => by
    simp only [List.length_cons] at h
    rw [State.storeBytes, State.writeByte_of_lt b (by omega), Attempt.andThen_done,
      State.storeBytes_of_le (bs := bs) (by omega)]
    rfl

/-- Stores that run out of range fail at the first such index, the bytes before it put. -/
theorem State.storeBytes_of_gt : ∀ {bs : List Byte} {s : State} {a : Nat}, 0 < bs.length → 4096 < a + bs.length →
    s.storeBytes a bs = .raised (.memRange (max a 4096)) (s.setMem (s.mem.putAll a (bs.take (4096 - a))))
  | [], _, _, h, _ => absurd h (by simp)
  | b :: bs, s, a, _, h => by
    simp only [List.length_cons] at h
    by_cases ha : a < 4096
    · rw [State.storeBytes, State.writeByte_of_lt b ha, Attempt.andThen_done,
        State.storeBytes_of_gt (bs := bs) (by omega) (by omega)]
      have h1 : max (a + 1) 4096 = max a 4096 := by omega
      have h2 : 4096 - a = (4096 - (a + 1)) + 1 := by omega
      rw [h1, h2, List.take_succ_cons]
      rfl
    · rw [State.storeBytes, State.writeByte_of_ge b (by omega), Attempt.andThen_raised]
      have h1 : max a 4096 = a := by omega
      have h2 : 4096 - a = 0 := by omega
      rw [h1, h2]
      rfl

/-! ## Row reads -/

/-- Rows that are all in range are the bytes memory looks like there. -/
theorem Memory.readBytes_of_le : ∀ {n : Nat} {m : Memory} {a : Nat}, n = 0 ∨ a + n ≤ 4096 →
    m.readBytes a n = .ok ((List.range' a n).map m.look)
  | 0, _, _, _ => rfl
  | n + 1, m, a, h => by
    rw [Memory.readBytes, Memory.read_of_lt (by rw [memSize_eq]; omega), Memory.readBytes_of_le (by omega)]
    rfl

/-- Rows that run out of range fail at the first such index. -/
theorem Memory.readBytes_of_gt : ∀ {n : Nat} {m : Memory} {a : Nat}, 0 < n → 4096 < a + n →
    m.readBytes a n = .error (.memRange (max a 4096))
  | 0, _, _, h, _ => absurd h (by simp)
  | n + 1, m, a, _, h => by
    by_cases ha : a < 4096
    · have h1 : max (a + 1) 4096 = max a 4096 := by omega
      rw [Memory.readBytes, Memory.read_of_lt ha, Memory.readBytes_of_gt (by omega) (by omega), h1]
    · have h1 : max a 4096 = a := by omega
      rw [Memory.readBytes, Memory.read_of_ge (by rw [memSize_eq]; omega), h1]

/-! ## Register loads -/

/-- Register-by-register writes from consecutive addresses, with no range check: what in-range loads do. -/
def State.loadedFrom : State → Nat → List Reg → State
  | s, _, [] => s
  | s, a, r :: rs => State.loadedFrom (s.setV r (s.mem.look a)) (a + 1) rs

theorem State.loadRegs_of_le : ∀ {rs : List Reg} {s : State} {a : Nat}, a + rs.length ≤ 4096 →
    s.loadRegs a rs = .done (s.loadedFrom a rs)
  | [], _, _, _ => rfl
  | r :: rs, s, a, h => by
    simp only [List.length_cons] at h
    rw [State.loadRegs, Memory.read_of_lt (by rw [memSize_eq]; omega)]
    exact State.loadRegs_of_le (rs := rs) (by omega)

theorem State.loadRegs_of_gt : ∀ {rs : List Reg} {s : State} {a : Nat}, 0 < rs.length → 4096 < a + rs.length →
    s.loadRegs a rs = .raised (.memRange (max a 4096)) (s.loadedFrom a (rs.take (4096 - a)))
  | [], _, _, h, _ => absurd h (by simp)
  | r :: rs, s, a, _, h => by
    simp only [List.length_cons] at h
    by_cases ha : a < 4096
    · rw [State.loadRegs, Memory.read_of_lt ha]
      have h1 : max (a + 1) 4096 = max a 4096 := by omega
      have h2 : 4096 - a = (4096 - (a + 1)) + 1 := by omega
      have ih := State.loadRegs_of_gt (rs := rs) (s := s.setV r (s.mem.look a)) (a := a + 1) (by omega) (by omega)
      simp only
      rw [ih, h1, h2, List.take_succ_cons]
      rfl
    · rw [State.loadRegs, Memory.read_of_ge (by rw [memSize_eq]; omega)]
      have h1 : max a 4096 = a := by omega
      have h2 : 4096 - a = 0 := by omega
      simp only
      rw [h1, h2]
      rfl

/-- Loads write general registers alone. -/
theorem State.loadedFrom_frame : ∀ (rs : List Reg) (s : State) (a : Nat), ∃ v, s.loadedFrom a rs = { s with v := v }
  | [], s, _ => ⟨s.v, rfl⟩
  | r :: rs, s, a => by
    obtain ⟨v, hv⟩ := State.loadedFrom_frame rs (s.setV r (s.mem.look a)) (a + 1)
    exact ⟨v, hv⟩

/-- Loads write the registers of the list alone. -/
theorem State.loadedFrom_other : ∀ {rs : List Reg} {s : State} {a : Nat} {q : Reg}, q ∉ rs →
    (s.loadedFrom a rs).getV q = s.getV q
  | [], _, _, _, _ => rfl
  | r :: rs, s, a, q, h => by
    rw [List.mem_cons, not_or] at h
    rw [State.loadedFrom, State.loadedFrom_other h.2, State.setV_getV, if_neg h.1]

/-- Each register of a list without repeats is loaded from its own address. -/
theorem State.loadedFrom_getV : ∀ {rs : List Reg} {s : State} {a : Nat} (_ : rs.Nodup) (k : Nat) (hk : k < rs.length),
    (s.loadedFrom a rs).getV rs[k] = s.mem.look (a + k)
  | r :: rs, s, a, hn, 0, _ => by
    rw [List.nodup_cons] at hn
    show (State.loadedFrom (s.setV r (s.mem.look a)) (a + 1) rs).getV r = _
    rw [State.loadedFrom_other hn.1]
    simp
  | r :: rs, s, a, hn, k + 1, hk => by
    rw [List.nodup_cons] at hn
    have ih := State.loadedFrom_getV (rs := rs) (s := s.setV r (s.mem.look a)) (a := a + 1) hn.2 k (by simpa using hk)
    have e : a + 1 + k = a + (k + 1) := by omega
    rw [e] at ih
    exact ih

/-! ## The range V0..Vx -/

@[simp] theorem allRegs_length : allRegs.length = 16 := rfl

theorem allRegs_getElem : ∀ r : Reg, allRegs[r.val]? = some r := by decide

@[simp] theorem regsUpTo_length (x : Reg) : (regsUpTo x).length = x.val + 1 := by
  simp [regsUpTo]

theorem regsUpTo_getElem? {x r : Reg} (h : r ≤ x) : (regsUpTo x)[r.val]? = some r := by
  have h' : r.val < x.val + 1 := Nat.lt_succ_of_le h
  rw [regsUpTo, List.getElem?_take_of_lt h']
  exact allRegs_getElem r

theorem regsUpTo_getElem {x : Reg} {k : Nat} (h : k < (regsUpTo x).length) :
    (regsUpTo x)[k] = ⟨k, by simp at h; omega⟩ := by
  have hk : k < x.val + 1 := by simpa using h
  have := regsUpTo_getElem? (x := x) (r := ⟨k, by omega⟩) (Nat.le_of_lt_succ hk)
  rw [List.getElem?_eq_getElem h] at this
  exact Option.some.inj this

theorem regsUpTo_nodup (x : Reg) : (regsUpTo x).Nodup :=
  (show allRegs.Nodup by decide).sublist (List.take_sublist _ _)

theorem mem_regsUpTo {x r : Reg} : r ∈ regsUpTo x ↔ r ≤ x := by
  constructor
  · intro h
    obtain ⟨k, hk, e⟩ := List.getElem_of_mem h
    rw [regsUpTo_getElem hk] at e
    have hk' : k < x.val + 1 := by simpa using hk
    subst e
    exact Nat.le_of_lt_succ hk'
  · intro h
    exact List.mem_of_getElem? (regsUpTo_getElem? h)

@[simp] theorem State.regBytes_length (s : State) (x : Reg) : (s.regBytes x).length = x.val + 1 := by
  simp [State.regBytes]

theorem State.regBytes_getD {s : State} {x r : Reg} (h : r ≤ x) : (s.regBytes x).getD r.val 0 = s.getV r := by
  simp [State.regBytes, List.getD, regsUpTo_getElem? h]

/-! ## Keys -/

theorem keyOf_of_val {b : Byte} {k : Key} (h : b.toNat = k.val) : keyOf b = .ok k := by
  have hlt : b.toNat < 16 := h ▸ k.isLt
  rw [keyOf, dif_pos hlt]
  exact congrArg Except.ok (Fin.ext h)

theorem keyOf_of_gt {b : Byte} (h : 15 < b.toNat) : keyOf b = .error (.keyRange b) := by
  rw [keyOf, dif_neg (by omega)]

/-! ## Fetch -/

theorem Memory.readWord_of_lt {m : Memory} {a : Nat} (h : a + 1 < 4096) :
    m.readWord a = some (m.look a ++ m.look (a + 1)) := by
  simp [Memory.readWord, h]

theorem State.fetch_of_lt {s : State} (h : s.pc.toNat + 1 < 4096) :
    s.fetch = .ok (s.mem.look s.pc.toNat ++ s.mem.look (s.pc.toNat + 1), s.setPc (s.pc + 2)) := by
  rw [State.fetch, Memory.readWord_of_lt h]

theorem State.fetch_of_ge {s : State} (h : 4096 ≤ s.pc.toNat + 1) : s.fetch = .error (.memRange s.pc.toNat) := by
  rw [State.fetch, Memory.readWord, if_neg (by rw [memSize_eq]; omega)]

end Sys2Proof.Machine
end

