-- ==== Sys2Proof/Laws/PerInstr.lean ====
section
/-! SUPPORT. One law for every instruction: its encoding matches its own row of the opcode map, or, for the no-op class,
no row (30_encoding.md R59, R65). -/

namespace Sys2Proof.Laws.RowMatch

open Sys2Proof Config

/-- The encoding of a well-formed instruction matches the row of its own opcode, under every setting of the decoder's
parameters; that of a no-op matches no row. -/
def Statement (i : Instr) : Prop :=
  ∀ p : DecoderParams, i.wellFormed p = true →
    (∃ r ∈ opcodeRows p, r.op = i.opcode ∧ r.hits (encode i) = true) ∨
      (i.opcode = .nop ∧ noOpWord p (encode i) = true)

/-! ## Where the rows stand -/

theorem mem_of_family0 {p : DecoderParams} {r : OpcodeRow} (h : r ∈ family0Rows p.family0) : r ∈ opcodeRows p := by
  simp only [opcodeRows, List.mem_append]
  exact .inl (.inl (.inl (.inl h)))

theorem mem_of_top {p : DecoderParams} {r : OpcodeRow} (h : r ∈ topRows) : r ∈ opcodeRows p := by
  simp only [opcodeRows, List.mem_append]
  exact .inl (.inl (.inl (.inr h)))

theorem mem_of_lowNibble {p : DecoderParams} {r : OpcodeRow} (h : r ∈ lowNibbleRows p.checkLowNibble) :
    r ∈ opcodeRows p := by
  simp only [opcodeRows, List.mem_append]
  exact .inl (.inl (.inr h))

theorem mem_of_family8 {p : DecoderParams} {r : OpcodeRow} (h : r ∈ family8Rows) : r ∈ opcodeRows p := by
  simp only [opcodeRows, List.mem_append]
  exact .inl (.inr h)

theorem mem_of_familyEF {p : DecoderParams} {r : OpcodeRow} (h : r ∈ familyEFRows) : r ∈ opcodeRows p := by
  simp only [opcodeRows, List.mem_append]
  exact .inr h

/-! ## What a row with one of the three masks says of a word -/

theorem hits_top {op : Opcode} {f : Nat} {w : Word} (hf : f < 16) (h : fieldF w = f) :
    OpcodeRow.hits ⟨op, BitVec.ofNat 16 (f * 0x1000), 0xF000⟩ w = true :=
  beq_iff_eq.mpr ((hits_F000 hf).mpr h)

theorem hits_nibble {op : Opcode} {f n : Nat} {w : Word} (hf : f < 16) (hn : n < 16) (h : fieldF w = f)
    (h' : (fieldN w).val = n) : OpcodeRow.hits ⟨op, BitVec.ofNat 16 (f * 0x1000 + n), 0xF00F⟩ w = true :=
  beq_iff_eq.mpr ((hits_F00F hf hn).mpr ⟨h, h'⟩)

theorem hits_byte {op : Opcode} {f k : Nat} {w : Word} (hf : f < 16) (hk : k < 256) (h : fieldF w = f)
    (h' : (fieldKK w).toNat = k) : OpcodeRow.hits ⟨op, BitVec.ofNat 16 (f * 0x1000 + k), 0xF0FF⟩ w = true :=
  beq_iff_eq.mpr ((hits_F0FF hf hk).mpr ⟨h, h'⟩)

/-- The row of family 5 or 9 is met by the word with low nibble 0, checked or not. -/
theorem hits_lowNibble {op : Opcode} {f : Nat} (hf : f < 16) (c : Bool) (x y : Reg) :
    OpcodeRow.hits ⟨op, BitVec.ofNat 16 (f * 0x1000), if c then 0xF00F else 0xF000⟩ (encXYN f x y 0) = true := by
  cases c
  · exact hits_top hf (fieldF_encXYN hf x y 0)
  · have h := hits_nibble (op := op) (n := 0) hf (by decide) (fieldF_encXYN hf x y 0) (by rw [fieldN_encXYN hf]; rfl)
    rw [Nat.add_zero] at h
    exact h

/-! ## One lemma per instruction -/

theorem cls : Statement (.cls) := by
  rintro ⟨f0, c⟩ -
  cases f0 <;> exact .inl ⟨_, mem_of_family0 (by simp [family0Rows]; exact .inl rfl), rfl, by decide⟩

theorem ret : Statement (.ret) := by
  rintro ⟨f0, c⟩ -
  cases f0 <;> exact .inl ⟨_, mem_of_family0 (by simp [family0Rows]; exact .inr rfl), rfl, by decide⟩

theorem jp (nnn : Addr) : Statement (.jp nnn) := by
  intro p _
  exact .inl ⟨⟨.jp, 0x1000, 0xF000⟩, mem_of_top (by decide), rfl, hits_top (by decide) (fieldF_encNNN (f := 1) (by decide) nnn)⟩

theorem call (nnn : Addr) : Statement (.call nnn) := by
  intro p _
  exact .inl ⟨⟨.call, 0x2000, 0xF000⟩, mem_of_top (by decide), rfl, hits_top (by decide) (fieldF_encNNN (f := 2) (by decide) nnn)⟩

theorem seImm (x : Reg) (kk : Byte) : Statement (.seImm x kk) := by
  intro p _
  exact .inl ⟨⟨.seImm, 0x3000, 0xF000⟩, mem_of_top (by decide), rfl, hits_top (by decide) (fieldF_encXKK (f := 3) (by decide) x kk)⟩

theorem sneImm (x : Reg) (kk : Byte) : Statement (.sneImm x kk) := by
  intro p _
  exact .inl ⟨⟨.sneImm, 0x4000, 0xF000⟩, mem_of_top (by decide), rfl, hits_top (by decide) (fieldF_encXKK (f := 4) (by decide) x kk)⟩

theorem seReg (x y : Reg) : Statement (.seReg x y) := by
  intro p _
  exact .inl ⟨⟨.seReg, 0x5000, if p.checkLowNibble then 0xF00F else 0xF000⟩, mem_of_lowNibble (by simp [lowNibbleRows]), rfl,
    hits_lowNibble (f := 5) (by decide) p.checkLowNibble x y⟩

theorem ldImm (x : Reg) (kk : Byte) : Statement (.ldImm x kk) := by
  intro p _
  exact .inl ⟨⟨.ldImm, 0x6000, 0xF000⟩, mem_of_top (by decide), rfl, hits_top (by decide) (fieldF_encXKK (f := 6) (by decide) x kk)⟩

theorem addImm (x : Reg) (kk : Byte) : Statement (.addImm x kk) := by
  intro p _
  exact .inl ⟨⟨.addImm, 0x7000, 0xF000⟩, mem_of_top (by decide), rfl, hits_top (by decide) (fieldF_encXKK (f := 7) (by decide) x kk)⟩

theorem ldReg (x y : Reg) : Statement (.ldReg x y) := by
  intro p _
  exact .inl ⟨⟨.ldReg, 0x8000, 0xF00F⟩, mem_of_family8 (by decide), rfl, hits_nibble (f := 8) (n := 0) (by decide) (by decide)
    (fieldF_encXYN (by decide) x y 0) (by rw [encode, fieldN_encXYN (by decide)]; rfl)⟩

theorem orReg (x y : Reg) : Statement (.orReg x y) := by
  intro p _
  exact .inl ⟨⟨.orReg, 0x8001, 0xF00F⟩, mem_of_family8 (by decide), rfl, hits_nibble (f := 8) (n := 1) (by decide) (by decide)
    (fieldF_encXYN (by decide) x y 1) (by rw [encode, fieldN_encXYN (by decide)]; rfl)⟩

theorem andReg (x y : Reg) : Statement (.andReg x y) := by
  intro p _
  exact .inl ⟨⟨.andReg, 0x8002, 0xF00F⟩, mem_of_family8 (by decide), rfl, hits_nibble (f := 8) (n := 2) (by decide) (by decide)
    (fieldF_encXYN (by decide) x y 2) (by rw [encode, fieldN_encXYN (by decide)]; rfl)⟩

theorem xorReg (x y : Reg) : Statement (.xorReg x y) := by
  intro p _
  exact .inl ⟨⟨.xorReg, 0x8003, 0xF00F⟩, mem_of_family8 (by decide), rfl, hits_nibble (f := 8) (n := 3) (by decide) (by decide)
    (fieldF_encXYN (by decide) x y 3) (by rw [encode, fieldN_encXYN (by decide)]; rfl)⟩

theorem addReg (x y : Reg) : Statement (.addReg x y) := by
  intro p _
  exact .inl ⟨⟨.addReg, 0x8004, 0xF00F⟩, mem_of_family8 (by decide), rfl, hits_nibble (f := 8) (n := 4) (by decide) (by decide)
    (fieldF_encXYN (by decide) x y 4) (by rw [encode, fieldN_encXYN (by decide)]; rfl)⟩

theorem sub (x y : Reg) : Statement (.sub x y) := by
  intro p _
  exact .inl ⟨⟨.sub, 0x8005, 0xF00F⟩, mem_of_family8 (by decide), rfl, hits_nibble (f := 8) (n := 5) (by decide) (by decide)
    (fieldF_encXYN (by decide) x y 5) (by rw [encode, fieldN_encXYN (by decide)]; rfl)⟩

theorem shr (x y : Reg) : Statement (.shr x y) := by
  intro p _
  exact .inl ⟨⟨.shr, 0x8006, 0xF00F⟩, mem_of_family8 (by decide), rfl, hits_nibble (f := 8) (n := 6) (by decide) (by decide)
    (fieldF_encXYN (by decide) x y 6) (by rw [encode, fieldN_encXYN (by decide)]; rfl)⟩

theorem subn (x y : Reg) : Statement (.subn x y) := by
  intro p _
  exact .inl ⟨⟨.subn, 0x8007, 0xF00F⟩, mem_of_family8 (by decide), rfl, hits_nibble (f := 8) (n := 7) (by decide) (by decide)
    (fieldF_encXYN (by decide) x y 7) (by rw [encode, fieldN_encXYN (by decide)]; rfl)⟩

theorem shl (x y : Reg) : Statement (.shl x y) := by
  intro p _
  exact .inl ⟨⟨.shl, 0x800E, 0xF00F⟩, mem_of_family8 (by decide), rfl, hits_nibble (f := 8) (n := 14) (by decide) (by decide)
    (fieldF_encXYN (by decide) x y 14) (by rw [encode, fieldN_encXYN (by decide)]; rfl)⟩

theorem sneReg (x y : Reg) : Statement (.sneReg x y) := by
  intro p _
  exact .inl ⟨⟨.sneReg, 0x9000, if p.checkLowNibble then 0xF00F else 0xF000⟩, mem_of_lowNibble (by simp [lowNibbleRows]), rfl,
    hits_lowNibble (f := 9) (by decide) p.checkLowNibble x y⟩

theorem ldI (nnn : Addr) : Statement (.ldI nnn) := by
  intro p _
  exact .inl ⟨⟨.ldI, 0xA000, 0xF000⟩, mem_of_top (by decide), rfl, hits_top (by decide) (fieldF_encNNN (f := 10) (by decide) nnn)⟩

theorem jpV0 (nnn : Addr) : Statement (.jpV0 nnn) := by
  intro p _
  exact .inl ⟨⟨.jpV0, 0xB000, 0xF000⟩, mem_of_top (by decide), rfl, hits_top (by decide) (fieldF_encNNN (f := 11) (by decide) nnn)⟩

theorem rnd (x : Reg) (kk : Byte) : Statement (.rnd x kk) := by
  intro p _
  exact .inl ⟨⟨.rnd, 0xC000, 0xF000⟩, mem_of_top (by decide), rfl, hits_top (by decide) (fieldF_encXKK (f := 12) (by decide) x kk)⟩

theorem drw (x y : Reg) (n : RowCount) : Statement (.drw x y n) := by
  intro p _
  exact .inl ⟨⟨.drw, 0xD000, 0xF000⟩, mem_of_top (by decide), rfl, hits_top (by decide) (fieldF_encXYN (f := 13) (by decide) x y n)⟩

theorem skp (x : Reg) : Statement (.skp x) := by
  intro p _
  exact .inl ⟨⟨.skp, 0xE09E, 0xF0FF⟩, mem_of_familyEF (by decide), rfl, hits_byte (f := 14) (k := 158) (by decide) (by decide)
    (fieldF_encXKK (by decide) x 158) (by rw [encode, fieldKK_encXKK (by decide)]; rfl)⟩

theorem sknp (x : Reg) : Statement (.sknp x) := by
  intro p _
  exact .inl ⟨⟨.sknp, 0xE0A1, 0xF0FF⟩, mem_of_familyEF (by decide), rfl, hits_byte (f := 14) (k := 161) (by decide) (by decide)
    (fieldF_encXKK (by decide) x 161) (by rw [encode, fieldKK_encXKK (by decide)]; rfl)⟩

theorem ldVxDt (x : Reg) : Statement (.ldVxDt x) := by
  intro p _
  exact .inl ⟨⟨.ldVxDt, 0xF007, 0xF0FF⟩, mem_of_familyEF (by decide), rfl, hits_byte (f := 15) (k := 7) (by decide) (by decide)
    (fieldF_encXKK (by decide) x 7) (by rw [encode, fieldKK_encXKK (by decide)]; rfl)⟩

theorem ldVxK (x : Reg) : Statement (.ldVxK x) := by
  intro p _
  exact .inl ⟨⟨.ldVxK, 0xF00A, 0xF0FF⟩, mem_of_familyEF (by decide), rfl, hits_byte (f := 15) (k := 10) (by decide) (by decide)
    (fieldF_encXKK (by decide) x 10) (by rw [encode, fieldKK_encXKK (by decide)]; rfl)⟩

theorem ldDtVx (x : Reg) : Statement (.ldDtVx x) := by
  intro p _
  exact .inl ⟨⟨.ldDtVx, 0xF015, 0xF0FF⟩, mem_of_familyEF (by decide), rfl, hits_byte (f := 15) (k := 21) (by decide) (by decide)
    (fieldF_encXKK (by decide) x 21) (by rw [encode, fieldKK_encXKK (by decide)]; rfl)⟩

theorem ldStVx (x : Reg) : Statement (.ldStVx x) := by
  intro p _
  exact .inl ⟨⟨.ldStVx, 0xF018, 0xF0FF⟩, mem_of_familyEF (by decide), rfl, hits_byte (f := 15) (k := 24) (by decide) (by decide)
    (fieldF_encXKK (by decide) x 24) (by rw [encode, fieldKK_encXKK (by decide)]; rfl)⟩

theorem addIVx (x : Reg) : Statement (.addIVx x) := by
  intro p _
  exact .inl ⟨⟨.addIVx, 0xF01E, 0xF0FF⟩, mem_of_familyEF (by decide), rfl, hits_byte (f := 15) (k := 30) (by decide) (by decide)
    (fieldF_encXKK (by decide) x 30) (by rw [encode, fieldKK_encXKK (by decide)]; rfl)⟩

theorem ldFVx (x : Reg) : Statement (.ldFVx x) := by
  intro p _
  exact .inl ⟨⟨.ldFVx, 0xF029, 0xF0FF⟩, mem_of_familyEF (by decide), rfl, hits_byte (f := 15) (k := 41) (by decide) (by decide)
    (fieldF_encXKK (by decide) x 41) (by rw [encode, fieldKK_encXKK (by decide)]; rfl)⟩

theorem ldBVx (x : Reg) : Statement (.ldBVx x) := by
  intro p _
  exact .inl ⟨⟨.ldBVx, 0xF033, 0xF0FF⟩, mem_of_familyEF (by decide), rfl, hits_byte (f := 15) (k := 51) (by decide) (by decide)
    (fieldF_encXKK (by decide) x 51) (by rw [encode, fieldKK_encXKK (by decide)]; rfl)⟩

theorem ldMemVx (x : Reg) : Statement (.ldMemVx x) := by
  intro p _
  exact .inl ⟨⟨.ldMemVx, 0xF055, 0xF0FF⟩, mem_of_familyEF (by decide), rfl, hits_byte (f := 15) (k := 85) (by decide) (by decide)
    (fieldF_encXKK (by decide) x 85) (by rw [encode, fieldKK_encXKK (by decide)]; rfl)⟩

theorem ldVxMem (x : Reg) : Statement (.ldVxMem x) := by
  intro p _
  exact .inl ⟨⟨.ldVxMem, 0xF065, 0xF0FF⟩, mem_of_familyEF (by decide), rfl, hits_byte (f := 15) (k := 101) (by decide) (by decide)
    (fieldF_encXKK (by decide) x 101) (by rw [encode, fieldKK_encXKK (by decide)]; rfl)⟩

theorem nop (word : Word) : Statement (.nop word) := by
  intro p h
  exact .inr ⟨rfl, h⟩

end Sys2Proof.Laws.RowMatch
end

