-- ==== Sys2Proof/Laws/Safety.lean ====
section
/-! SUPPORT. What each shared operation can do, beside the fault the table of 40_engine.md R80 expects there, and the
frames of the register writes. -/

namespace Sys2Proof.Machine

open Config

/-! ## The expected faults -/

theorem rangeFault_of_le {base len : Nat} (h : len = 0 ∨ base + len ≤ 4096) : rangeFault base len = none := by
  rw [rangeFault, if_neg (by rw [memSize_eq]; omega)]

theorem rangeFault_of_gt {base len : Nat} (h : 0 < len) (h' : 4096 < base + len) :
    rangeFault base len = some (.memRange (max base 4096)) := by
  rw [rangeFault, if_pos ⟨h, h'⟩]

/-- A run of stores either puts every byte, no fault expected, or stops with the expected fault, a prefix put. -/
theorem State.storeBytes_cases (bs : List Byte) (s : State) (a : Nat) :
    (s.storeBytes a bs = .done (s.setMem (s.mem.putAll a bs)) ∧ rangeFault a bs.length = none) ∨
    (4096 < a + bs.length ∧
      s.storeBytes a bs = .raised (.memRange (max a 4096)) (s.setMem (s.mem.putAll a (bs.take (4096 - a)))) ∧
      rangeFault a bs.length = some (.memRange (max a 4096))) := by
  by_cases h : bs.length = 0
  · obtain rfl := List.length_eq_zero_iff.mp h
    exact .inl ⟨rfl, rangeFault_of_le (.inl rfl)⟩
  · by_cases h1 : a + bs.length ≤ 4096
    · exact .inl ⟨State.storeBytes_of_le h1, rangeFault_of_le (.inr h1)⟩
    · exact .inr ⟨by omega, State.storeBytes_of_gt (by omega) (by omega), rangeFault_of_gt (by omega) (by omega)⟩

/-- The prefix a stopped run of stores has put is in range, so memory stays canonical. -/
theorem Memory.wf_putAll_take {m : Memory} (hm : m.wf = true) (a : Nat) (bs : List Byte) :
    (m.putAll a (bs.take (4096 - a))).wf = true := by
  by_cases h : a < 4096
  · refine Memory.wf_putAll ?_ hm
    rw [List.length_take, memSize_eq]
    omega
  · rw [Nat.sub_eq_zero_of_le (by omega)]
    exact hm

/-- A run of loads either loads every register, no fault expected, or stops with the expected fault, a prefix
loaded. -/
theorem State.loadRegs_cases (rs : List Reg) (s : State) (a : Nat) :
    (s.loadRegs a rs = .done (s.loadedFrom a rs) ∧ rangeFault a rs.length = none) ∨
    (4096 < a + rs.length ∧
      s.loadRegs a rs = .raised (.memRange (max a 4096)) (s.loadedFrom a (rs.take (4096 - a))) ∧
      rangeFault a rs.length = some (.memRange (max a 4096))) := by
  by_cases h : rs.length = 0
  · obtain rfl := List.length_eq_zero_iff.mp h
    exact .inl ⟨rfl, rangeFault_of_le (.inl rfl)⟩
  · by_cases h1 : a + rs.length ≤ 4096
    · exact .inl ⟨State.loadRegs_of_le h1, rangeFault_of_le (.inr h1)⟩
    · exact .inr ⟨by omega, State.loadRegs_of_gt (by omega) (by omega), rangeFault_of_gt (by omega) (by omega)⟩

/-- Row reads either give the bytes, no fault expected, or the expected fault. -/
theorem Memory.readBytes_cases (m : Memory) (a n : Nat) :
    ((∃ bs, m.readBytes a n = .ok bs) ∧ rangeFault a n = none) ∨
    (m.readBytes a n = .error (.memRange (max a 4096)) ∧ rangeFault a n = some (.memRange (max a 4096))) := by
  by_cases h : n = 0 ∨ a + n ≤ 4096
  · exact .inl ⟨⟨_, Memory.readBytes_of_le h⟩, rangeFault_of_le h⟩
  · exact .inr ⟨Memory.readBytes_of_gt (by omega) (by omega), rangeFault_of_gt (by omega) (by omega)⟩

/-- The bound check of the stack either names a slot, no fault expected, or gives the expected fault. -/
theorem stackIndex_cases (sp : Byte) :
    (∃ j : Fin 16, j.val = sp.toNat ∧ stackIndex sp = some j ∧ stackFault sp = none) ∨
    (16 ≤ sp.toNat ∧ stackIndex sp = none ∧ stackFault sp = some (.stackRange sp)) := by
  by_cases h : sp.toNat < 16
  · exact .inl ⟨⟨_, h⟩, rfl, stackIndex_of_val rfl, by rw [stackFault, if_neg (by omega)]⟩
  · exact .inr ⟨by omega, stackIndex_of_ge (by omega), by rw [stackFault, if_pos (by omega)]⟩

/-- A register's value either is a key number, no fault expected, or gives the expected fault. -/
theorem keyOf_cases (b : Byte) :
    (∃ k, keyOf b = .ok k ∧ keyFault b = none) ∨ (keyOf b = .error (.keyRange b) ∧ keyFault b = some (.keyRange b)) := by
  by_cases h : b.toNat < 16
  · exact .inl ⟨⟨_, h⟩, keyOf_of_val rfl, by rw [keyFault, if_neg (by omega)]⟩
  · exact .inr ⟨keyOf_of_gt (by omega), by rw [keyFault, if_pos (by omega)]⟩

/-! ## Frames -/

/-- One register write changes that register alone. -/
theorem onlyV_setV (s : State) (x : Reg) (b : Byte) : OnlyV [x] s (s.setV x b) := by
  refine ⟨fun r hr => ?_, rfl, rfl, ⟨rfl, fun _ => rfl⟩, ⟨rfl, rfl⟩, rfl, fun _ => rfl, ⟨rfl, fun _ => rfl, rfl, rfl⟩, rfl⟩
  rw [State.setV_getV, if_neg (by simpa using hr)]

/-- A flag write and then a result write change those two registers alone. -/
theorem onlyV_setV_setV (s : State) (x y : Reg) (b c : Byte) : OnlyV [x, y] s ((s.setV y b).setV x c) := by
  refine ⟨fun r hr => ?_, rfl, rfl, ⟨rfl, fun _ => rfl⟩, ⟨rfl, rfl⟩, rfl, fun _ => rfl, ⟨rfl, fun _ => rfl, rfl, rfl⟩, rfl⟩
  simp only [List.mem_cons, List.not_mem_nil, or_false, not_or] at hr
  rw [State.setV_getV, if_neg hr.1, State.setV_getV, if_neg hr.2]

/-- Register loads change the registers of the list alone. -/
theorem onlyV_loadedFrom {rs ds : List Reg} (h : ∀ r ∈ rs, r ∈ ds) (s : State) (a : Nat) :
    OnlyV ds s (s.loadedFrom a rs) := by
  obtain ⟨v, hv⟩ := State.loadedFrom_frame rs s a
  refine ⟨fun r hr => State.loadedFrom_other fun hm => hr (h r hm), ?_⟩
  rw [hv]
  exact ⟨rfl, rfl, ⟨rfl, fun _ => rfl⟩, ⟨rfl, rfl⟩, rfl, fun _ => rfl, ⟨rfl, fun _ => rfl, rfl, rfl⟩, rfl⟩

/-- A PC write changes PC alone. -/
theorem onlyPc_setPc (s : State) (w : Word) : OnlyPc s (s.setPc w) :=
  ⟨fun _ _ => rfl, rfl, ⟨rfl, fun _ => rfl⟩, ⟨rfl, rfl⟩, rfl, fun _ => rfl, ⟨rfl, fun _ => rfl, rfl, rfl⟩, rfl⟩

/-- An I write changes I alone. -/
theorem onlyI_setI (s : State) (w : Word) : OnlyI s (s.setI w) :=
  ⟨fun _ _ => rfl, rfl, ⟨rfl, fun _ => rfl⟩, ⟨rfl, rfl⟩, rfl, fun _ => rfl, ⟨rfl, fun _ => rfl, rfl, rfl⟩, rfl⟩

/-- A memory that reads alike outside a range changes that range alone. -/
theorem onlyMem_setMem {s : State} {m : Memory} {base len : Nat}
    (h : ∀ a, (a < base ∨ base + len ≤ a) → m.read a = s.mem.read a) : OnlyMem base len s (s.setMem m) :=
  ⟨fun _ _ => rfl, rfl, rfl, ⟨rfl, fun _ => rfl⟩, ⟨rfl, rfl⟩, rfl, h, ⟨rfl, fun _ => rfl, rfl, rfl⟩, rfl⟩

end Sys2Proof.Machine
end

