-- ==== Sys2Proof/Laws/Step.lean ====
section
/-! SUPPORT. The step (40_engine.md R73, 60_exceptions.md R138), once for each way it can go. -/

namespace Sys2Proof.Machine

open Config

theorem step_eq (s : State) : step s = stepWith decoderDefaults s := rfl

/-- A machine that has its program takes the host's step. -/
theorem hostStep_of_loaded {s : State} (h : s.loaded = true) : hostStep s = .instruction s := by
  rw [hostStep, if_pos h]

/-- A machine without a program takes no step (R142, R144). -/
theorem hostStep_of_not_loaded {s : State} (h : s.loaded = false) : hostStep s = .ended .notLoaded := by
  rw [hostStep, h]
  rfl

/-- The turn of a Running machine whose host steps, or has nothing else to do. -/
theorem turn_of_running {s : State} {rest : List HostAction} (hs : s.status = .running)
    (hh : s.host = .step :: rest ∨ s.host = [] ∧ rest = []) : turn s = hostStep (s.setHost rest) := by
  rcases hh with hh | ⟨hh, rfl⟩
  · simp only [turn, hs, turnRunning, hh]
  · have e : s.setHost [] = s := by rw [← hh]; rfl
    simp only [turn, hs, turnRunning, hh, e]

/-- Such a step runs an instruction, once the program load has been done. -/
theorem stepWith_of_running (p : DecoderParams) {s : State} {rest : List HostAction} (hl : s.loaded = true)
    (hs : s.status = .running) (hh : s.host = .step :: rest ∨ s.host = [] ∧ rest = []) :
    stepWith p s = runInstruction p (s.setHost rest) := by
  rw [stepWith, turn_of_running hs hh, hostStep_of_loaded (by exact hl)]

/-- Before the program load it is refused. -/
theorem stepWith_of_not_loaded (p : DecoderParams) {s : State} {rest : List HostAction} (hl : s.loaded = false)
    (hs : s.status = .running) (hh : s.host = .step :: rest ∨ s.host = [] ∧ rest = []) :
    stepWith p s = .refused .notLoaded := by
  rw [stepWith, turn_of_running hs hh, hostStep_of_not_loaded (by exact hl)]

/-- A step of a Running machine whose host steps it runs the instruction at PC. -/
theorem step_of_running {s : State} {rest : List HostAction} (hl : s.loaded = true) (hs : s.status = .running)
    (hh : s.host = .step :: rest ∨ s.host = [] ∧ rest = []) :
    step s = runInstruction decoderDefaults (s.setHost rest) :=
  stepWith_of_running decoderDefaults hl hs hh

/-- Everything a step can do: an instruction run from the state with the host's turn used up, a quiet turn, or a
refusal. -/
theorem stepWith_cases (p : DecoderParams) (s : State) :
    (∃ rest, s.loaded = true ∧ s.status = .running ∧ (s.host = .step :: rest ∨ s.host = [] ∧ rest = []) ∧
      stepWith p s = runInstruction p (s.setHost rest)) ∨
    (∃ a rest, (s.status = .running ∨ ∃ x, s.status = .waiting x) ∧ s.host = a :: rest ∧ a ≠ .shutdown ∧
      (a = .step → s.status ≠ .running) ∧ stepWith p s = .next (hostAct a (s.setHost rest))) ∨
    (∃ x, s.status = .waiting x ∧ s.host = [] ∧ stepWith p s = .next s) ∨
    (∃ x rest, s.status = .waiting x ∧ s.host = .shutdown :: rest ∧
      stepWith p s = .next ((s.setHost rest).setStatus .aborted)) ∨
    (∃ f, s.status = .faulted f ∧ stepWith p s = .refused (.stepAfterFault f)) ∨
    (s.status = .aborted ∧ stepWith p s = .refused .stepAfterAbort) ∨
    (∃ rest, s.status = .running ∧ s.host = .shutdown :: rest ∧ stepWith p s = .refused .hostStopped) ∨
    (∃ rest, s.loaded = false ∧ s.status = .running ∧ (s.host = .step :: rest ∨ s.host = [] ∧ rest = []) ∧
      stepWith p s = .refused .notLoaded) := by
  have hostSteps : ∀ rest, s.status = .running → (s.host = .step :: rest ∨ s.host = [] ∧ rest = []) →
      (s.loaded = true ∧ stepWith p s = runInstruction p (s.setHost rest)) ∨
      (s.loaded = false ∧ stepWith p s = .refused .notLoaded) := by
    intro rest hs hh
    cases hl : s.loaded with
    | true => exact .inl ⟨rfl, stepWith_of_running p hl hs hh⟩
    | false => exact .inr ⟨rfl, stepWith_of_not_loaded p hl hs hh⟩
  cases hs : s.status with
  | running =>
    cases hh : s.host with
    | nil =>
      rcases hostSteps [] hs (.inr ⟨hh, rfl⟩) with ⟨hl, e⟩ | ⟨hl, e⟩
      · exact .inl ⟨[], hl, rfl, .inr ⟨rfl, rfl⟩, e⟩
      · exact .inr (.inr (.inr (.inr (.inr (.inr (.inr ⟨[], hl, rfl, .inr ⟨rfl, rfl⟩, e⟩))))))
    | cons a rest =>
      cases a with
      | step =>
        rcases hostSteps rest hs (.inl hh) with ⟨hl, e⟩ | ⟨hl, e⟩
        · exact .inl ⟨rest, hl, rfl, .inl rfl, e⟩
        · exact .inr (.inr (.inr (.inr (.inr (.inr (.inr ⟨rest, hl, rfl, .inl rfl, e⟩))))))
      | shutdown =>
        exact .inr (.inr (.inr (.inr (.inr (.inr (.inl
          ⟨rest, rfl, rfl, by simp only [stepWith, turn, hs, turnRunning, hh]⟩))))))
      | tick | setDown k | setUp k | press k | pressCode code =>
        exact .inr (.inl ⟨_, rest, .inl rfl, rfl, by simp, by simp, by
          simp only [stepWith, turn, hs, turnRunning, hh]⟩)
  | waiting x =>
    cases hh : s.host with
    | nil => exact .inr (.inr (.inl ⟨x, rfl, rfl, by simp only [stepWith, turn, hs, turnWaiting, hh]⟩))
    | cons a rest =>
      cases a with
      | shutdown =>
        exact .inr (.inr (.inr (.inl ⟨x, rest, rfl, rfl, by simp only [stepWith, turn, hs, turnWaiting, hh]⟩)))
      | step | tick | setDown k | setUp k | press k | pressCode code =>
        exact .inr (.inl ⟨_, rest, .inr ⟨x, rfl⟩, rfl, by simp, by simp, by
          simp only [stepWith, turn, hs, turnWaiting, hh, hostAct]⟩)
  | faulted f => exact .inr (.inr (.inr (.inr (.inl ⟨f, rfl, by simp only [stepWith, turn, hs]⟩))))
  | aborted => exact .inr (.inr (.inr (.inr (.inr (.inl ⟨rfl, by simp only [stepWith, turn, hs]⟩)))))

/-- A key press completes a wait (R130). -/
theorem State.pressKey_of_waiting {s : State} {x : Reg} (h : s.status = .waiting x) (k : Key) :
    s.pressKey k = (s.setV x (BitVec.ofNat 8 k.val)).setStatus .running := by
  simp only [State.pressKey, h]

/-- With no wait a key press does nothing (log 5). -/
theorem State.pressKey_of_not_waiting {s : State} (h : ∀ x, s.status ≠ .waiting x) (k : Key) : s.pressKey k = s := by
  cases hs : s.status with
  | waiting x => exact absurd hs (h x)
  | running | faulted f | aborted => simp only [State.pressKey, hs]

/-- A press of a host key code is a press of a key, or nothing (R137). -/
theorem State.pressCode_cases (s : State) (code : Nat) : s.pressCode code = s ∨ ∃ k, s.pressCode code = s.pressKey k := by
  unfold State.pressCode
  cases translate code with
  | none => exact .inl rfl
  | some k => exact .inr ⟨k, rfl⟩

/-- The instruction run is the one the two bytes at PC hold. -/
theorem runInstruction_of_lt (p : DecoderParams) {s : State} (h : s.pc.toNat + 1 < 4096) :
    runInstruction p s =
      exec (decodeWith p (wordOfBytes (s.mem.look s.pc.toNat) (s.mem.look (s.pc.toNat + 1)))) (s.setPc (s.pc + 2)) := by
  rw [runInstruction, State.fetch_of_lt h]
  rfl

/-- A fetch out of range faults before PC is advanced. -/
theorem runInstruction_of_ge (p : DecoderParams) {s : State} (h : 4096 ≤ s.pc.toNat + 1) :
    runInstruction p s = .next (s.setStatus (.faulted (.memRange s.pc.toNat))) := by
  rw [runInstruction, State.fetch_of_ge h]
  rfl

/-- A fetch changes PC alone. -/
theorem State.fetch_eq_ok {s t : State} {w : Word} (h : s.fetch = .ok (w, t)) : t = s.setPc (s.pc + 2) := by
  unfold State.fetch at h
  split at h <;> cases h
  rfl

end Sys2Proof.Machine
end

