-- ==== Sys2Proof/Tests/Slice0.lean ====
section
/-! SUPPORT. Tests: ill-formed terms refused, words written out from 30_encoding.md, one-step vectors of
95_test_vectors.md (the vector named beside each), and a witness for the hypotheses of each statement. -/

namespace Sys2Proof.Tests

open Sys2Proof Sys2Proof.Machine Sys2Proof.Config

/-! ## Helpers -/

/-- What `f` reads of the state after `i`. -/
def after {α : Type} (i : Instr) (s : State) (f : State → α) : Option α := (stateOf (exec i s)).map f

/-- What `f` reads of the state after one step. -/
def afterStep {α : Type} (s : State) (f : State → α) : Option α := (stateOf (step s)).map f

/-- Reset with PC at 0x202, the program load done. -/
def s0 : State := (State.reset.setPc 0x202).setLoaded true

/-- Reset with V0 and V1. -/
def v01 (a b : Byte) : State := (s0.setV 0 a).setV 1 b

/-- Reset with V0 and VF. -/
def v0f (a b : Byte) : State := (s0.setV 0 a).setV VF b

/-- Reset with V1 and VF. -/
def v1f (a b : Byte) : State := (s0.setV 1 a).setV VF b

/-- Reset with the bytes at an address. -/
def withMem (a : Nat) (bs : List Byte) (s : State) : State := s.setMem (s.mem.putAll a bs)

/-- Bytes of memory. -/
def bytesAt (a n : Nat) (s : State) : List (Option Byte) := (List.range n).map fun k => s.mem.read (a + k)

/-- CHECK_LOW_NIBBLE_5_9 = true, the other reading of decision D5. -/
def checked : DecoderParams := { family0 := .word, checkLowNibble := true }

/-! ## Well-formed instructions -/

/-- A word of another class in the no-op class is refused: CLS's word, DRW's, a family-8 word that has a row. -/
theorem test_ill_formed_nop : (Instr.nop 0x00E0).wellFormed decoderDefaults = false ∧
    (Instr.nop 0xD015).wellFormed decoderDefaults = false ∧ (Instr.nop 0x8014).wellFormed decoderDefaults = false := by
  decide

/-- The check reads the parameters: 5121 is in the no-op class only where the low nibble is checked. -/
theorem test_ill_formed_by_parameter : (Instr.nop 0x5121).wellFormed decoderDefaults = false ∧
    (Instr.nop 0x5121).wellFormed checked = true ∧
    (Instr.nop 0x01E0).wellFormed ⟨.low8, false⟩ = false ∧ (Instr.nop 0x01E0).wellFormed decoderDefaults = true := by
  decide

/-! ## Decoding: a word of every row, the bits written out -/

theorem test_decode_flow : decodeWith decoderDefaults 0b0000000011100000 = .cls ∧
    decodeWith decoderDefaults 0b0000000011101110 = .ret ∧
    decodeWith decoderDefaults 0b0001101010111100 = .jp 0xABC ∧
    decodeWith decoderDefaults 0b0010001100000000 = .call 0x300 := by decide

theorem test_decode_skip_load : decodeWith decoderDefaults 0b0011001101000010 = .seImm 3 0x42 ∧
    decodeWith decoderDefaults 0b0100001101000011 = .sneImm 3 0x43 ∧
    decodeWith decoderDefaults 0b0101000100100001 = .seReg 1 2 ∧
    decodeWith decoderDefaults 0b0110101001011100 = .ldImm 0xA 0x5C ∧
    decodeWith decoderDefaults 0b0111000111111111 = .addImm 1 0xFF := by decide

theorem test_decode_alu : decodeWith decoderDefaults 0b1000000000010000 = .ldReg 0 1 ∧
    decodeWith decoderDefaults 0b1000000000010001 = .orReg 0 1 ∧
    decodeWith decoderDefaults 0b1000000000010010 = .andReg 0 1 ∧
    decodeWith decoderDefaults 0b1000000000010011 = .xorReg 0 1 ∧
    decodeWith decoderDefaults 0b1000111100010100 = .addReg 15 1 ∧
    decodeWith decoderDefaults 0b1000000011110101 = .sub 0 15 ∧
    decodeWith decoderDefaults 0b1000000001110110 = .shr 0 7 ∧
    decodeWith decoderDefaults 0b1000001000110111 = .subn 2 3 ∧
    decodeWith decoderDefaults 0b1000000000001110 = .shl 0 0 ∧
    decodeWith decoderDefaults 0b1000000000011000 = .nop 0x8018 := by decide

theorem test_decode_misc : decodeWith decoderDefaults 0b1001000100100101 = .sneReg 1 2 ∧
    decodeWith decoderDefaults 0b1010001011110000 = .ldI 0x2F0 ∧
    decodeWith decoderDefaults 0b1011111111111000 = .jpV0 0xFF8 ∧
    decodeWith decoderDefaults 0b1100001100001111 = .rnd 3 0x0F ∧
    decodeWith decoderDefaults 0b1101000000010101 = .drw 0 1 5 := by decide

theorem test_decode_keys : decodeWith decoderDefaults 0b1110001010011110 = .skp 2 ∧
    decodeWith decoderDefaults 0b1110001010100001 = .sknp 2 ∧
    decodeWith decoderDefaults 0b1110001010011111 = .nop 0xE29F := by decide

theorem test_decode_timers_mem : decodeWith decoderDefaults 0b1111001100000111 = .ldVxDt 3 ∧
    decodeWith decoderDefaults 0b1111010100001010 = .ldVxK 5 ∧
    decodeWith decoderDefaults 0b1111001100010101 = .ldDtVx 3 ∧
    decodeWith decoderDefaults 0b1111001100011000 = .ldStVx 3 ∧
    decodeWith decoderDefaults 0b1111001000011110 = .addIVx 2 ∧
    decodeWith decoderDefaults 0b1111101000101001 = .ldFVx 0xA ∧
    decodeWith decoderDefaults 0b1111000100110011 = .ldBVx 1 ∧
    decodeWith decoderDefaults 0b1111001001010101 = .ldMemVx 2 ∧
    decodeWith decoderDefaults 0b1111001001100101 = .ldVxMem 2 ∧
    decodeWith decoderDefaults 0b1111000100110100 = .nop 0xF134 := by decide

/-- F11, and the same words under the other selectors (30_encoding.md R60). -/
theorem test_decode_family0 : decodeWith decoderDefaults 0x0000 = .nop 0 ∧
    decodeWith decoderDefaults 0x01E0 = .nop 0x01E0 ∧ decodeWith ⟨.low8, false⟩ 0x01E0 = .cls ∧
    decodeWith ⟨.low4, false⟩ 0x0000 = .cls ∧ decodeWith ⟨.low4, false⟩ 0x00FE = .ret := by decide

/-- Bytes are big-endian, and fewer than two are no instruction. -/
theorem test_decode_bytes : decodeBytes decoderDefaults [0x60, 0x05, 0x70] = .ok (.ldImm 0 5, [0x70]) ∧
    decodeBytes decoderDefaults [0x60] = .error .truncated ∧ encodeBytes (.addReg 0 1) = [0x80, 0x14] := by
  refine ⟨rfl, rfl, by decide⟩

theorem test_decode_table_word : decodeTableWord 16 0xD015 = some (.drw 0 1 5) ∧
    decodeTableWord 16 0x00EE = some .ret := by decide

/-! ## One step each -/

/-- F1. -/
theorem test_cls : after .cls (s0.setFb ((s0.fb.flip 3 4).flip 10 10)) (·.fb.lit) = some [] := by decide

/-- F2. -/
theorem test_ret : after .ret ((s0.setSp 1).setSlot 1 0x0204) (fun t => (t.pc, t.sp)) = some (0x0204, 0) := by decide

/-- F3, F4: a pop at SP = 0 passes the bound; at 0xFF it faults. -/
theorem test_ret_bounds : after .ret s0 (fun t => (t.pc, t.sp)) = some (0, 0xFF) ∧
    after .ret (s0.setSp 0xFF) (fun t => (t.pc, t.sp, t.status)) =
      some (0x202, 0xFF, .faulted (.stackRange 0xFF)) := by decide

/-- F9. -/
theorem test_jp : after (.jp 0xABC) s0 (·.pc) = some 0x0ABC := by decide

/-- F6, F8. -/
theorem test_call : after (.call 0x300) (s0.setSp 0x0E) (fun t => (t.pc, t.sp, t.slot 15)) =
      some (0x300, 0x0F, 0x202) ∧
    after (.call 0x300) (s0.setSp 0xFF) (fun t => (t.pc, t.sp, t.slot 0)) = some (0x300, 0, 0x202) := by decide

/-- F7. -/
theorem test_call_fault : after (.call 0x300) (s0.setSp 0x0F) (fun t => (t.pc, t.sp, t.status, t.slot 15)) =
    some (0x202, 0x10, .faulted (.stackRange 0x10), 0) := by decide

/-- K1 to K3. -/
theorem test_se_imm : after (.seImm 3 0x42) (s0.setV 3 0x42) (·.pc) = some 0x204 ∧
    after (.seImm 3 0x43) (s0.setV 3 0x42) (·.pc) = some 0x202 ∧
    after (.seImm 3 0x42) ((s0.setV 3 0x42).setPc 0xFFFE) (·.pc) = some 0 := by decide

/-- K4, K5. -/
theorem test_sne_imm : after (.sneImm 3 0x42) (s0.setV 3 0x42) (·.pc) = some 0x202 ∧
    after (.sneImm 3 0x43) (s0.setV 3 0x42) (·.pc) = some 0x204 := by decide

/-- K6, K7. -/
theorem test_se_reg : after (.seReg 1 2) ((s0.setV 1 7).setV 2 7) (·.pc) = some 0x204 ∧
    after (.seReg 1 2) ((s0.setV 1 7).setV 2 8) (·.pc) = some 0x202 := by decide

/-- K11. -/
theorem test_ld_imm : after (.ldImm 15 1) (s0.setV 15 0x80) (·.getV 15) = some 1 := by decide

/-- K12: no carry flag. -/
theorem test_add_imm : after (.addImm 1 0xFF) ((s0.setV 1 1).setV VF 7) (fun t => (t.getV 1, t.getV VF)) =
    some (0, 7) := by decide

/-- A1. -/
theorem test_ld_reg : after (.ldReg 0 1) (v01 0 0x3C) (·.getV 0) = some 0x3C := by decide

/-- A2. -/
theorem test_or : after (.orReg 0 1) ((v01 0x0F 0xF0).setV VF 7) (fun t => (t.getV 0, t.getV VF)) = some (0xFF, 7) := by
  decide

/-- A3. -/
theorem test_and : after (.andReg 0 1) (v01 0x3C 0x0F) (·.getV 0) = some 0x0C := by decide

/-- A4. -/
theorem test_xor : after (.xorReg 0 1) (v01 0x3C 0xFF) (·.getV 0) = some 0xC3 := by decide

/-- A6, A8 (S4). -/
theorem test_add_reg : after (.addReg 0 1) (v01 0xFF 1) (fun t => (t.getV 0, t.getV VF)) = some (0, 1) ∧
    after (.addReg 0 1) (v01 0xFF 0xFF) (fun t => (t.getV 0, t.getV VF)) = some (0xFE, 1) := by decide

/-- A10, A11. -/
theorem test_add_reg_flag_operand : after (.addReg 15 1) (v1f 0xF5 0x10) (·.getV VF) = some 5 ∧
    after (.addReg 0 15) (v0f 1 0xFF) (fun t => (t.getV 0, t.getV VF)) = some (0, 1) := by decide

/-- A13, A14. -/
theorem test_sub : after (.sub 0 1) (v01 3 5) (fun t => (t.getV 0, t.getV VF)) = some (0xFE, 0) ∧
    after (.sub 0 1) (v01 7 7) (fun t => (t.getV 0, t.getV VF)) = some (0, 0) := by decide

/-- A16, A17. -/
theorem test_sub_flag_operand : after (.sub 0 15) (v0f 5 3) (fun t => (t.getV 0, t.getV VF)) = some (4, 1) ∧
    after (.sub 15 1) (v1f 3 5) (·.getV VF) = some 0xFE := by decide

/-- A20, A23. -/
theorem test_shr : after (.shr 0 0) (v01 0xFF 0) (fun t => (t.getV 0, t.getV VF)) = some (0x7F, 1) ∧
    after (.shr 15 0) (s0.setV VF 3) (·.getV VF) = some 0 := by decide

/-- A24, A27. -/
theorem test_subn : after (.subn 0 1) (v01 3 5) (fun t => (t.getV 0, t.getV VF)) = some (4, 0) ∧
    after (.subn 0 1) (v01 5 5) (·.getV 0) = some 5 := by decide

/-- A29, A30. -/
theorem test_subn_flag_operand : after (.subn 15 1) (v1f 5 3) (·.getV VF) = some 4 ∧
    after (.subn 0 15) (v0f 2 9) (fun t => (t.getV 0, t.getV VF)) = some (8, 9) := by decide

/-- A33, A34. -/
theorem test_shl : after (.shl 0 0) (v01 0xFF 0) (fun t => (t.getV 0, t.getV VF)) = some (0xFE, 0x80) ∧
    after (.shl 15 0) (s0.setV VF 0xC0) (·.getV VF) = some 0 := by decide

/-- M1, M2. -/
theorem test_sne_reg : after (.sneReg 1 2) ((s0.setV 1 0x22).setV 2 0x23) (·.pc) = some 0x204 ∧
    after (.sneReg 1 2) ((s0.setV 1 0x22).setV 2 0x22) (·.pc) = some 0x202 := by decide

/-- M6. -/
theorem test_ld_i : after (.ldI 0xFFF) (s0.setI 0x1234) (·.i) = some 0x0FFF := by decide

/-- M9, M10: not reduced to 12 bits. -/
theorem test_jp_v0 : after (.jpV0 0xFF8) (s0.setV 0 0x10) (·.pc) = some 0x1008 ∧
    after (.jpV0 0xFFF) (s0.setV 0 0xFF) (·.pc) = some 0x10FE := by decide

/-- M11 to M13 for every value the free byte can have: the mask is applied to it, and V3 alone is written. -/
theorem test_rnd (kk : Byte) : after (.rnd 3 kk) s0 (fun t => (t.getV 3, t.draws)) =
    some (BitVec.ofNat 8 (drawRand 0).val &&& kk, 1) := rfl

/-- M14: 14 pixels and no collision; the first row is F0. -/
theorem test_drw : after (.drw 0 1 5) s0 (fun t => (t.fb.lit.length, t.fb.lit.take 4, t.getV VF)) =
    some (14, [0, 1, 2, 3], 0) := by decide

/-- M17: the sprite wraps in x. -/
theorem test_drw_wraps : after (.drw 0 1 1) (v01 0x3E 0x1F) (fun t => (t.fb.lit, t.getV VF)) =
    some ([31 * 64, 31 * 64 + 1, 31 * 64 + 62, 31 * 64 + 63], 0) := by decide

/-- E1, E2, E5. -/
theorem test_skp : after (.skp 2) ((s0.setV 2 5).setKey 5 true) (·.pc) = some 0x204 ∧
    after (.skp 2) (s0.setV 2 5) (·.pc) = some 0x202 ∧
    after (.skp 2) (s0.setV 2 0x10) (fun t => (t.pc, t.status)) = some (0x202, .faulted (.keyRange 0x10)) := by decide

/-- E3, E4. -/
theorem test_sknp : after (.sknp 2) (s0.setV 2 5) (·.pc) = some 0x204 ∧
    after (.sknp 2) ((s0.setV 2 5).setKey 5 true) (·.pc) = some 0x202 := by decide

/-- T1. -/
theorem test_ld_vx_dt : after (.ldVxDt 3) (s0.setDt 0x3C) (·.getV 3) = some 0x3C := by decide

/-- T2. -/
theorem test_ld_vx_k : after (.ldVxK 5) s0 (fun t => (t.status, t.pc, t.getV 5)) = some (.waiting 5, 0x202, 0) := by
  decide

/-- T3. -/
theorem test_press : afterStep ((s0.setStatus (.waiting 5)).setHost [.press 0xB])
    (fun t => (t.getV 5, t.status, t.pc)) = some (0xB, .running, 0x202) := by decide

/-- T4. -/
theorem test_shutdown_aborts : afterStep ((s0.setStatus (.waiting 5)).setHost [.shutdown])
    (fun t => (t.getV 5, t.status)) = some (0, .aborted) := by decide

/-- T5. -/
theorem test_ld_dt_vx : after (.ldDtVx 3) (s0.setV 3 0x3C) (fun t => (t.dt, t.st)) = some (0x3C, 0) := by decide

/-- T6. -/
theorem test_ld_st_vx : after (.ldStVx 3) (s0.setV 3 0x0A) (fun t => (t.dt, t.st)) = some (0, 0x0A) := by decide

/-- T8, T9. -/
theorem test_add_i_vx : after (.addIVx 0) ((s0.setI 0x0FFF).setV 0 1) (·.i) = some 0x1000 ∧
    after (.addIVx 0) ((s0.setI 0xFFFF).setV 0 2) (·.i) = some 1 := by decide

/-- T11, T13. -/
theorem test_ld_f_vx : after (.ldFVx 0) (s0.setV 0 0x0A) (·.i) = some 0x32 ∧
    after (.ldFVx 0) (s0.setV 0 0xFF) (·.i) = some 0x04FB := by decide

/-- T15: the dump overwrites the digits. -/
theorem test_ld_b_vx : after (.ldBVx 1) ((v01 0xAA 0xFF).setI 0x300) (bytesAt 0x300 3) =
    some [some 0xAA, some 0xFF, some 5] := by decide

/-- T19: the digits before the fault stay stored. -/
theorem test_ld_b_vx_fault : after (.ldBVx 0) ((s0.setV 0 0x7B).setI 0xFFE)
    (fun t => (bytesAt 0xFFE 2 t, t.status)) = some ([some 1, some 2], .faulted (.memRange 0x1000)) := by decide

/-- T20. -/
theorem test_ld_mem_vx : after (.ldMemVx 2) (((v01 1 2).setV 2 3).setI 0x300) (fun t => (bytesAt 0x300 3 t, t.i)) =
    some ([some 1, some 2, some 3], 0x300) := by decide

/-- T22. -/
theorem test_ld_mem_vx_fault : after (.ldMemVx 2) (((v01 1 2).setV 2 3).setI 0xFFE)
    (fun t => (bytesAt 0xFFE 2 t, t.status)) = some ([some 1, some 2], .faulted (.memRange 0x1000)) := by decide

/-- T24. -/
theorem test_ld_vx_mem : after (.ldVxMem 2) ((withMem 0x300 [1, 2, 3] s0).setI 0x300)
    (fun t => (t.getV 0, t.getV 1, t.getV 2, t.getV 3, t.i)) = some (1, 2, 3, 0, 0x300) := by decide

/-- T26. -/
theorem test_ld_vx_mem_fault : after (.ldVxMem 2) ((withMem 0xFFE [0xAA, 0xBB] s0).setI 0xFFE)
    (fun t => (t.getV 0, t.getV 1, t.getV 2, t.status)) = some (0xAA, 0xBB, 0, .faulted (.memRange 0x1000)) := by decide

/-- A35. -/
theorem test_nop : after (.nop 0x8018) (v01 1 2) id = some (v01 1 2) := by decide

/-! ## The host's step -/

/-- "A PC of 0x0000 before load is never used to fetch" (70_reset_and_hazards.md R144); a second load is refused. -/
theorem test_no_step_before_load : stateOf (step State.reset) = none ∧
    (stateOf (load [0x60, 0x05] State.reset)).map (fun t => (t.pc, t.loaded, bytesAt 0x200 3 t)) =
      some (0x200, true, [some 0x60, some 0x05, some 0]) ∧ stateOf (load [] s0) = none := by decide

/-- Another GLYPH_TABLE: its first byte is at 0x005 and digit 0's glyph stays (20_memory.md R44, R45). -/
theorem test_other_glyphs : bytesAt 3 4 (State.resetWith (Vector.replicate 75 0xAA)) =
    [some 0x90, some 0xF0, some 0xAA, some 0xAA] := by decide

/-- S6, its first step: the loaded instruction runs as the first one. -/
theorem test_step_first : afterStep (State.reset.withFetchWord 16 0x6005) (fun t => (t.getV 0, t.pc)) =
    some (5, 0x202) := by decide

/-- H3, H4. -/
theorem test_step_edge : afterStep ((withMem 0xFFE [0x12, 0x34] s0).setPc 0xFFE) (·.pc) = some 0x234 ∧
    afterStep (s0.setPc 0xFFF) (fun t => (t.pc, t.status)) = some (0xFFF, .faulted (.memRange 0xFFF)) := by decide

/-- H1, H2. -/
theorem test_tick : afterStep ((s0.setDt 5).setHost [.tick]) (fun t => (t.dt, t.st)) = some (4, 0) ∧
    afterStep ((s0.setSt 1).setHost [.tick]) (fun t => (t.dt, t.st)) = some (0, 0) := by decide

/-- A Faulted machine takes no step (70_reset_and_hazards.md R152). -/
theorem test_step_after_fault : stateOf (step (s0.setStatus (.faulted (.stackRange 16)))) = none := by decide

/-- The cause codes and the info each fault records (60_exceptions.md R118). -/
theorem test_fault_codes : (Fault.memRange 0x1000).code = 1 ∧ (Fault.stackRange 16).code = 2 ∧
    (Fault.keyRange 0xFF).code = 3 ∧ (Fault.memRange 0x1000).info = 0x1000 ∧ (Fault.keyRange 0xFF).info = 255 := by
  decide

/-- A write of the reset contents takes the entry out again, so equal memories are equal data. -/
theorem test_memory_canonical : (Memory.put (Memory.put [] 0x300 7) 0x300 0) = [] ∧
    (Memory.put (Memory.put [] 0 7) 0 0xF0) = [] ∧ State.reset.mem.wf = true := by decide

/-! ## Witnesses: states and operands that meet the hypotheses of each statement -/

theorem witness_EveryEncodedInstructionDecodesBack : (Instr.nop 0x0FFF).wellFormed decoderDefaults = true ∧
    (Instr.nop 0x512F).wellFormed checked = true ∧ (Instr.drw 15 15 15).wellFormed decoderDefaults = true := by decide

theorem witness_EveryWordIsTheEncodingOfItsInstruction : decoderDefaults.family0 = .word ∧ checked.family0 = .word ∧
    fieldF 0x9FFF = 9 ∧ fieldF 0x5000 = 5 ∧ fieldF 0x8FFF = 8 := by decide

theorem witness_DispatchAgreesWithTheOpcodeMap : (⟨.shl, 0x800E, 0xF00F⟩ : OpcodeRow) ∈ opcodeRows checked ∧
    noOpWord checked 0x9001 = true := by decide

theorem witness_FamilyZeroFollowsItsSelector : fieldF 0x00E0 = 0 ∧ fieldF 0x0FFE = 0 ∧ fieldF 0x0000 = 0 := by decide

/-- A row a word hits, a no-op word, and two words of family 5 that differ in their unchecked low nibble. -/
theorem witness_DecodedInstructionKeepsItsWord :
    (⟨.seReg, 0x5000, 0xF000⟩ : OpcodeRow) ∈ opcodeRows decoderDefaults ∧
    OpcodeRow.hits ⟨.seReg, 0x5000, 0xF000⟩ 0x512F = true ∧ noOpWord decoderDefaults 0x8FFF = true ∧
    decoderDefaults.checkLowNibble = false ∧ fieldF 0x512F = 5 ∧ fieldF 0x9120 = 9 ∧
    (0x512F : Word) &&& 0xFFF0 = 0x5120 &&& 0xFFF0 := by decide

/-- The last byte and the last word of memory. -/
theorem witness_MemoryRoundTrip : Memory.wf [(0x300, 7)] = true ∧ 0xFFF < 4096 ∧ 0xFFE + 1 < 4096 := by decide

theorem witness_WritesKeepTheCanonicalForm : Memory.wf [(0x300, 7)] = true ∧
    Memory.write [(0x300, 7)] 0xFFF 1 = some [(0x300, 7), (0xFFF, 1)] ∧ Memory.write [(0x300, 7)] 0x1000 1 = none ∧
    Memory.read [(0x300, 7)] 0x1000 = none ∧ Memory.readWord [(0x300, 7)] 0xFFF = none := by decide

theorem witness_MemoriesThatReadAlikeAreEqual : ∃ m m' : Memory, m.wf = true ∧ m'.wf = true ∧
    ∀ a, m.read a = m'.read a :=
  ⟨[(0x300, 7)], Memory.put [] 0x300 7, by decide, by decide, fun _ => rfl⟩

/-- Fifteen rows that end at the last byte. -/
theorem witness_ClearScreen : s0.fb.wf = true ∧ 8 ≤ s0.fb.width ∧ (15 : RowCount).val ≤ s0.fb.height ∧
    (s0.setI 0xFF1).i.toNat + (15 : RowCount).val ≤ 4096 := by decide

/-- SP = 0 and 15 pop; SP = 16 and 255 fault. -/
theorem witness_ReturnPopsPc : (0 : Fin 16).val = s0.sp.toNat ∧ (15 : Fin 16).val = (s0.setSp 15).sp.toNat ∧
    16 ≤ (s0.setSp 16).sp.toNat ∧ 16 ≤ (s0.setSp 0xFF).sp.toNat := by decide

/-- A self-jump in the last word of memory, and a jump to the last byte. -/
theorem witness_JumpWritesOnlyPc :
    let s := (withMem 0xFFE [0x1F, 0xFE] s0).setPc 0xFFE
    s.loaded = true ∧ s.status = .running ∧ s.host = [] ∧ s.pc = (0xFFE : Addr).setWidth 16 ∧ (0xFFE : Addr).toNat + 1 < 4096 ∧
    s.mem.readWord (0xFFE : Addr).toNat = some (encode (.jp 0xFFE)) ∧
    (0x1FFF : Word) &&& 0xF000 = 0x1000 ∧ ∃ t, exec (.jp 0xFFF) s = .next t :=
  ⟨by decide, by decide, by decide, by decide, by decide, by decide, by decide, _, rfl⟩

/-- SP = 14 pushes slot 15 and SP = 255 slot 0; SP = 15 and 254 fault. -/
theorem witness_CallPushesPc : (15 : Fin 16).val = ((s0.setSp 14).sp + 1).toNat ∧
    (0 : Fin 16).val = ((s0.setSp 0xFF).sp + 1).toNat ∧ 16 ≤ ((s0.setSp 15).sp + 1).toNat ∧
    16 ≤ ((s0.setSp 0xFE).sp + 1).toNat := by decide

theorem witness_ReturnUndoesCall : ((s0.setSp 14).sp + 1).toNat < 16 ∧ ((s0.setSp 0xFF).sp + 1).toNat < 16 := by decide

/-- Fifteen pushes from SP = 0, none at SP = 15. -/
theorem witness_PushesThenPopsReverse : s0.sp.toNat + (List.replicate 15 (0x202 : Word)).length ≤ 15 ∧
    (s0.setSp 15).sp.toNat + ([] : List Word).length ≤ 15 := by decide

theorem witness_IndexedJumpAddsV0 : (0xBFFF : Word) &&& 0xF000 = 0xB000 := by decide

theorem witness_ImmediateSkips : (0x3FFF : Word) &&& 0xF000 = 0x3000 ∧ (0x4000 : Word) &&& 0xF000 = 0x4000 := by decide

/-- Key numbers 0 and 15 are keys; 16 and 255 fault. -/
theorem witness_KeySkips : (0xEF9E : Word) &&& 0xF0FF = 0xE09E ∧ (0xE0A1 : Word) &&& 0xF0FF = 0xE0A1 ∧
    (s0.getV 2).toNat = (0 : Key).val ∧ ((s0.setV 2 15).getV 2).toNat = (15 : Key).val ∧
    15 < ((s0.setV 2 16).getV 2).toNat ∧ 15 < ((s0.setV 2 0xFF).getV 2).toNat := by decide

theorem witness_LoadAndAddConstant : (0x6FFF : Word) &&& 0xF000 = 0x6000 ∧ (0x7000 : Word) &&& 0xF000 = 0x7000 := by
  decide

theorem witness_CopyAndLogic : (0x8FF0 : Word) &&& 0xF00F = 0x8000 ∧ (0x8011 : Word) &&& 0xF00F = 0x8001 ∧
    (0x8012 : Word) &&& 0xF00F = 0x8002 ∧ (0x8013 : Word) &&& 0xF00F = 0x8003 := by decide

/-- The cases of the registers in the additions, subtractions and shifts. -/
theorem witness_register_cases : (0 : Reg) ≠ VF ∧ (14 : Reg) ≠ VF ∧ (15 : Reg) = VF ∧ (14 : Reg) ≠ (15 : Reg) := by
  decide

theorem witness_IndexLoads : (0xAFFF : Word) &&& 0xF000 = 0xA000 ∧ (0xFF29 : Word) &&& 0xF0FF = 0xF029 := by decide

/-- No rows at any I; rows that end at the last byte; one row too many. -/
theorem witness_DrawReadsThenDraws : (0 : RowCount).val = 0 ∧ (s0.setI 0xFFB).i.toNat + (5 : RowCount).val ≤ 4096 ∧
    0 < (1 : RowCount).val ∧ 4096 < (s0.setI 0x1000).i.toNat + (1 : RowCount).val := by decide

theorem witness_SpriteIsXoredPixelByPixel : (s0.fb.flip 63 31).wf = true ∧ 8 ≤ s0.fb.width ∧
    (List.replicate 32 (0xFF : Byte)).length ≤ s0.fb.height ∧ 63 < s0.fb.width ∧ 31 < s0.fb.height := by decide

theorem witness_DrawingTwiceRestoresTheScreen : (s0.fb.flip 63 31).wf = true := by decide

theorem witness_TimerMoves : (0xFF07 : Word) &&& 0xF0FF = 0xF007 ∧ (0xF015 : Word) &&& 0xF0FF = 0xF015 ∧
    (0xF318 : Word) &&& 0xF0FF = 0xF018 := by decide

/-- A waiting machine with a press, or a shutdown, pending. -/
theorem witness_KeyWaitBeginsAndEnds :
    ((s0.setStatus (.waiting 15)).setHost [.press 15]).status = .waiting 15 ∧
    ((s0.setStatus (.waiting 15)).setHost [.press 15]).host = .press 15 :: [] ∧
    ((s0.setStatus (.waiting 15)).setHost [.pressCode 7]).host = .pressCode 7 :: [] ∧
    ((s0.setStatus (.waiting 0)).setHost [.shutdown]).host = .shutdown :: [] := by decide

theorem witness_WaitingMachineExecutesNothing : (s0.setStatus (.waiting 0)).status = .waiting 0 ∧
    (∀ k, (s0.setStatus (.waiting 0)).host.head? ≠ some (.press k)) ∧
    ∀ c, (s0.setStatus (.waiting 0)).host.head? ≠ some (.pressCode c) :=
  ⟨by decide, by decide, fun _ => nofun⟩

/-- The boundary values of I: 4093 and V2 fit; 4093 and V3, 4094, 4095 and 4096 fault. -/
theorem witness_BcdStoreFallsThrough : s0.mem.wf = true ∧ (s0.setI 0xFFD).i.toNat + max 3 ((2 : Reg).val + 1) ≤ 4096 ∧
    (s0.setI 0xFF0).i.toNat + max 3 ((15 : Reg).val + 1) ≤ 4096 ∧ (0 : Reg).val < 1 ∧ (1 : Reg).val < 2 ∧
    4096 < (s0.setI 0xFFD).i.toNat + max 3 ((3 : Reg).val + 1) ∧ (s0.setI 0xFFD).i.toNat + 3 ≤ 4096 ∧
    (s0.setI 0xFFD).i.toNat + (2 : Reg).val < 4096 ∧
    4096 < (s0.setI 0xFFE).i.toNat + 3 ∧ (s0.setI 0xFFE).i.toNat + 1 < 4096 ∧
    4096 < (s0.setI 0xFFF).i.toNat + 3 ∧ (s0.setI 0xFFF).i.toNat < 4096 ∧
    4096 < (s0.setI 0x1000).i.toNat + max 3 ((0 : Reg).val + 1) := by decide

/-- Sixteen registers that end at the last byte; one too many; a register below and one at the limit. -/
theorem witness_RegisterDump : s0.mem.wf = true ∧ (s0.setI 0xFF0).i.toNat + ((15 : Reg).val + 1) ≤ 4096 ∧
    4096 < (s0.setI 0xFF1).i.toNat + ((15 : Reg).val + 1) ∧ (s0.setI 0xFF1).i.toNat + (14 : Reg).val < 4096 := by decide

theorem witness_RegisterLoad : (s0.setI 0xFF0).i.toNat + ((15 : Reg).val + 1) ≤ 4096 ∧
    4096 < (s0.setI 0xFF1).i.toNat + ((15 : Reg).val + 1) ∧ (s0.setI 0xFF1).i.toNat + (14 : Reg).val < 4096 ∧
    4096 ≤ (s0.setI 0xFF1).i.toNat + (15 : Reg).val ∧ (2 : Reg) < 3 := by decide

theorem witness_DumpThenLoadRestoresRegisters : ∃ s t u : State, s.mem.wf = true ∧
    s.i.toNat + ((15 : Reg).val + 1) ≤ 4096 ∧ exec (.ldMemVx 15) s = .next t ∧ u.mem = t.mem ∧ u.i = t.i ∧
    u.getV 15 ≠ s.getV 15 :=
  ⟨(s0.setI 0xFF0).setV 15 9, (withMem 0xFFF [9] (s0.setI 0xFF0)).setV 15 9, withMem 0xFFF [9] (s0.setI 0xFF0),
    by decide, by decide, rfl, rfl, rfl, by decide⟩

theorem witness_NoOpChangesNothing : noOpWord checked 0x5001 = true ∧ s0.loaded = true ∧ s0.status = .running ∧ s0.host = [] ∧
    (s0.setHost [.step, .tick]).host = .step :: [.tick] ∧ s0.mem.readWord s0.pc.toNat = some 0 ∧ noOpWord decoderDefaults 0 = true := by decide

/-- A well-formed instruction in the last word of memory, the host about to step or with nothing else to do. -/
theorem witness_StepRunsTheInstructionAtPc :
    let s := (withMem 0xFFE [0x12, 0x34] s0).setPc 0xFFE
    s.loaded = true ∧ s.status = .running ∧ (s.setHost [.step, .tick]).host = .step :: [.tick] ∧ s.host = [] ∧
    (Instr.jp 0x234).wellFormed decoderDefaults = true ∧ s.pc.toNat + 1 < 4096 ∧
    s.mem.read s.pc.toNat = some (highByte (encode (.jp 0x234))) ∧
    s.mem.read (s.pc.toNat + 1) = some (lowByte (encode (.jp 0x234))) := by decide

theorem witness_StepDecodesTheWordAtPc : s0.loaded = true ∧ s0.status = .running ∧ s0.host = [] ∧
    s0.mem.read s0.pc.toNat = some 0 ∧ s0.mem.read (s0.pc.toNat + 1) = some 0 := by decide

theorem witness_FetchFaultLeavesPc : s0.loaded = true ∧ s0.status = .running ∧ s0.host = [] ∧ 0xFFF ≤ (s0.setPc 0xFFF).pc.toNat ∧
    (s0.setHost [.step]).host = .step :: [] := by decide

theorem witness_HostTicksAndKeyChanges : s0.ended = false ∧ (s0.setStatus (.waiting 3)).ended = false ∧
    (s0.setHost [.tick]).host = .tick :: [] ∧ (s0.setHost [.setDown 15]).host = .setDown 15 :: [] ∧
    (s0.setHost [.setUp 0]).host = .setUp 0 :: [] := by decide

theorem witness_StepIsRefusedExactlyOutsideARun :
    (s0.setStatus (.faulted (.keyRange 16))).status = .faulted (.keyRange 16) ∧
    (s0.setStatus .aborted).status = .aborted ∧ (s0.setHost [.shutdown]).host = .shutdown :: [] ∧
    s0.status = .running ∧ s0.ended = false ∧ State.reset.status = .running ∧ State.reset.loaded = false ∧
    State.reset.host = [] ∧ (State.reset.setHost [.tick]).host ≠ [] := by decide

/-- A Running state in which each kind of fault is expected, and one in which none is. -/
theorem witness_FaultsAreThoseOfTheTable : s0.status = .running ∧ expectedFault .ret s0 = none ∧
    expectedFault .ret (s0.setSp 16) = some (.stackRange 16) ∧
    expectedFault (.skp 0) (s0.setV 0 16) = some (.keyRange 16) ∧
    expectedFault (.ldVxMem 1) (s0.setI 0xFFF) = some (.memRange 0x1000) := by decide

/-- A next state of an instruction that changes none of the places named, and of one that changes memory. -/
theorem witness_OnlyTheirInstructionsWrite : (∃ t, exec (.ldI 0x300) s0 = .next t) ∧
    (∃ t, exec (.ldMemVx 0) (s0.setI 0x300) = .next t) ∧ Opcode.ldI ∉ [Opcode.ldBVx, Opcode.ldMemVx] :=
  ⟨⟨_, rfl⟩, ⟨_, rfl⟩, by decide⟩

theorem witness_EveryStepKeepsTheInvariant : s0.wf = true ∧ ∃ t, stepWith checked s0 = .next t :=
  ⟨by decide, _, rfl⟩

theorem witness_HostActionsNeverFault : (s0.setHost [.press 3]).status = .running ∧
    (s0.setHost [.press 3]).host = .press 3 :: [] ∧ HostAction.press 3 ≠ .step ∧
    ∃ t, step (s0.setHost [.press 3]) = .next t :=
  ⟨by decide, by decide, by decide, _, rfl⟩

/-- A dump of two registers onto the last word of memory. -/
theorem witness_StoredCodeIsFetchedNext :
    let s := (s0.setI 0xFFE).setPc 0xFFE
    s.mem.wf = true ∧ 1 ≤ (1 : Reg).val ∧ s.i = s.pc ∧ s.i.toNat + ((1 : Reg).val + 1) ≤ 4096 ∧
    ∃ t, exec (.ldMemVx 1) s = .next t :=
  ⟨by decide, by decide, by decide, by decide, _, rfl⟩

/-- The longest image, and one byte more. -/
theorem witness_ProgramLoad : State.reset.mem.wf = true ∧ State.reset.loaded = false ∧ s0.loaded = true ∧
    s0.mem.wf = true ∧ (List.replicate 3584 (0 : Byte)).length ≤ 3584 ∧
    3584 < (List.replicate 3585 (0 : Byte)).length :=
  ⟨by decide, by decide, by decide, by decide, Nat.le_of_eq List.length_replicate, Nat.lt_of_lt_of_eq (by decide) List.length_replicate.symm⟩

theorem witness_ResetUnderAnyGlyphTable : 4 < 5 ∧ 74 < 75 ∧ 0x050 ≤ 0xFFF ∧ 0xFFF < 4096 := by decide

/-- Reset, with a tick pending or nothing, and an empty image loaded. -/
theorem witness_FirstInstructionIsTheOneAt0x200 : State.reset.loaded = false ∧ State.reset.status = .running ∧
    State.reset.host = [] ∧ (State.reset.setHost [.step]).host = .step :: [] ∧
    (∃ t, step (State.reset.setHost [.tick]) = .next t) ∧ ∃ t, load [] State.reset = .next t :=
  ⟨by decide, by decide, by decide, by decide, ⟨_, rfl⟩, _, rfl⟩

theorem witness_LoadedInstructionRunsFirst : s0.mem.wf = true ∧ (Instr.ldImm 0 5).wellFormed decoderDefaults = true ∧
    (Instr.nop 0).wellFormed decoderDefaults = true := by decide

end Sys2Proof.Tests
end

section
/-! PROOF. The round trip of the memory array (20_memory.md R53). -/

namespace Sys2Proof.Machine

open Config

/-- Appending bytes is R53's shift-and-or: the one before is the high byte (big-endian, R35). -/
theorem byte_append_eq_shiftLeft_or (hi lo : Byte) :
    (hi ++ lo : Word) = hi.setWidth 16 <<< 8 ||| lo.setWidth 16 := by
  rw [BitVec.append_def, BitVec.setWidth'_eq, BitVec.shiftLeftZeroExtend_eq]

/-- A byte written in range to a canonical memory reads back. -/
theorem Memory.exists_write_read_self {m : Memory} (hm : m.wf = true) {a : Nat} (b : Byte) (ha : a < memSize) :
    ∃ m', m.write a b = some m' ∧ m'.read a = some b :=
  ⟨m.put a b, Memory.write_of_lt b ha, by rw [Memory.read_put b ha hm, if_pos rfl]⟩

/-- Settles O8: the byte half is the read-after-write law, and the word read is the append of the two bytes read. -/
theorem memoryRoundTrip : Obligations.MemoryRoundTrip := by
  intro m hm
  refine ⟨fun a b ha => Memory.exists_write_read_self hm b ha, fun a ha => ?_⟩
  have hlow : a < memSize := Nat.lt_of_succ_lt ha
  refine ⟨m.look a, m.look (a + 1), Memory.read_of_lt hlow, Memory.read_of_lt ha, ?_⟩
  rw [Memory.readWord_of_lt ha, byte_append_eq_shiftLeft_or]

end Sys2Proof.Machine
end

section
/-! PROOF. The no-op class (30_encoding.md R59, R65; 40_engine.md R73, R78): what the dispatch answers is NOP or the
instruction of a row the word matches, so a word that matches no row is a NOP, and the step over it moves PC alone. -/

namespace Sys2Proof.Laws.RowMatch

open Sys2Proof Config

/-- `i` is the no-op of `w`, or the instruction of a row that `w` matches. -/
def NopOrRowHit (p : DecoderParams) (w : Word) (i : Instr) : Prop :=
  i = .nop w ∨ ∃ r ∈ opcodeRows p, r.op = i.opcode ∧ r.hits w = true

/-! ### One rule for each mask; that the row stands in its list is a closed computation -/

theorem nopOrRowHit_top {p : DecoderParams} {w : Word} {i : Instr} {f : Nat} (hf : fieldF w = f)
    (hr : topRows.elem ⟨i.opcode, BitVec.ofNat 16 (f * 0x1000), 0xF000⟩ = true) : NopOrRowHit p w i :=
  .inr ⟨_, mem_of_top (List.mem_of_elem_eq_true hr), rfl, hits_top (hf ▸ fieldF_lt w) hf⟩

theorem nopOrRowHit_nibble {p : DecoderParams} {w : Word} {i : Instr} {n : Nat} (hf : fieldF w = 0x8)
    (hn : (fieldN w).val = n) (hr : family8Rows.elem ⟨i.opcode, BitVec.ofNat 16 (0x8 * 0x1000 + n), 0xF00F⟩ = true) :
    NopOrRowHit p w i :=
  .inr ⟨_, mem_of_family8 (List.mem_of_elem_eq_true hr), rfl, hits_nibble (by decide) (hn ▸ (fieldN w).isLt) hf hn⟩

theorem nopOrRowHit_byte {p : DecoderParams} {w : Word} {i : Instr} {f : Nat} {kk : Byte} (hf : fieldF w = f)
    (hk : fieldKK w = kk)
    (hr : familyEFRows.elem ⟨i.opcode, BitVec.ofNat 16 (f * 0x1000 + kk.toNat), 0xF0FF⟩ = true) : NopOrRowHit p w i :=
  .inr ⟨_, mem_of_familyEF (List.mem_of_elem_eq_true hr), rfl,
    hits_byte (hf ▸ fieldF_lt w) kk.isLt hf (congrArg BitVec.toNat hk)⟩

/-! ### One lemma for each part of the dispatch (R60 to R64) -/

/-- The row of family 0 whose low byte is `v` (R60). -/
def family0Row (op : Opcode) (v : Byte) : Family0Select → OpcodeRow
  | .word => ⟨op, v.setWidth 16, 0xFFFF⟩
  | .low8 => ⟨op, BitVec.ofNat 16 (0x0 * 0x1000 + v.toNat), 0xF0FF⟩
  | .low4 => ⟨op, BitVec.ofNat 16 (0x0 * 0x1000 + (v.setWidth 4).toNat), 0xF00F⟩

theorem family0Rows_eq (sel : Family0Select) :
    family0Rows sel = [family0Row .cls 0xE0 sel, family0Row .ret 0xEE sel] := by
  cases sel <;> rfl

theorem family0Row_op (op : Opcode) (v : Byte) (sel : Family0Select) : (family0Row op v sel).op = op := by
  cases sel <;> rfl

/-- A family-0 word that selects a row matches it. -/
theorem family0Row_hits_of_sel0 {sel : Family0Select} {w : Word} {v : Byte} (hf : fieldF w = 0x0)
    (h : sel0 sel w v = true) (op : Opcode) : (family0Row op v sel).hits w = true := by
  cases sel with
  | word =>
    have hw : w = v.setWidth 16 := beq_iff_eq.mp h
    exact beq_iff_eq.mpr ((BitVec.and_allOnes (x := w)).trans hw)
  | low8 =>
    have hkk : fieldKK w = v := beq_iff_eq.mp h
    exact hits_byte (by decide) v.isLt hf (congrArg BitVec.toNat hkk)
  | low4 =>
    have hn : w.setWidth 4 = v.setWidth 4 := beq_iff_eq.mp h
    have hval : (fieldN w).val = (w.setWidth 4).toNat := (BitVec.toNat_setWidth 4 w).symm
    exact hits_nibble (by decide) (v.setWidth 4).isLt hf (hval.trans (congrArg BitVec.toNat hn))

theorem nopOrRowHit_decode0 (p : DecoderParams) {w : Word} (hf : fieldF w = 0x0) : NopOrRowHit p w (decode0 p w) := by
  unfold decode0
  split_ifs with hcls hret
  · exact .inr ⟨_, mem_of_family0 (by simp [family0Rows_eq]), family0Row_op .cls _ _, family0Row_hits_of_sel0 hf hcls _⟩
  · exact .inr ⟨_, mem_of_family0 (by simp [family0Rows_eq]), family0Row_op .ret _ _, family0Row_hits_of_sel0 hf hret _⟩
  · exact .inl rfl

theorem nopOrRowHit_decodeLowNibble {p : DecoderParams} {w : Word} {i : Instr} {f : Nat} (hf : fieldF w = f)
    (hr : ⟨i.opcode, BitVec.ofNat 16 (f * 0x1000), if p.checkLowNibble then 0xF00F else 0xF000⟩ ∈
      lowNibbleRows p.checkLowNibble) : NopOrRowHit p w (decodeLowNibble p w i) := by
  have hlt : f < 16 := hf ▸ fieldF_lt w
  unfold decodeLowNibble
  split_ifs with hn
  · exact .inl rfl
  · refine .inr ⟨_, mem_of_lowNibble hr, rfl, ?_⟩
    cases hc : p.checkLowNibble with
    | false => exact hits_top (op := i.opcode) hlt hf
    | true =>
      have hn0 : (fieldN w).val = 0 := by simpa [hc] using hn
      have hhit := hits_nibble (op := i.opcode) hlt (by decide) hf hn0
      rw [Nat.add_zero] at hhit
      exact hhit

theorem nopOrRowHit_decode8 (p : DecoderParams) {w : Word} (hf : fieldF w = 0x8) : NopOrRowHit p w (decode8 w) := by
  unfold decode8
  split
  case h_10 => exact .inl rfl
  all_goals exact nopOrRowHit_nibble hf ‹(fieldN w).val = _› rfl

theorem nopOrRowHit_decodeE (p : DecoderParams) {w : Word} (hf : fieldF w = 0xE) : NopOrRowHit p w (decodeE w) := by
  unfold decodeE
  split_ifs with hskp hsknp
  · exact nopOrRowHit_byte hf hskp rfl
  · exact nopOrRowHit_byte hf hsknp rfl
  · exact .inl rfl

theorem nopOrRowHit_decodeF (p : DecoderParams) {w : Word} (hf : fieldF w = 0xF) : NopOrRowHit p w (decodeF w) := by
  unfold decodeF
  split_ifs
  case neg => exact .inl rfl
  all_goals exact nopOrRowHit_byte hf ‹fieldKK w = _› rfl

/-- The dispatch answers NOP or the instruction of a row that the word matches (R58, R59). -/
theorem nopOrRowHit_decodeWith (p : DecoderParams) (w : Word) : NopOrRowHit p w (decodeWith p w) := by
  have hlt := fieldF_lt w
  interval_cases hf : fieldF w
  · exact decode_family_0 hf ▸ nopOrRowHit_decode0 p hf
  · exact decode_family_1 hf ▸ nopOrRowHit_top hf rfl
  · exact decode_family_2 hf ▸ nopOrRowHit_top hf rfl
  · exact decode_family_3 hf ▸ nopOrRowHit_top hf rfl
  · exact decode_family_4 hf ▸ nopOrRowHit_top hf rfl
  · exact decode_family_5 hf ▸ nopOrRowHit_decodeLowNibble hf (by simp [lowNibbleRows, Instr.opcode])
  · exact decode_family_6 hf ▸ nopOrRowHit_top hf rfl
  · exact decode_family_7 hf ▸ nopOrRowHit_top hf rfl
  · exact decode_family_8 hf ▸ nopOrRowHit_decode8 p hf
  · exact decode_family_9 hf ▸ nopOrRowHit_decodeLowNibble hf (by simp [lowNibbleRows, Instr.opcode])
  · exact decode_family_A hf ▸ nopOrRowHit_top hf rfl
  · exact decode_family_B hf ▸ nopOrRowHit_top hf rfl
  · exact decode_family_C hf ▸ nopOrRowHit_top hf rfl
  · exact decode_family_D hf ▸ nopOrRowHit_top hf rfl
  · exact decode_family_E hf ▸ nopOrRowHit_decodeE p hf
  · exact decode_family_F hf ▸ nopOrRowHit_decodeF p hf

/-- A word of the no-op class matches no row, so its decoding is NOP (R65, R78). -/
theorem decodeWith_of_noOpWord {p : DecoderParams} {w : Word} (h : noOpWord p w = true) : decodeWith p w = .nop w := by
  refine (nopOrRowHit_decodeWith p w).resolve_right fun ⟨r, hr, _, hhit⟩ => ?_
  have hany : (opcodeRows p).any (·.hits w) = true := List.any_eq_true.mpr ⟨r, hr, hhit⟩
  simp [noOpWord, hany] at h

end Sys2Proof.Laws.RowMatch

namespace Sys2Proof.Machine

open Config

/-- NOP has no effect (R78). -/
@[simp] theorem exec_nop (w : Word) (s : State) : exec (.nop w) s = .next s := rfl

/-- A fetch that reads the word `w` runs its decoding, PC advanced by 2 (R73). -/
theorem runInstruction_of_readWord (p : DecoderParams) {s : State} {w : Word}
    (h : s.mem.readWord s.pc.toNat = some w) :
    runInstruction p s = exec (decodeWith p w) (s.setPc (s.pc + 2)) := by
  rw [runInstruction, State.fetch, h]

/-- Settles O42: a word that no row matches is decoded to NOP, and the step over it is the fetch alone. -/
theorem noOpChangesNothing : Obligations.NoOpChangesNothing := by
  refine ⟨fun _ _ => Laws.RowMatch.decodeWith_of_noOpWord, exec_nop, ?_⟩
  intro w s rest hloaded hrunning hhost hword hnop
  have hword' : (s.setHost rest).mem.readWord (s.setHost rest).pc.toNat = some w := hword
  rw [step_of_running hloaded hrunning hhost, runInstruction_of_readWord _ hword',
    Laws.RowMatch.decodeWith_of_noOpWord hnop, exec_nop]
  rfl

end Sys2Proof.Machine
end

section
/-! PROOF. The words of family 0 that decode to CLS, under each reading of FAMILY0_SELECT (30_encoding.md R60). -/

namespace Sys2Proof.Laws.RowMatch

open Sys2Proof Config

/-- A row of family 0 is matched by the family-0 words that select its low byte, and by no other word. -/
theorem family0Row_hits_iff (op : Opcode) (v : Byte) (sel : Family0Select) (w : Word) :
    (family0Row op v sel).hits w = true ↔ fieldF w = 0 ∧ sel0 sel w v = true := by
  refine ⟨fun h => ?_, fun ⟨hf, hsel⟩ => family0Row_hits_of_sel0 hf hsel op⟩
  have hmask := beq_iff_eq.mp h
  cases sel with
  | word =>
    have hw : w = v.setWidth 16 := (BitVec.and_allOnes (x := w)).symm.trans hmask
    have hv := v.isLt
    have hval : w.toNat = v.toNat := by rw [hw, BitVec.toNat_setWidth]; omega
    exact ⟨by rw [fieldF]; omega, beq_iff_eq.mpr hw⟩
  | low8 =>
    obtain ⟨hf, hk⟩ := (hits_F0FF (by decide) v.isLt).mp hmask
    exact ⟨hf, beq_iff_eq.mpr (BitVec.eq_of_toNat_eq hk)⟩
  | low4 =>
    obtain ⟨hf, hn⟩ := (hits_F00F (by decide) (v.setWidth 4).isLt).mp hmask
    exact ⟨hf, beq_iff_eq.mpr (BitVec.eq_of_toNat_eq ((BitVec.toNat_setWidth 4 w).trans hn))⟩

/-- CLS has one row in the opcode map, the one in family 0. -/
theorem eq_family0Row_of_op_cls {p : DecoderParams} {r : OpcodeRow} (hr : r ∈ opcodeRows p) (hop : r.op = .cls) :
    r = family0Row .cls 0xE0 p.family0 := by
  simp only [opcodeRows, family0Rows_eq, List.mem_append] at hr
  obtain (((h0 | htop) | hlow) | h8) | hEF := hr
  · obtain rfl | rfl : r = family0Row .cls 0xE0 p.family0 ∨ r = family0Row .ret 0xEE p.family0 := by simpa using h0
    · rfl
    · simp [family0Row_op] at hop
  · exact absurd hop ((by decide : ∀ r ∈ topRows, r.op ≠ .cls) r htop)
  · exact absurd hop ((by decide : ∀ c, ∀ r ∈ lowNibbleRows c, r.op ≠ .cls) _ r hlow)
  · exact absurd hop ((by decide : ∀ r ∈ family8Rows, r.op ≠ .cls) r h8)
  · exact absurd hop ((by decide : ∀ r ∈ familyEFRows, r.op ≠ .cls) r hEF)

/-- CLS is decoded from the family-0 words that select 0xE0 (R58, R60). -/
theorem decodeWith_eq_cls_iff (p : DecoderParams) (w : Word) :
    decodeWith p w = .cls ↔ fieldF w = 0 ∧ sel0 p.family0 w 0xE0 = true := by
  constructor
  · intro h
    obtain hnop | ⟨r, hr, hop, hhit⟩ := h ▸ nopOrRowHit_decodeWith p w
    · nomatch hnop
    · rw [eq_family0Row_of_op_cls hr hop] at hhit
      exact (family0Row_hits_iff _ _ _ w).mp hhit
  · rintro ⟨hf, hsel⟩
    rw [decode_family_0 hf, decode0, if_pos hsel]

end Sys2Proof.Laws.RowMatch

namespace Sys2Proof

/-! ### What each selector compares (R60) -/

theorem sel0_word_iff (w : Word) (v : Byte) : sel0 .word w v = true ↔ w = v.setWidth 16 := beq_iff_eq

theorem sel0_low8_iff (w : Word) (v : Byte) : sel0 .low8 w v = true ↔ w.toNat % 256 = v.toNat := by
  rw [sel0, beq_iff_eq, ← BitVec.toNat_inj, BitVec.toNat_setWidth]

theorem sel0_low4_iff (w : Word) (v : Byte) : sel0 .low4 w v = true ↔ w.toNat % 16 = v.toNat % 16 := by
  rw [sel0, beq_iff_eq, ← BitVec.toNat_inj, BitVec.toNat_setWidth, BitVec.toNat_setWidth]

end Sys2Proof
end

section
/-! PROOF. The collision flag of a sprite (60_exceptions.md R135): on a display at least as large as the sprite no two of
its bits fall on one pixel, so each bit meets the framebuffer as it was before the draw. -/

namespace Sys2Proof.Machine

theorem any_congr_of_mem {α : Type} {l : List α} {p q : α → Bool} (h : ∀ a ∈ l, p a = q a) : l.any p = l.any q := by
  rw [Bool.eq_iff_iff, List.any_eq_true, List.any_eq_true]
  exact exists_congr fun a => and_congr_right fun ha => by rw [h a ha]

/-- Two offsets below the modulus that wrap to one coordinate are equal. -/
theorem eq_of_add_mod_eq {o a b m : Nat} (ha : a < m) (hb : b < m) (h : (o + a) % m = (o + b) % m) : a = b :=
  (Nat.ModEq.add_left_cancel' o h).eq_of_lt_of_lt ha hb

/-- A one bit `b` of row `row` falls on a set pixel. -/
def bitMeetsSet (fb : Framebuffer) (ox oy row : Nat) (byte : Byte) (b : Nat) : Bool :=
  byte.getMsbD b && fb.pixel ((ox + b) % fb.width) ((oy + row) % fb.height)

@[simp] theorem bitMeetsSet_clear (fb : Framebuffer) (ox oy row : Nat) (byte : Byte) (b : Nat) :
    bitMeetsSet fb.clear ox oy row byte b = false := by simp [bitMeetsSet]

/-- One bit raises the flag where it falls on a set pixel. -/
theorem drawBit_collision (ox oy row b : Nat) (byte : Byte) (acc : Framebuffer × Bool) :
    (drawBit ox oy row byte acc b).2 = (acc.2 || bitMeetsSet acc.1 ox oy row byte b) := by
  unfold drawBit bitMeetsSet
  cases byte.getMsbD b <;> simp

/-- A bit meets after another bit of its row what it met before it. -/
theorem bitMeetsSet_drawBit {ox oy row b c : Nat} {byte : Byte} {acc : Framebuffer × Bool} (h : acc.1.wf = true)
    (hb : b < acc.1.width) (hc : c < acc.1.width) (hne : b ≠ c) :
    bitMeetsSet (drawBit ox oy row byte acc b).1 ox oy row byte c = bitMeetsSet acc.1 ox oy row byte c := by
  obtain ⟨-, hw, hh⟩ := drawBit_keeps (ox := ox) (oy := oy) (row := row) (b := b) (byte := byte) h
  have hx : (ox + b) % acc.1.width ≠ (ox + c) % acc.1.width := fun e => hne (eq_of_add_mod_eq hb hc e)
  have hpixel := drawBit_pixel (ox := ox) (oy := oy) (row := row) (b := b) (byte := byte) h
    (px := (ox + c) % acc.1.width) (py := (oy + row) % acc.1.height) (Nat.mod_lt _ (by omega))
  rw [bitMeetsSet, hw, hh, hpixel]
  simp [bitHits, hx, bitMeetsSet]

/-- Bits of one row raise the flag where one of them falls on a pixel set before the first of them. -/
theorem drawBits_collision {ox oy row : Nat} {byte : Byte} : ∀ {bits : List Nat} {acc : Framebuffer × Bool},
    acc.1.wf = true → bits.Nodup → (∀ b ∈ bits, b < acc.1.width) →
    (bits.foldl (drawBit ox oy row byte) acc).2 = (acc.2 || bits.any (bitMeetsSet acc.1 ox oy row byte))
  | [], _, _, _, _ => by simp
  | b :: bits, acc, h, hnodup, hlt => by
    obtain ⟨hb, hbits⟩ := List.nodup_cons.mp hnodup
    obtain ⟨hwf, hw, -⟩ := drawBit_keeps (ox := ox) (oy := oy) (row := row) (b := b) (byte := byte) h
    have hsame : bits.any (bitMeetsSet (drawBit ox oy row byte acc b).1 ox oy row byte) =
        bits.any (bitMeetsSet acc.1 ox oy row byte) := by
      refine any_congr_of_mem fun c hc => ?_
      exact bitMeetsSet_drawBit h (hlt b List.mem_cons_self) (hlt c (List.mem_cons_of_mem _ hc)) fun e => hb (e ▸ hc)
    rw [List.foldl_cons, drawBits_collision hwf hbits fun c hc => hw ▸ hlt c (List.mem_cons_of_mem _ hc), hsame,
      drawBit_collision, List.any_cons, Bool.or_assoc]

theorem drawRow_keeps (ox oy row : Nat) (byte : Byte) {acc : Framebuffer × Bool} (h : acc.1.wf = true) :
    (drawRow ox oy row byte acc).1.wf = true ∧ (drawRow ox oy row byte acc).1.width = acc.1.width ∧
      (drawRow ox oy row byte acc).1.height = acc.1.height :=
  drawBits_keeps h

/-- Some bit of row `row` falls on a set pixel. -/
def rowMeetsSet (fb : Framebuffer) (ox oy row : Nat) (byte : Byte) : Bool :=
  [0, 1, 2, 3, 4, 5, 6, 7].any (bitMeetsSet fb ox oy row byte)

theorem drawRow_collision {ox oy row : Nat} {byte : Byte} {acc : Framebuffer × Bool} (h : acc.1.wf = true)
    (hw : 8 ≤ acc.1.width) : (drawRow ox oy row byte acc).2 = (acc.2 || rowMeetsSet acc.1 ox oy row byte) :=
  drawBits_collision h (by decide) fun b hb => by simp at hb; omega

/-- A row meets after another row of its sprite what it met before it. -/
theorem rowMeetsSet_drawRow {ox oy row row' : Nat} {byte byte' : Byte} {acc : Framebuffer × Bool}
    (h : acc.1.wf = true) (hr : row < acc.1.height) (hr' : row' < acc.1.height) (hne : row ≠ row') :
    rowMeetsSet (drawRow ox oy row byte acc).1 ox oy row' byte' = rowMeetsSet acc.1 ox oy row' byte' := by
  obtain ⟨-, hw, hh⟩ := drawRow_keeps ox oy row byte h
  have hy : (oy + row) % acc.1.height ≠ (oy + row') % acc.1.height := fun e => hne (eq_of_add_mod_eq hr hr' e)
  refine any_congr_of_mem fun b _ => ?_
  have hpixel := drawBits_pixel (ox := ox) (oy := oy) (row := row) (byte := byte) [0, 1, 2, 3, 4, 5, 6, 7] h
    (px := (ox + b) % acc.1.width) (py := (oy + row') % acc.1.height) (Nat.mod_lt _ (Framebuffer.wf_iff.mp h).1)
  rw [bitMeetsSet, hw, hh, drawRow, hpixel]
  simp [bitHits, hy, bitMeetsSet]

/-- A sprite's rows, the first numbered `row`, raise the flag where one of them meets a pixel set before the first. -/
theorem drawRows_collision {ox oy : Nat} : ∀ {bytes : List Byte} {row : Nat} {acc : Framebuffer × Bool},
    acc.1.wf = true → 8 ≤ acc.1.width → row + bytes.length ≤ acc.1.height →
    (drawRows ox oy row bytes acc).2 =
      (acc.2 || (bytes.zipIdx row).any fun q => rowMeetsSet acc.1 ox oy q.2 q.1)
  | [], _, _, _, _, _ => by simp [drawRows]
  | byte :: rest, row, acc, h, hw, hh => by
    rw [List.length_cons] at hh
    obtain ⟨hwf, hw', hh'⟩ := drawRow_keeps ox oy row byte h
    have hsame : ((rest.zipIdx (row + 1)).any fun q => rowMeetsSet (drawRow ox oy row byte acc).1 ox oy q.2 q.1) =
        (rest.zipIdx (row + 1)).any fun q => rowMeetsSet acc.1 ox oy q.2 q.1 := by
      refine any_congr_of_mem fun q hq => ?_
      have hlo := List.le_snd_of_mem_zipIdx hq
      have hhi := List.snd_lt_add_of_mem_zipIdx hq
      exact rowMeetsSet_drawRow h (by omega) (by omega) (by omega)
    rw [drawRows, drawRows_collision hwf (by omega) (by omega), hsame, drawRow_collision h hw,
      List.zipIdx_cons, List.any_cons, Bool.or_assoc]

/-- The collision flag of a sprite: some row of it falls on a pixel set before the draw (R135). -/
theorem drawSprite_collision {fb : Framebuffer} (h : fb.wf = true) (ox oy : Byte) {bytes : List Byte}
    (hw : 8 ≤ fb.width) (hh : bytes.length ≤ fb.height) :
    (drawSprite fb ox oy bytes).2 = bytes.zipIdx.any fun q => rowMeetsSet fb ox.toNat oy.toNat q.2 q.1 := by
  rw [drawSprite, drawRows_collision h hw (by simpa using hh), Bool.false_or]

/-- On a cleared framebuffer no sprite collides. -/
theorem drawSprite_clear_collision {fb : Framebuffer} (h : fb.wf = true) (ox oy : Byte) {bytes : List Byte}
    (hw : 8 ≤ fb.width) (hh : bytes.length ≤ fb.height) : (drawSprite fb.clear ox oy bytes).2 = false := by
  rw [drawSprite_collision (Framebuffer.clear_wf h) ox oy hw hh]
  simp [rowMeetsSet]

end Sys2Proof.Machine
end

section
/-! PROOF. CLS (41_flow_0-2.md R83). -/

namespace Sys2Proof.Machine

@[simp] theorem exec_cls (s : State) : exec .cls s = .next (s.setFb s.fb.clear) := rfl

/-- A draw whose rows are in range draws the bytes read from I on, then writes the collision into VF (R105). -/
theorem exec_drw_of_le (x y : Reg) {n : RowCount} {s : State} (h : n.val = 0 ∨ s.i.toNat + n.val ≤ 4096) :
    exec (.drw x y n) s =
      .next ((s.setFb (drawSprite s.fb (s.getV x) (s.getV y) ((List.range' s.i.toNat n.val).map s.mem.look)).1).setV VF
        (collisionFlag (drawSprite s.fb (s.getV x) (s.getV y) ((List.range' s.i.toNat n.val).map s.mem.look)).2)) := by
  show execDrw x y n s = _
  rw [execDrw, State.effAddr, Nat.add_zero, Memory.readBytes_of_le h]

/-- A draw of rows in range onto a cleared display at least as large as the sprite leaves VF = 0 (R135, D18). -/
theorem exec_drw_clear_getV_VF {s : State} (hwf : s.fb.wf = true) (x y : Reg) {n : RowCount} (hw : 8 ≤ s.fb.width)
    (hh : n.val ≤ s.fb.height) (hrows : s.i.toNat + n.val ≤ 4096) :
    ∃ u, exec (.drw x y n) (s.setFb s.fb.clear) = .next u ∧ u.getV VF = 0 := by
  refine ⟨_, exec_drw_of_le x y (.inr hrows), ?_⟩
  rw [State.setV_getV, if_pos rfl, State.setFb_fb, drawSprite_clear_collision hwf _ _ hw (by simpa using hh)]
  rfl

/-- Settles O11: the decoding is the family-0 row of CLS, the frame is that of the one framebuffer write, and a draw
after it meets no set pixel. -/
theorem clearScreen : Obligations.ClearScreen := by
  refine ⟨fun c w => ?_, fun s => ⟨s.setFb s.fb.clear, exec_cls s, Framebuffer.clear_pixel s.fb, rfl, rfl, ?_,
    fun _ _ => rfl, rfl, rfl, ⟨rfl, fun _ => rfl⟩, ⟨rfl, rfl⟩, rfl, fun _ => rfl, fun _ => rfl, rfl, rfl, rfl,
    fun x y n hwf hw hh hrows => exec_drw_clear_getV_VF hwf x y hw hh hrows⟩⟩
  · have hword : w = 0x00E0 → fieldF w = 0 := by rintro rfl; rfl
    simp only [Laws.RowMatch.decodeWith_eq_cls_iff, sel0_low8_iff, sel0_low4_iff, sel0_word_iff]
    exact ⟨⟨And.right, fun h => ⟨hword h, h⟩⟩, Iff.rfl, Iff.rfl⟩
  · cases hwf : s.fb.wf with
    | true => exact .inl (Framebuffer.clear_wf hwf)
    | false => exact .inr rfl

end Sys2Proof.Machine
end

section
/-! PROOF. The load and the addition of a constant (42_skip_load_3-7.md R90, R91). -/

namespace Sys2Proof.Machine

@[simp] theorem exec_ldImm (x : Reg) (kk : Byte) (s : State) : exec (.ldImm x kk) s = .next (s.setV x kk) := rfl

@[simp] theorem exec_addImm (x : Reg) (kk : Byte) (s : State) :
    exec (.addImm x kk) s = .next (s.setV x (wrapByte (byteSum (s.getV x) kk))) := rfl

theorem State.setV_getV_self (s : State) (x : Reg) (b : Byte) : (s.setV x b).getV x = b := by
  rw [State.setV_getV, if_pos rfl]

/-- The integer sum of two bytes, reduced modulo 256 (R76). -/
theorem wrapByte_byteSum_toNat (a b : Byte) : (wrapByte (byteSum a b)).toNat = (a.toNat + b.toNat) % 256 :=
  BitVec.toNat_ofNat ..

/-- Settles O21: the mask fixes the family, hence the decoding; each instruction is one register write, so it has that
write's frame whether or not x is 0xF. -/
theorem loadAndAddConstant : Obligations.LoadAndAddConstant := by
  refine ⟨fun p w => ⟨fun h => ?_, fun h => ?_⟩, fun x kk s => ⟨?_, ?_⟩⟩
  · exact decode_family_6 ((hits_F000 (by decide)).mp h)
  · exact decode_family_7 ((hits_F000 (by decide)).mp h)
  · exact ⟨_, exec_ldImm x kk s, s.setV_getV_self x kk, onlyV_setV s x kk⟩
  · refine ⟨_, exec_addImm x kk s, ?_, onlyV_setV s x _⟩
    rw [State.setV_getV_self, wrapByte_byteSum_toNat]

end Sys2Proof.Machine
end

section
/-! PROOF. Copy, or, and, exclusive or of two registers (43_alu_8.md R92 to R95). -/

namespace Sys2Proof.Machine

open Config

/-! ### The first four rows of family 8's dispatch (R62) -/

theorem decode8_nibble_0 {w : Word} (h : (fieldN w).val = 0x0) : decode8 w = .ldReg (fieldX w) (fieldY w) := by
  simp only [decode8, h]

theorem decode8_nibble_1 {w : Word} (h : (fieldN w).val = 0x1) : decode8 w = .orReg (fieldX w) (fieldY w) := by
  simp only [decode8, h]

theorem decode8_nibble_2 {w : Word} (h : (fieldN w).val = 0x2) : decode8 w = .andReg (fieldX w) (fieldY w) := by
  simp only [decode8, h]

theorem decode8_nibble_3 {w : Word} (h : (fieldN w).val = 0x3) : decode8 w = .xorReg (fieldX w) (fieldY w) := by
  simp only [decode8, h]

/-- A word of family 8 decodes to what the dispatch on its low nibble answers, under every parameter setting (R58). -/
theorem decodeWith_of_decode8_nibble {p : DecoderParams} {w : Word} {n : Nat} {i : Instr}
    (hi : (fieldN w).val = n → decode8 w = i) (hn : n < 16) (h : w &&& 0xF00F = BitVec.ofNat 16 (0x8 * 0x1000 + n)) :
    decodeWith p w = i := by
  obtain ⟨hf, hnibble⟩ := (hits_F00F (by decide) hn).mp h
  rw [decode_family_8 hf, hi hnibble]

@[simp] theorem exec_ldReg (x y : Reg) (s : State) : exec (.ldReg x y) s = .next (s.setV x (s.getV y)) := rfl

@[simp] theorem exec_orReg (x y : Reg) (s : State) :
    exec (.orReg x y) s = .next (s.setV x (s.getV x ||| s.getV y)) := rfl

@[simp] theorem exec_andReg (x y : Reg) (s : State) :
    exec (.andReg x y) s = .next (s.setV x (s.getV x &&& s.getV y)) := rfl

@[simp] theorem exec_xorReg (x y : Reg) (s : State) :
    exec (.xorReg x y) s = .next (s.setV x (s.getV x ^^^ s.getV y)) := rfl

/-- Settles O22: the mask fixes the family and the low nibble, hence the decoding; each instruction is one register
write, of V[y] or of a bitwise operation on the two registers read before it, so it has that write's frame for x = y
and x = 0xF too. -/
theorem copyAndLogic : Obligations.CopyAndLogic := by
  refine ⟨fun p w => ⟨?_, ?_, ?_, ?_⟩, fun x y s => ⟨?_, ?_, ?_, ?_⟩⟩
  · exact decodeWith_of_decode8_nibble decode8_nibble_0 (by decide)
  · exact decodeWith_of_decode8_nibble decode8_nibble_1 (by decide)
  · exact decodeWith_of_decode8_nibble decode8_nibble_2 (by decide)
  · exact decodeWith_of_decode8_nibble decode8_nibble_3 (by decide)
  · exact ⟨_, exec_ldReg x y s, s.setV_getV_self x _, onlyV_setV s x _⟩
  · refine ⟨_, exec_orReg x y s, fun b _ => ?_, onlyV_setV s x _⟩
    rw [State.setV_getV_self, BitVec.getLsbD_or]
  · refine ⟨_, exec_andReg x y s, fun b _ => ?_, onlyV_setV s x _⟩
    rw [State.setV_getV_self, BitVec.getLsbD_and]
  · refine ⟨_, exec_xorReg x y s, fun b _ => ?_, onlyV_setV s x _⟩
    rw [State.setV_getV_self, BitVec.getLsbD_xor]

end Sys2Proof.Machine
end

section
/-! PROOF. The loads of the index register: a constant and a glyph's address (44_misc_9-D.md R102; 46_timers_mem_F.md
R113). -/

namespace Sys2Proof.Machine

open Config

theorem decodeF_byte_29 {w : Word} (h : fieldKK w = 0x29) : decodeF w = .ldFVx (fieldX w) := by
  simp [decodeF, h]

/-- A word of family F decodes to what the dispatch on its low byte answers, under every parameter setting (R58). -/
theorem decodeWith_of_decodeF_byte {p : DecoderParams} {w : Word} {k : Nat} {i : Instr}
    (hi : fieldKK w = BitVec.ofNat 8 k → decodeF w = i) (hk : k < 256)
    (h : w &&& 0xF0FF = BitVec.ofNat 16 (0xF * 0x1000 + k)) : decodeWith p w = i := by
  obtain ⟨hf, hbyte⟩ := (hits_F0FF (by decide) hk).mp h
  rw [decode_family_F hf, hi ((fieldKK_eq_iff hk).mpr hbyte)]

@[simp] theorem exec_ldI (nnn : Addr) (s : State) : exec (.ldI nnn) s = .next (s.setI (absAddr nnn)) := rfl

@[simp] theorem exec_ldFVx (x : Reg) (s : State) : exec (.ldFVx x) s = .next (s.setI (glyphAddr (s.getV x))) := rfl

/-- Zero extension keeps the 12-bit value (R56). -/
theorem absAddr_toNat (nnn : Addr) : (absAddr nnn).toNat = nnn.toNat :=
  BitVec.toNat_setWidth_of_le (by decide)

/-- Five times a byte fits in 16 bits, so a glyph's address is the integer product (R113). -/
theorem glyphAddr_toNat (d : Byte) : (glyphAddr d).toNat = d.toNat * 5 := by
  have hd := d.isLt
  rw [glyphAddr, BitVec.toNat_ofNat, glyphHeight, Nat.mod_eq_of_lt (by omega)]

/-- Settles O28: the mask fixes the family, and for LD F, Vx the low byte, hence the decoding; each instruction is one
write of I, whose 16 bits hold both nnn and V[x] * 5 without a wrap. -/
theorem indexLoads : Obligations.IndexLoads := by
  refine ⟨fun p w => ⟨fun h => ?_, ?_⟩, fun nnn x s => ⟨?_, ?_⟩⟩
  · exact decode_family_A ((hits_F000 (by decide)).mp h)
  · exact decodeWith_of_decodeF_byte decodeF_byte_29 (by decide)
  · exact ⟨_, exec_ldI nnn s, absAddr_toNat nnn, onlyI_setI s _⟩
  · exact ⟨_, exec_ldFVx x s, glyphAddr_toNat (s.getV x), onlyI_setI s _⟩

end Sys2Proof.Machine
end

section
/-! PROOF. The moves between a general register and a timer (46_timers_mem_F.md R108, R110, R111). -/

namespace Sys2Proof.Machine

theorem decodeF_byte_07 {w : Word} (h : fieldKK w = 0x07) : decodeF w = .ldVxDt (fieldX w) := by
  simp [decodeF, h]

theorem decodeF_byte_15 {w : Word} (h : fieldKK w = 0x15) : decodeF w = .ldDtVx (fieldX w) := by
  simp [decodeF, h]

theorem decodeF_byte_18 {w : Word} (h : fieldKK w = 0x18) : decodeF w = .ldStVx (fieldX w) := by
  simp [decodeF, h]

@[simp] theorem exec_ldVxDt (x : Reg) (s : State) : exec (.ldVxDt x) s = .next (s.setV x s.dt) := rfl

@[simp] theorem exec_ldDtVx (x : Reg) (s : State) : exec (.ldDtVx x) s = .next (s.setDt (s.getV x)) := rfl

@[simp] theorem exec_ldStVx (x : Reg) (s : State) : exec (.ldStVx x) s = .next (s.setSt (s.getV x)) := rfl

/-- The frame of a write to the timers: all else is as before. -/
def OnlyTimers (s t : State) : Prop :=
  SameV [] s t ∧ t.i = s.i ∧ t.pc = s.pc ∧ SameStack s t ∧ t.status = s.status ∧ SameMem s t ∧ SameAround s t ∧
    t.draws = s.draws

theorem onlyTimers_setDt (s : State) (b : Byte) : OnlyTimers s (s.setDt b) :=
  ⟨fun q _ => s.setDt_getV b q, s.setDt_i b, s.setDt_pc b, ⟨s.setDt_sp b, s.setDt_slot b⟩, s.setDt_status b,
    fun _ => rfl, ⟨s.setDt_fb b, s.setDt_isDown b, s.setDt_host b, s.setDt_loaded b⟩, s.setDt_draws b⟩

theorem onlyTimers_setSt (s : State) (b : Byte) : OnlyTimers s (s.setSt b) :=
  ⟨fun q _ => s.setSt_getV b q, s.setSt_i b, s.setSt_pc b, ⟨s.setSt_sp b, s.setSt_slot b⟩, s.setSt_status b,
    fun _ => rfl, ⟨s.setSt_fb b, s.setSt_isDown b, s.setSt_host b, s.setSt_loaded b⟩, s.setSt_draws b⟩

/-- Settles O34: the mask fixes the family and the low byte, hence the decoding; each instruction is one write, of V[x]
or of one timer, and a write of one timer keeps the other. -/
theorem timerMoves : Obligations.TimerMoves := by
  refine ⟨fun p w => ⟨?_, ?_, ?_⟩, fun x s => ⟨?_, ?_, ?_⟩⟩
  · exact decodeWith_of_decodeF_byte decodeF_byte_07 (by decide)
  · exact decodeWith_of_decodeF_byte decodeF_byte_15 (by decide)
  · exact decodeWith_of_decodeF_byte decodeF_byte_18 (by decide)
  · exact ⟨_, exec_ldVxDt x s, s.setV_getV_self x _, onlyV_setV s x _⟩
  · exact ⟨_, exec_ldDtVx x s, s.setDt_dt _, s.setDt_st _, onlyTimers_setDt s _⟩
  · exact ⟨_, exec_ldStVx x s, s.setSt_st _, s.setSt_dt _, onlyTimers_setSt s _⟩

end Sys2Proof.Machine
end

section
/-! PROOF. The dispatch and the opcode map agree (30_encoding.md R58, R59, R65): each row's opcode is its own, and a word
that matches a row decodes to that row's instruction. -/

namespace Sys2Proof.Laws.RowMatch

open Sys2Proof Config

/-! ### The rows' opcodes -/

theorem nodup_opcodeRows_op (p : DecoderParams) : ((opcodeRows p).map OpcodeRow.op).Nodup := by
  obtain ⟨f, c⟩ := p
  cases f <;> cases c <;> decide

theorem op_ne_nop_of_mem {p : DecoderParams} : ∀ {r : OpcodeRow}, r ∈ opcodeRows p → r.op ≠ .nop := by
  obtain ⟨f, c⟩ := p
  cases f <;> cases c <;> decide

/-- No two rows of the map have one opcode. -/
theorem eq_of_op_eq {p : DecoderParams} {r r' : OpcodeRow} (hr : r ∈ opcodeRows p) (hr' : r' ∈ opcodeRows p)
    (h : r.op = r'.op) : r = r' :=
  List.inj_on_of_nodup_map (nodup_opcodeRows_op p) hr hr' h

/-! ### What a word that matches a row decodes to, by the row's part of the map -/

/-- No family-0 word selects both rows of the family (R60). -/
theorem sel0_ret_ne_cls {sel : Family0Select} {w : Word} (h : sel0 sel w 0xEE = true) : sel0 sel w 0xE0 = false := by
  cases sel <;> (rw [sel0, beq_iff_eq] at h; rw [sel0, h]; rfl)

theorem opcode_of_family0_hit {p : DecoderParams} {r : OpcodeRow} {w : Word} (hr : r ∈ family0Rows p.family0)
    (h : r.hits w = true) : (decodeWith p w).opcode = r.op := by
  rw [family0Rows_eq, List.mem_cons, List.mem_singleton] at hr
  obtain rfl | rfl := hr
  · obtain ⟨hf, hsel⟩ := (family0Row_hits_iff _ _ _ w).mp h
    rw [decode_family_0 hf, decode0, if_pos hsel, family0Row_op]
    rfl
  · obtain ⟨hf, hsel⟩ := (family0Row_hits_iff _ _ _ w).mp h
    rw [decode_family_0 hf, decode0, if_neg (Bool.eq_false_iff.mp (sel0_ret_ne_cls hsel)), if_pos hsel, family0Row_op]
    rfl

/-- The families dispatched on the top four bits alone. -/
def topFamilies : List Nat := [0x1, 0x2, 0x3, 0x4, 0x6, 0x7, 0xA, 0xB, 0xC, 0xD]

/-- In those families the opcode depends on the family alone, whatever the parameters. -/
theorem decodeWith_opcode_congr (p q : DecoderParams) {w v : Word} (h : fieldF w = fieldF v)
    (hv : fieldF v ∈ topFamilies) : (decodeWith p w).opcode = (decodeWith q v).opcode := by
  rw [decodeWith, decodeWith, h]
  generalize fieldF v = f at hv
  simp only [topFamilies, List.mem_cons, List.not_mem_nil, or_false] at hv
  rcases hv with rfl | rfl | rfl | rfl | rfl | rfl | rfl | rfl | rfl | rfl <;> rfl

theorem opcode_of_top_hit (p : DecoderParams) {r : OpcodeRow} {w : Word} (hr : r ∈ topRows) (h : r.hits w = true) :
    (decodeWith p w).opcode = r.op := by
  obtain ⟨hmask, hf, hpat, hop⟩ := (by decide : ∀ r ∈ topRows, r.mask = 0xF000 ∧ fieldF r.pat ∈ topFamilies ∧
    r.pat = BitVec.ofNat 16 (fieldF r.pat * 0x1000) ∧ (decodeWith decoderDefaults r.pat).opcode = r.op) r hr
  have hfw : fieldF w = fieldF r.pat := (hits_F000 (fieldF_lt _)).mp ((hmask ▸ beq_iff_eq.mp h).trans hpat)
  rw [decodeWith_opcode_congr p decoderDefaults hfw hf, hop]

/-- The row of family 5 or 9 fixes the family, and the low nibble where it is checked (R61). -/
theorem decodeLowNibble_of_hit {p : DecoderParams} {op : Opcode} {w : Word} {f : Nat} (hf : f < 16)
    (h : OpcodeRow.hits ⟨op, BitVec.ofNat 16 (f * 0x1000), if p.checkLowNibble then 0xF00F else 0xF000⟩ w = true)
    (i : Instr) : fieldF w = f ∧ decodeLowNibble p w i = i := by
  have hw := beq_iff_eq.mp h
  rw [decodeLowNibble]
  cases hc : p.checkLowNibble with
  | false => exact ⟨(hits_F000 hf).mp (by simpa [hc] using hw), rfl⟩
  | true =>
    obtain ⟨hfam, hn⟩ := (hits_F00F (n := 0) hf (by decide)).mp (by simpa [hc] using hw)
    exact ⟨hfam, by simp [hn]⟩

theorem opcode_of_lowNibble_hit {p : DecoderParams} {r : OpcodeRow} {w : Word}
    (hr : r ∈ lowNibbleRows p.checkLowNibble) (h : r.hits w = true) : (decodeWith p w).opcode = r.op := by
  simp only [lowNibbleRows, List.mem_cons, List.not_mem_nil, or_false] at hr
  obtain rfl | rfl := hr
  · obtain ⟨hf, hi⟩ := decodeLowNibble_of_hit (f := 0x5) (by decide) h (.seReg (fieldX w) (fieldY w))
    exact congrArg Instr.opcode ((decode_family_5 hf).trans hi)
  · obtain ⟨hf, hi⟩ := decodeLowNibble_of_hit (f := 0x9) (by decide) h (.sneReg (fieldX w) (fieldY w))
    exact congrArg Instr.opcode ((decode_family_9 hf).trans hi)

/-! Families 8, E and F: the opcode depends on the bits under the row's mask alone, and the row's pattern is a word that
decodes to it. -/

theorem fields_of_and_F00F {w v : Word} (h : w &&& 0xF00F = v) : fieldF w = fieldF v ∧ fieldN w = fieldN v := by
  have hsum := and_split (w := w) (lo := 0x000F) (by decide)
  rw [show 0xF000 ||| 0x000F = (0xF00F : Word) from by decide, h, and_F000_toNat, and_000F_toNat] at hsum
  have hn := (fieldN w).isLt
  refine ⟨by rw [fieldF.eq_def v]; omega, Fin.ext ?_⟩
  show (fieldN w).val = v.toNat % 16
  omega

theorem fields_of_and_F0FF {w v : Word} (h : w &&& 0xF0FF = v) : fieldF w = fieldF v ∧ fieldKK w = fieldKK v := by
  have hsum := and_split (w := w) (lo := 0x00FF) (by decide)
  rw [show 0xF000 ||| 0x00FF = (0xF0FF : Word) from by decide, h, and_F000_toNat, and_00FF_toNat] at hsum
  have hk := (fieldKK w).isLt
  refine ⟨by rw [fieldF.eq_def v]; omega, BitVec.eq_of_toNat_eq ?_⟩
  rw [fieldKK.eq_def v, BitVec.toNat_setWidth]
  omega

theorem decode8_opcode_congr {w v : Word} (h : fieldN w = fieldN v) : (decode8 w).opcode = (decode8 v).opcode := by
  unfold decode8
  rw [h]
  split <;> rfl

theorem decodeE_opcode_congr {w v : Word} (h : fieldKK w = fieldKK v) : (decodeE w).opcode = (decodeE v).opcode := by
  simp only [decodeE, h, apply_ite Instr.opcode]
  rfl

theorem decodeF_opcode_congr {w v : Word} (h : fieldKK w = fieldKK v) : (decodeF w).opcode = (decodeF v).opcode := by
  simp only [decodeF, h, apply_ite Instr.opcode]
  rfl

theorem opcode_of_family8_hit (p : DecoderParams) {r : OpcodeRow} {w : Word} (hr : r ∈ family8Rows)
    (h : r.hits w = true) : (decodeWith p w).opcode = r.op := by
  obtain ⟨hmask, hf, hop⟩ := (by decide : ∀ r ∈ family8Rows,
    r.mask = 0xF00F ∧ fieldF r.pat = 0x8 ∧ (decode8 r.pat).opcode = r.op) r hr
  obtain ⟨hfw, hn⟩ := fields_of_and_F00F (hmask ▸ beq_iff_eq.mp h)
  rw [decode_family_8 (hfw.trans hf), decode8_opcode_congr hn, hop]

theorem opcode_of_familyEF_hit (p : DecoderParams) {r : OpcodeRow} {w : Word} (hr : r ∈ familyEFRows)
    (h : r.hits w = true) : (decodeWith p w).opcode = r.op := by
  obtain ⟨hmask, hpat⟩ := (by decide : ∀ r ∈ familyEFRows, r.mask = 0xF0FF ∧
    (fieldF r.pat = 0xE ∧ (decodeE r.pat).opcode = r.op ∨ fieldF r.pat = 0xF ∧ (decodeF r.pat).opcode = r.op)) r hr
  obtain ⟨hfw, hk⟩ := fields_of_and_F0FF (hmask ▸ beq_iff_eq.mp h)
  obtain ⟨hf, hop⟩ | ⟨hf, hop⟩ := hpat
  · rw [decode_family_E (hfw.trans hf), decodeE_opcode_congr hk, hop]
  · rw [decode_family_F (hfw.trans hf), decodeF_opcode_congr hk, hop]

/-- A word that matches a row decodes to that row's instruction (R58, R59). -/
theorem opcode_of_hit {p : DecoderParams} {r : OpcodeRow} {w : Word} (hr : r ∈ opcodeRows p) (h : r.hits w = true) :
    (decodeWith p w).opcode = r.op := by
  simp only [opcodeRows, List.mem_append] at hr
  obtain (((h0 | htop) | hlow) | h8) | hEF := hr
  · exact opcode_of_family0_hit h0 h
  · exact opcode_of_top_hit p htop h
  · exact opcode_of_lowNibble_hit hlow h
  · exact opcode_of_family8_hit p h8 h
  · exact opcode_of_familyEF_hit p hEF h

theorem hits_iff_opcode {p : DecoderParams} {r : OpcodeRow} (hr : r ∈ opcodeRows p) (w : Word) :
    r.hits w = true ↔ (decodeWith p w).opcode = r.op := by
  refine ⟨opcode_of_hit hr, fun hop => ?_⟩
  obtain hnop | ⟨r', hr', hop', hhit⟩ := nopOrRowHit_decodeWith p w
  · exact absurd (hop.symm.trans (congrArg Instr.opcode hnop)) (op_ne_nop_of_mem hr)
  · exact eq_of_op_eq hr' hr (hop'.trans hop) ▸ hhit

theorem noOpWord_iff (p : DecoderParams) (w : Word) : noOpWord p w = true ↔ ∀ r ∈ opcodeRows p, r.hits w = false := by
  simp [noOpWord]

theorem opcode_eq_nop_iff (p : DecoderParams) (w : Word) :
    (decodeWith p w).opcode = .nop ↔ noOpWord p w = true := by
  refine ⟨fun hop => (noOpWord_iff p w).mpr fun r hr => ?_, fun h => congrArg Instr.opcode (decodeWith_of_noOpWord h)⟩
  by_contra hhit
  exact op_ne_nop_of_mem hr ((opcode_of_hit hr (by simpa using hhit)).symm.trans hop)

/-- Every instruction but a no-op is well formed by its types. -/
theorem wellFormed_of_opcode_ne_nop (p : DecoderParams) {i : Instr} (h : i.opcode ≠ .nop) :
    i.wellFormed p = true := by
  cases i with
  | nop w => exact absurd rfl h
  | _ => rfl

theorem decodeWith_wellFormed (p : DecoderParams) (w : Word) : (decodeWith p w).wellFormed p = true := by
  by_cases hop : (decodeWith p w).opcode = .nop
  · have hw := (opcode_eq_nop_iff p w).mp hop
    rw [decodeWith_of_noOpWord hw]
    exact hw
  · exact wellFormed_of_opcode_ne_nop p hop

/-- Settles O4: a hit fixes the opcode by the row's part of the map; conversely what a word decodes to is NOP or the
instruction of a row it hits, and each row's opcode is its own. -/
theorem dispatchAgreesWithTheOpcodeMap : Obligations.DispatchAgreesWithTheOpcodeMap := fun p w =>
  ⟨fun _ hr => hits_iff_opcode hr w, opcode_eq_nop_iff p w, decodeWith_wellFormed p w⟩

end Sys2Proof.Laws.RowMatch
end

section
/-! PROOF. Encoding and decoding are inverse (30_encoding.md R55, R57, R68, R70): the decoded instruction is its row's
opcode with the word's fields, and the fields of an encoded word are the instruction's operands. -/

namespace Sys2Proof

open Config Laws.RowMatch

/-! ### The instruction of a word is its opcode with the word's fields -/

/-- The record of a word under a given variant: what `decodeRecord` holds when the word decodes to it (R25, R55). -/
def recordOf (w : Word) (op : Opcode) : Decoded :=
  { word := w, op := op, x := fieldX w, y := fieldY w, n := fieldN w, kk := fieldKK w, nnn := fieldNNN w }

theorem decodeRecord_eq (p : DecoderParams) (w : Word) : decodeRecord p w = recordOf w (decodeWith p w).opcode := rfl

/-- The operands of `i` are the fields of `w` that its rule names (R55, R57). -/
def TakesFieldsOf (w : Word) (i : Instr) : Prop := (recordOf w i.opcode).instr = i

theorem takesFieldsOf_ite {w : Word} {c : Prop} [Decidable c] {i j : Instr} (hi : TakesFieldsOf w i)
    (hj : TakesFieldsOf w j) : TakesFieldsOf w (if c then i else j) := by
  split
  · exact hi
  · exact hj

theorem decode0_takesFieldsOf (p : DecoderParams) (w : Word) : TakesFieldsOf w (decode0 p w) :=
  takesFieldsOf_ite rfl (takesFieldsOf_ite rfl rfl)

theorem decodeLowNibble_takesFieldsOf (p : DecoderParams) {w : Word} {i : Instr} (h : TakesFieldsOf w i) :
    TakesFieldsOf w (decodeLowNibble p w i) :=
  takesFieldsOf_ite rfl h

theorem decode8_takesFieldsOf (w : Word) : TakesFieldsOf w (decode8 w) := by
  unfold decode8
  split <;> rfl

theorem decodeE_takesFieldsOf (w : Word) : TakesFieldsOf w (decodeE w) :=
  takesFieldsOf_ite rfl (takesFieldsOf_ite rfl rfl)

theorem decodeF_takesFieldsOf (w : Word) : TakesFieldsOf w (decodeF w) := by
  unfold decodeF
  repeat' apply takesFieldsOf_ite
  all_goals rfl

theorem decodeWith_takesFieldsOf (p : DecoderParams) (w : Word) : TakesFieldsOf w (decodeWith p w) := by
  unfold decodeWith
  split
  case h_1 => exact decode0_takesFieldsOf p w
  case h_6 => exact decodeLowNibble_takesFieldsOf p rfl
  case h_9 => exact decode8_takesFieldsOf w
  case h_10 => exact decodeLowNibble_takesFieldsOf p rfl
  case h_15 => exact decodeE_takesFieldsOf w
  case h_16 => exact decodeF_takesFieldsOf w
  all_goals rfl

theorem decodeRecord_instr (p : DecoderParams) (w : Word) : (decodeRecord p w).instr = decodeWith p w := by
  rw [decodeRecord_eq]
  exact decodeWith_takesFieldsOf p w

/-! ### The operands of an instruction are the fields of its encoding -/

theorem encode_takesFields (i : Instr) : TakesFieldsOf (encode i) i := by
  cases i <;>
    simp [TakesFieldsOf, recordOf, Decoded.instr, Instr.opcode, encode, fieldNNN_encNNN, fieldX_encXKK, fieldKK_encXKK,
      fieldX_encXYN, fieldY_encXYN, fieldN_encXYN]

/-- Every encoding matches its row, or no row for a no-op: the laws of the single instructions, taken together. -/
theorem rowMatch (i : Instr) : Statement i := by
  cases i with
  | cls => exact cls
  | ret => exact ret
  | jp nnn => exact jp nnn
  | call nnn => exact call nnn
  | seImm x kk => exact seImm x kk
  | sneImm x kk => exact sneImm x kk
  | seReg x y => exact seReg x y
  | ldImm x kk => exact ldImm x kk
  | addImm x kk => exact addImm x kk
  | ldReg x y => exact ldReg x y
  | orReg x y => exact orReg x y
  | andReg x y => exact andReg x y
  | xorReg x y => exact xorReg x y
  | addReg x y => exact addReg x y
  | sub x y => exact sub x y
  | shr x y => exact shr x y
  | subn x y => exact subn x y
  | shl x y => exact shl x y
  | sneReg x y => exact sneReg x y
  | ldI nnn => exact ldI nnn
  | jpV0 nnn => exact jpV0 nnn
  | rnd x kk => exact rnd x kk
  | drw x y n => exact drw x y n
  | skp x => exact skp x
  | sknp x => exact sknp x
  | ldVxDt x => exact ldVxDt x
  | ldVxK x => exact ldVxK x
  | ldDtVx x => exact ldDtVx x
  | ldStVx x => exact ldStVx x
  | addIVx x => exact addIVx x
  | ldFVx x => exact ldFVx x
  | ldBVx x => exact ldBVx x
  | ldMemVx x => exact ldMemVx x
  | ldVxMem x => exact ldVxMem x
  | nop w => exact nop w

theorem opcode_decodeWith_encode {p : DecoderParams} {i : Instr} (h : i.wellFormed p = true) :
    (decodeWith p (encode i)).opcode = i.opcode := by
  obtain ⟨r, hr, hop, hhit⟩ | ⟨hop, hnop⟩ := rowMatch i p h
  · exact (opcode_of_hit hr hhit).trans hop
  · exact ((opcode_eq_nop_iff p _).mpr hnop).trans hop.symm

/-- Decoding the encoding of a well-formed instruction gives it back (R57, R68): both take their operands from the word's
fields, and their opcodes agree. -/
theorem decodeWith_encode {p : DecoderParams} {i : Instr} (h : i.wellFormed p = true) : decodeWith p (encode i) = i :=
  calc decodeWith p (encode i) = (recordOf (encode i) (decodeWith p (encode i)).opcode).instr :=
        (decodeWith_takesFieldsOf p (encode i)).symm
    _ = (recordOf (encode i) i.opcode).instr := by rw [opcode_decodeWith_encode h]
    _ = i := encode_takesFields i

theorem decodeBytes_encodeBytes {p : DecoderParams} {i : Instr} (h : i.wellFormed p = true) (rest : List Byte) :
    decodeBytes p (encodeBytes i ++ rest) = .ok (i, rest) := by
  show Except.ok (decodeWith p (wordOfBytes (highByte (encode i)) (lowByte (encode i))), rest) = _
  rw [wordOfBytes_high_low, decodeWith_encode h]

/-- Settles O2: the encoding matches the row of the instruction's own opcode, and its fields are the operands. -/
theorem everyEncodedInstructionDecodesBack : Obligations.EveryEncodedInstructionDecodesBack :=
  fun _ _ rest h => ⟨decodeWith_encode h, decodeBytes_encodeBytes h rest⟩

/-! ### The decoded record -/

/-- Every row's mask holds the family's bits, as its complement lies under x, y and n. -/
theorem mask_or_F000 {p : DecoderParams} : ∀ {r : OpcodeRow}, r ∈ opcodeRows p → 0xF000 ||| r.mask = r.mask := by
  obtain ⟨f, c⟩ := p
  cases f <;> cases c <;> decide

/-- The fields x, y and n are the word's low 12 bits (R55). -/
theorem encXYN_zero_fields (w : Word) : encXYN 0 (fieldX w) (fieldY w) (fieldN w) = w &&& ~~~0xF000 := by
  apply BitVec.eq_of_toNat_eq
  rw [encXYN_toNat (by decide), show (~~~0xF000 : Word) = 0x0FFF from by decide, BitVec.toNat_and]
  show 0 * 0x1000 + w.toNat / 0x100 % 16 * 0x100 + w.toNat / 0x10 % 16 * 0x10 + w.toNat % 16 = w.toNat &&& (2 ^ 12 - 1)
  rw [Nat.and_two_pow_sub_one_eq_mod]
  omega

theorem assemble_of_hit {p : DecoderParams} {r : OpcodeRow} {w : Word} (hr : r ∈ opcodeRows p) (h : r.hits w = true)
    (op : Opcode) : r.assemble (recordOf w op) = w := by
  have hpat : r.pat = w &&& r.mask := (beq_iff_eq.mp h).symm
  show r.pat ||| (encXYN 0 (fieldX w) (fieldY w) (fieldN w) &&& ~~~r.mask) = w
  rw [hpat, encXYN_zero_fields, BitVec.and_assoc, ← BitVec.not_or, mask_or_F000 hr, ← BitVec.and_or_distrib_left,
    BitVec.or_not_self, BitVec.and_allOnes]

/-! ### Words that differ in the low nibble alone -/

theorem and_FFF0_toNat (w : Word) : (w &&& 0xFFF0).toNat = w.toNat / 16 * 16 := by
  have h : w &&& (0xFFF0 : Word) = (w >>> 4) <<< 4 := by
    ext i hi
    simp only [BitVec.getElem_and, BitVec.getElem_shiftLeft]
    interval_cases i <;> simp
  have := w.isLt
  rw [h, BitVec.toNat_shiftLeft, BitVec.toNat_ushiftRight, Nat.shiftLeft_eq, Nat.shiftRight_eq_div_pow]
  omega

theorem fields_of_and_FFF0 {w v : Word} (h : w &&& 0xFFF0 = v &&& 0xFFF0) :
    fieldF v = fieldF w ∧ fieldX v = fieldX w ∧ fieldY v = fieldY w := by
  have hnat := congrArg BitVec.toNat h
  rw [and_FFF0_toNat, and_FFF0_toNat] at hnat
  refine ⟨?_, Fin.ext ?_, Fin.ext ?_⟩
  · rw [fieldF, fieldF]
    omega
  · show v.toNat / 0x100 % 16 = w.toNat / 0x100 % 16
    omega
  · show v.toNat / 0x10 % 16 = w.toNat / 0x10 % 16
    omega

theorem decodeLowNibble_unchecked {p : DecoderParams} (hc : p.checkLowNibble = false) (w : Word) (i : Instr) :
    decodeLowNibble p w i = i := by
  rw [decodeLowNibble, hc]
  rfl

/-- Where the low nibble is not checked, the words of family 5 or 9 that differ there alone decode alike (R61). -/
theorem decodeWith_congr_low_nibble {p : DecoderParams} {w v : Word} (hc : p.checkLowNibble = false)
    (hf : fieldF w = 5 ∨ fieldF w = 9) (h : w &&& 0xFFF0 = v &&& 0xFFF0) : decodeWith p v = decodeWith p w := by
  obtain ⟨hfv, hx, hy⟩ := fields_of_and_FFF0 h
  obtain hf | hf := hf
  · rw [decode_family_5 hf, decode_family_5 (hfv.trans hf), decodeLowNibble_unchecked hc, decodeLowNibble_unchecked hc,
      hx, hy]
  · rw [decode_family_9 hf, decode_family_9 (hfv.trans hf), decodeLowNibble_unchecked hc, decodeLowNibble_unchecked hc,
      hx, hy]

/-- Settles O7: the instruction takes its operands from the record's fields, and a row's mask and its complement split the
word. -/
theorem decodedInstructionKeepsItsWord : Obligations.DecodedInstructionKeepsItsWord := by
  intro p w
  refine ⟨rfl, decodeRecord_instr p w, fun r hr h => assemble_of_hit hr h _, (opcode_eq_nop_iff p w).mpr, ?_⟩
  intro v hc hf h
  have heq := decodeWith_congr_low_nibble hc hf h
  refine ⟨congrArg Instr.opcode heq, ?_⟩
  calc (decodeRecord p v).instr = decodeWith p v := decodeRecord_instr p v
    _ = decodeWith p w := heq
    _ = (decodeRecord p w).instr := (decodeRecord_instr p w).symm

end Sys2Proof
end

section
/-! PROOF. What a family decodes to, and its encoding (30_encoding.md R60 to R64, R68). -/

namespace Sys2Proof

open Config Laws.RowMatch

/-- Settles O5: the family-0 dispatch is the two tests of its selector, each of which compares the part of the word the
selector names. -/
theorem familyZeroFollowsItsSelector : Obligations.FamilyZeroFollowsItsSelector := by
  intro c w hf
  simp only [decode_family_0 hf, decode0, sel0_word_iff, sel0_low8_iff, sel0_low4_iff]
  exact ⟨rfl, rfl, rfl⟩

/-- With the check on, a nonzero low nibble is a no-op (R61). -/
theorem decodeLowNibble_checked {p : DecoderParams} (hc : p.checkLowNibble = true) (w : Word) (i : Instr) :
    decodeLowNibble p w i = if fieldN w = 0 then i else .nop w := by
  rw [decodeLowNibble, hc]
  by_cases hn : fieldN w = 0
  · rw [if_pos hn, hn]
    rfl
  · rw [if_neg hn, if_pos (by rw [Bool.true_and, bne_iff_ne]; exact fun e => hn (Fin.ext e))]

/-- Settles O6: the words are those of families 5 and 9 with the given fields, and their low nibble is read by the check
alone. -/
theorem familiesFiveAndNineLowNibble : Obligations.FamiliesFiveAndNineLowNibble := by
  intro f x y n
  have h5 := fieldF_encXYN (f := 5) (by decide) x y n
  have h9 := fieldF_encXYN (f := 9) (by decide) x y n
  refine ⟨?_, ?_, ?_, ?_⟩
  · rw [decode_family_5 h5, decodeLowNibble_unchecked rfl, fieldX_encXYN (by decide), fieldY_encXYN (by decide)]
  · rw [decode_family_9 h9, decodeLowNibble_unchecked rfl, fieldX_encXYN (by decide), fieldY_encXYN (by decide)]
  · rw [decode_family_5 h5, decodeLowNibble_checked rfl, fieldX_encXYN (by decide), fieldY_encXYN (by decide),
      fieldN_encXYN (by decide)]
  · rw [decode_family_9 h9, decodeLowNibble_checked rfl, fieldX_encXYN (by decide), fieldY_encXYN (by decide),
      fieldN_encXYN (by decide)]

/-! ### Encoding what a word decodes to -/

theorem encNNN_fields {w : Word} {f : Nat} (hf : fieldF w = f) : encNNN f (fieldNNN w) = w :=
  hf ▸ word_eq_encNNN w

theorem encXKK_fields {w : Word} {f : Nat} {kk : Byte} (hf : fieldF w = f) (hk : fieldKK w = kk) :
    encXKK f (fieldX w) kk = w :=
  hf ▸ hk ▸ word_eq_encXKK w

theorem encXYN_fields {w : Word} {f : Nat} {n : Fin 16} (hf : fieldF w = f) (hn : fieldN w = n) :
    encXYN f (fieldX w) (fieldY w) n = w :=
  hf ▸ hn ▸ word_eq_encXYN w

/-- With its low nibble 0 the word is that of its other fields. -/
theorem encXYN_zero_nibble {w : Word} {f : Nat} (hf : fieldF w = f) :
    encXYN f (fieldX w) (fieldY w) 0 = w &&& 0xFFF0 := by
  apply BitVec.eq_of_toNat_eq
  rw [encXYN_toNat (hf ▸ fieldF_lt w), and_FFF0_toNat, ← hf, fieldF]
  show w.toNat / 0x1000 * 0x1000 + w.toNat / 0x100 % 16 * 0x100 + w.toNat / 0x10 % 16 * 0x10 + 0 = w.toNat / 16 * 16
  omega

theorem encode_decode0 {p : DecoderParams} (hp : p.family0 = .word) (w : Word) : encode (decode0 p w) = w := by
  rw [decode0, hp]
  split_ifs with hcls hret
  · exact ((sel0_word_iff _ _).mp hcls).symm
  · exact ((sel0_word_iff _ _).mp hret).symm
  · rfl

theorem encode_decode8 {w : Word} (hf : fieldF w = 0x8) : encode (decode8 w) = w := by
  unfold decode8
  split
  case h_10 => rfl
  all_goals exact encXYN_fields hf (Fin.ext ‹(fieldN w).val = _›)

theorem encode_decodeE {w : Word} (hf : fieldF w = 0xE) : encode (decodeE w) = w := by
  unfold decodeE
  split_ifs with hskp hsknp
  · exact encXKK_fields hf hskp
  · exact encXKK_fields hf hsknp
  · rfl

theorem encode_decodeF {w : Word} (hf : fieldF w = 0xF) : encode (decodeF w) = w := by
  unfold decodeF
  split_ifs
  case neg => rfl
  all_goals exact encXKK_fields hf ‹fieldKK w = _›

/-- A family-5 or -9 word is the encoding of its instruction but for a low nibble that is not checked. -/
theorem encode_decodeLowNibble {p : DecoderParams} {w : Word} {f : Nat} {i : Instr} (hf : fieldF w = f)
    (hi : encode i = encXYN f (fieldX w) (fieldY w) 0) :
    encode (decodeLowNibble p w i) = if p.checkLowNibble = false then w &&& 0xFFF0 else w := by
  cases hc : p.checkLowNibble with
  | false =>
    rw [decodeLowNibble_unchecked hc, hi, encXYN_zero_nibble hf]
    rfl
  | true =>
    show encode (decodeLowNibble p w i) = w
    rw [decodeLowNibble_checked hc]
    split_ifs with hn
    · rw [hi, encXYN_fields hf hn]
    · rfl

/-- In the families but 5 and 9 a word is the encoding of what it decodes to, with FAMILY0_SELECT = word. -/
theorem encode_decodeWith {p : DecoderParams} {w : Word} (hp : p.family0 = .word) (h : ¬(fieldF w = 5 ∨ fieldF w = 9)) :
    encode (decodeWith p w) = w := by
  have hlt := fieldF_lt w
  interval_cases hf : fieldF w
  · exact decode_family_0 hf ▸ encode_decode0 hp w
  · exact decode_family_1 hf ▸ encNNN_fields hf
  · exact decode_family_2 hf ▸ encNNN_fields hf
  · exact decode_family_3 hf ▸ encXKK_fields hf rfl
  · exact decode_family_4 hf ▸ encXKK_fields hf rfl
  · exact absurd (.inl rfl) h
  · exact decode_family_6 hf ▸ encXKK_fields hf rfl
  · exact decode_family_7 hf ▸ encXKK_fields hf rfl
  · exact decode_family_8 hf ▸ encode_decode8 hf
  · exact absurd (.inr rfl) h
  · exact decode_family_A hf ▸ encNNN_fields hf
  · exact decode_family_B hf ▸ encNNN_fields hf
  · exact decode_family_C hf ▸ encXKK_fields hf rfl
  · exact decode_family_D hf ▸ encXYN_fields hf rfl
  · exact decode_family_E hf ▸ encode_decodeE hf
  · exact decode_family_F hf ▸ encode_decodeF hf

/-- Settles O3: in each family the instruction's word is put together from the fields it was decoded from, and only
families 5 and 9 can leave one out. -/
theorem everyWordIsTheEncodingOfItsInstruction : Obligations.EveryWordIsTheEncodingOfItsInstruction := by
  intro p w hp
  by_cases h59 : fieldF w = 5 ∨ fieldF w = 9
  · simp only [h59, true_and]
    obtain hf | hf := h59
    · exact decode_family_5 hf ▸ encode_decodeLowNibble hf rfl
    · exact decode_family_9 hf ▸ encode_decodeLowNibble hf rfl
  · rw [if_neg fun h => h59 h.1, encode_decodeWith hp h59]

end Sys2Proof
end

section
/-! PROOF. What each instruction does, one equation for each way it can go (40_engine.md R72, R83 to R116). -/

namespace Sys2Proof.Machine

/-! ### Jumps and skips -/

@[simp] theorem exec_jp (nnn : Addr) (s : State) : exec (.jp nnn) s = .next (s.setPc (absAddr nnn)) := rfl

@[simp] theorem exec_jpV0 (nnn : Addr) (s : State) :
    exec (.jpV0 nnn) s = .next (s.setPc (indexedAddr nnn (s.getV 0))) := rfl

theorem State.skipIf_beq (s : State) (a b : Byte) : s.skipIf (a == b) = s.setPc (if a = b then s.pc + 2 else s.pc) := by
  rw [State.skipIf_eq]
  simp only [beq_iff_eq]

theorem State.skipIf_bne (s : State) (a b : Byte) : s.skipIf (a != b) = s.setPc (if a = b then s.pc else s.pc + 2) := by
  rw [State.skipIf_eq]
  simp only [bne_iff_ne, ne_eq, ite_not]

theorem State.skipIf_not (s : State) (c : Bool) : s.skipIf (!c) = s.setPc (if c then s.pc else s.pc + 2) := by
  cases c <;> rfl

@[simp] theorem exec_seImm (x : Reg) (kk : Byte) (s : State) :
    exec (.seImm x kk) s = .next (s.setPc (if s.getV x = kk then s.pc + 2 else s.pc)) :=
  congrArg _ (s.skipIf_beq _ _)

@[simp] theorem exec_sneImm (x : Reg) (kk : Byte) (s : State) :
    exec (.sneImm x kk) s = .next (s.setPc (if s.getV x = kk then s.pc else s.pc + 2)) :=
  congrArg _ (s.skipIf_bne _ _)

@[simp] theorem exec_seReg (x y : Reg) (s : State) :
    exec (.seReg x y) s = .next (s.setPc (if s.getV x = s.getV y then s.pc + 2 else s.pc)) :=
  congrArg _ (s.skipIf_beq _ _)

@[simp] theorem exec_sneReg (x y : Reg) (s : State) :
    exec (.sneReg x y) s = .next (s.setPc (if s.getV x = s.getV y then s.pc else s.pc + 2)) :=
  congrArg _ (s.skipIf_bne _ _)

theorem exec_skp_of_ok {x : Reg} {s : State} {k : Key} (h : keyOf (s.getV x) = .ok k) :
    exec (.skp x) s = .next (s.setPc (if s.isDown k then s.pc + 2 else s.pc)) := by
  show execSkp x s = _
  rw [execSkp, h, ← State.skipIf_eq]

theorem exec_skp_of_error {x : Reg} {s : State} {f : Fault} (h : keyOf (s.getV x) = .error f) :
    exec (.skp x) s = .next (s.setStatus (.faulted f)) := by
  show execSkp x s = _
  rw [execSkp, h, ← takeFault_eq]

theorem exec_sknp_of_ok {x : Reg} {s : State} {k : Key} (h : keyOf (s.getV x) = .ok k) :
    exec (.sknp x) s = .next (s.setPc (if s.isDown k then s.pc else s.pc + 2)) := by
  show execSknp x s = _
  rw [execSknp, h, ← State.skipIf_not]

theorem exec_sknp_of_error {x : Reg} {s : State} {f : Fault} (h : keyOf (s.getV x) = .error f) :
    exec (.sknp x) s = .next (s.setStatus (.faulted f)) := by
  show execSknp x s = _
  rw [execSknp, h, ← takeFault_eq]

/-! ### The call stack -/

theorem exec_ret_of_val {s : State} {j : Fin 16} (h : j.val = s.sp.toNat) :
    exec .ret s = .next ((s.setSp (s.sp - 1)).setPc (s.slot j)) := by
  show execRet s = _
  rw [execRet, State.pop_of_val h]

theorem exec_ret_of_ge {s : State} (h : 16 ≤ s.sp.toNat) :
    exec .ret s = .next (s.setStatus (.faulted (.stackRange s.sp))) := by
  show execRet s = _
  rw [execRet, State.pop_of_ge h, ← takeFault_eq]

theorem exec_call_of_val (nnn : Addr) {s : State} {j : Fin 16} (h : j.val = (s.sp + 1).toNat) :
    exec (.call nnn) s = .next (((s.setSp (s.sp + 1)).setSlot j s.pc).setPc (absAddr nnn)) := by
  show execCall nnn s = _
  rw [execCall, State.push_of_val h, Attempt.andThen_done, Attempt.finish_done]

theorem exec_call_of_ge (nnn : Addr) {s : State} (h : 16 ≤ (s.sp + 1).toNat) :
    exec (.call nnn) s = .next ((s.setSp (s.sp + 1)).setStatus (.faulted (.stackRange (s.sp + 1)))) := by
  show execCall nnn s = _
  rw [execCall, State.push_of_ge h, Attempt.andThen_raised, Attempt.finish_raised]

/-! ### Flags before results -/

@[simp] theorem exec_addReg (x y : Reg) (s : State) :
    exec (.addReg x y) s = .next ((s.setV VF (carryFlag (byteSum (s.getV x) (s.getV y)))).setV x
      (wrapByte (byteSum (s.getV x) (s.getV y)))) := rfl

@[simp] theorem exec_sub (x y : Reg) (s : State) :
    exec (.sub x y) s = .next ((s.setV VF (greaterFlag (s.getV x) (s.getV y))).setV x
      (subByte ((s.setV VF (greaterFlag (s.getV x) (s.getV y))).getV x)
        ((s.setV VF (greaterFlag (s.getV x) (s.getV y))).getV y))) := rfl

@[simp] theorem exec_shr (x y : Reg) (s : State) :
    exec (.shr x y) s = .next ((s.setV VF (lowBitFlag (s.getV x))).setV x
      (halfByte ((s.setV VF (lowBitFlag (s.getV x))).getV x))) := rfl

@[simp] theorem exec_subn (x y : Reg) (s : State) :
    exec (.subn x y) s = .next ((s.setV x (greaterFlag (s.getV y) (s.getV x))).setV x
      (subByte ((s.setV x (greaterFlag (s.getV y) (s.getV x))).getV y)
        ((s.setV x (greaterFlag (s.getV y) (s.getV x))).getV x))) := rfl

@[simp] theorem exec_shl (x y : Reg) (s : State) :
    exec (.shl x y) s = .next ((s.setV VF (highBitFlag (s.getV x))).setV x
      (doubleByte ((s.setV VF (highBitFlag (s.getV x))).getV x))) := rfl

/-! ### Index, random byte, key wait, display -/

@[simp] theorem exec_addIVx (x : Reg) (s : State) :
    exec (.addIVx x) s = .next (s.setI (s.i + (s.getV x).setWidth 16)) := rfl

@[simp] theorem exec_rnd (x : Reg) (kk : Byte) (s : State) :
    exec (.rnd x kk) s = .next ((s.setV x (s.randByte &&& kk)).countDraw) := rfl

@[simp] theorem exec_ldVxK (x : Reg) (s : State) : exec (.ldVxK x) s = .next (s.setStatus (.waiting x)) := rfl

theorem exec_drw_of_ok (x y : Reg) {n : RowCount} {s : State} {bytes : List Byte}
    (h : s.mem.readBytes s.i.toNat n.val = .ok bytes) :
    exec (.drw x y n) s = .next ((s.setFb (drawSprite s.fb (s.getV x) (s.getV y) bytes).1).setV VF
      (collisionFlag (drawSprite s.fb (s.getV x) (s.getV y) bytes).2)) := by
  show execDrw x y n s = _
  rw [execDrw, State.effAddr, Nat.add_zero, h]

theorem exec_drw_of_error (x y : Reg) {n : RowCount} {s : State} {f : Fault}
    (h : s.mem.readBytes s.i.toNat n.val = .error f) :
    exec (.drw x y n) s = .next (s.setStatus (.faulted f)) := by
  show execDrw x y n s = _
  rw [execDrw, State.effAddr, Nat.add_zero, h, ← takeFault_eq]

/-! ### Block moves -/

theorem exec_ldMemVx (x : Reg) (s : State) :
    exec (.ldMemVx x) s = (s.storeBytes s.i.toNat (s.regBytes x)).finish := rfl

theorem exec_ldMemVx_of_le {x : Reg} {s : State} (h : s.i.toNat + (x.val + 1) ≤ 4096) :
    exec (.ldMemVx x) s = .next (s.setMem (s.mem.putAll s.i.toNat (s.regBytes x))) := by
  rw [exec_ldMemVx, State.storeBytes_of_le (by rwa [State.regBytes_length]), Attempt.finish_done]

theorem exec_ldMemVx_of_gt {x : Reg} {s : State} (h : 4096 < s.i.toNat + (x.val + 1)) :
    exec (.ldMemVx x) s =
      .next ((s.setMem (s.mem.putAll s.i.toNat ((s.regBytes x).take (4096 - s.i.toNat)))).setStatus
        (.faulted (.memRange (max s.i.toNat 4096)))) := by
  rw [exec_ldMemVx, State.storeBytes_of_gt (by simp) (by rwa [State.regBytes_length]), Attempt.finish_raised]

theorem exec_ldVxMem (x : Reg) (s : State) :
    exec (.ldVxMem x) s = (s.loadRegs s.i.toNat (regsUpTo x)).finish := rfl

theorem exec_ldVxMem_of_le {x : Reg} {s : State} (h : s.i.toNat + (x.val + 1) ≤ 4096) :
    exec (.ldVxMem x) s = .next (s.loadedFrom s.i.toNat (regsUpTo x)) := by
  rw [exec_ldVxMem, State.loadRegs_of_le (by rwa [regsUpTo_length]), Attempt.finish_done]

theorem exec_ldVxMem_of_gt {x : Reg} {s : State} (h : 4096 < s.i.toNat + (x.val + 1)) :
    exec (.ldVxMem x) s =
      .next ((s.loadedFrom s.i.toNat ((regsUpTo x).take (4096 - s.i.toNat))).setStatus
        (.faulted (.memRange (max s.i.toNat 4096)))) := by
  rw [exec_ldVxMem, State.loadRegs_of_gt (by simp) (by rwa [regsUpTo_length]), Attempt.finish_raised]

@[simp] theorem bcdDigits_length (b : Byte) : (bcdDigits b).length = 3 := rfl

theorem exec_ldBVx (x : Reg) (s : State) :
    exec (.ldBVx x) s = ((s.storeBytes s.i.toNat (bcdDigits (s.getV x))).andThen fun s' =>
      s'.storeBytes s'.i.toNat (s'.regBytes x)).finish := rfl

/-- The digits run out of range: no register is stored. -/
theorem exec_ldBVx_of_digits_gt {x : Reg} {s : State} (h : 4096 < s.i.toNat + 3) :
    exec (.ldBVx x) s =
      .next ((s.setMem (s.mem.putAll s.i.toNat ((bcdDigits (s.getV x)).take (4096 - s.i.toNat)))).setStatus
        (.faulted (.memRange (max s.i.toNat 4096)))) := by
  rw [exec_ldBVx, State.storeBytes_of_gt (by simp) h, Attempt.andThen_raised, Attempt.finish_raised]

/-- The digits are stored: what follows is the dump of V0 to Vx over them (D9). -/
theorem exec_ldBVx_of_digits_le {x : Reg} {s : State} (h : s.i.toNat + 3 ≤ 4096) :
    exec (.ldBVx x) s =
      exec (.ldMemVx x) (s.setMem (s.mem.putAll s.i.toNat (bcdDigits (s.getV x)))) := by
  rw [exec_ldBVx, State.storeBytes_of_le h, Attempt.andThen_done, exec_ldMemVx]

end Sys2Proof.Machine
end

section
/-! PROOF. What an instruction may have written by the time it ends, and how it can end: the access table of 10_state.md
section 2 and the fault table of 40_engine.md section 3, once for all instructions. -/

namespace Sys2Proof.Machine

open Config

/-- The opcodes that may write PC. -/
def pcWriters : List Opcode := [.ret, .jp, .call, .jpV0, .seImm, .sneImm, .seReg, .sneReg, .skp, .sknp]

/-- The opcodes that may write I. -/
def indexWriters : List Opcode := [.ldI, .addIVx, .ldFVx]

/-- The opcodes that may write SP and the stack slots. -/
def stackWriters : List Opcode := [.ret, .call]

/-- The opcodes that may write memory. -/
def memWriters : List Opcode := [.ldBVx, .ldMemVx]

/-- The opcodes that may write the framebuffer. -/
def fbWriters : List Opcode := [.cls, .drw]

/-- From `s` to `u` nothing has been written but what the access table lets `i` write, and the canonical forms and the
display's dimensions are kept. The status is as before: `Ends` says what becomes of it. -/
structure Writes (i : Instr) (s u : State) : Prop where
  v : SameV (writesV i) s u
  index : i.opcode ∉ indexWriters → u.i = s.i
  pc : i.opcode ∉ pcWriters → u.pc = s.pc
  stack : i.opcode ∉ stackWriters → SameStack s u
  dt : i.opcode ≠ .ldDtVx → u.dt = s.dt
  st : i.opcode ≠ .ldStVx → u.st = s.st
  mem : i.opcode ∉ memWriters → u.mem = s.mem
  fb : i.opcode ∉ fbWriters → u.fb = s.fb
  keys : ∀ k, u.isDown k = s.isDown k
  host : u.host = s.host
  loaded : u.loaded = s.loaded
  status : u.status = s.status
  memWf : s.mem.wf = true → u.mem.wf = true
  fbWf : s.fb.wf = true → u.fb.wf = true ∧ u.fb.width = s.fb.width ∧ u.fb.height = s.fb.height

namespace Writes

variable {i : Instr} {s t u : State}

protected theorem refl (i : Instr) (s : State) : Writes i s s where
  v _ _ := rfl
  index _ := rfl
  pc _ := rfl
  stack _ := ⟨rfl, fun _ => rfl⟩
  dt _ := rfl
  st _ := rfl
  mem _ := rfl
  fb _ := rfl
  keys _ := rfl
  host := rfl
  loaded := rfl
  status := rfl
  memWf := id
  fbWf h := ⟨h, rfl, rfl⟩

protected theorem trans (h : Writes i s t) (h' : Writes i t u) : Writes i s u where
  v r hr := (h'.v r hr).trans (h.v r hr)
  index hi := (h'.index hi).trans (h.index hi)
  pc hi := (h'.pc hi).trans (h.pc hi)
  stack hi := ⟨(h'.stack hi).1.trans (h.stack hi).1, fun j => ((h'.stack hi).2 j).trans ((h.stack hi).2 j)⟩
  dt hi := (h'.dt hi).trans (h.dt hi)
  st hi := (h'.st hi).trans (h.st hi)
  mem hi := (h'.mem hi).trans (h.mem hi)
  fb hi := (h'.fb hi).trans (h.fb hi)
  keys k := (h'.keys k).trans (h.keys k)
  host := h'.host.trans h.host
  loaded := h'.loaded.trans h.loaded
  status := h'.status.trans h.status
  memWf hm := h'.memWf (h.memWf hm)
  fbWf hf :=
    have ⟨hwf, hw, hh⟩ := h.fbWf hf
    have ⟨hwf', hw', hh'⟩ := h'.fbWf hwf
    ⟨hwf', hw'.trans hw, hh'.trans hh⟩

/-! ### The single writes -/

theorem setV {x : Reg} (b : Byte) (h : x ∈ writesV i) : Writes i s (s.setV x b) :=
  { Writes.refl i s with v := fun r hr => by rw [State.setV_getV, if_neg (ne_of_mem_of_not_mem h hr).symm] }

theorem setI (w : Word) (h : i.opcode ∈ indexWriters) : Writes i s (s.setI w) :=
  { Writes.refl i s with index := fun hn => absurd h hn }

theorem setPc (w : Word) (h : i.opcode ∈ pcWriters) : Writes i s (s.setPc w) :=
  { Writes.refl i s with pc := fun hn => absurd h hn }

theorem setSp (b : Byte) (h : i.opcode ∈ stackWriters) : Writes i s (s.setSp b) :=
  { Writes.refl i s with stack := fun hn => absurd h hn }

theorem setSlot (j : Fin 16) (w : Word) (h : i.opcode ∈ stackWriters) : Writes i s (s.setSlot j w) :=
  { Writes.refl i s with stack := fun hn => absurd h hn }

theorem setDt (b : Byte) (h : i.opcode = .ldDtVx) : Writes i s (s.setDt b) :=
  { Writes.refl i s with dt := fun hn => absurd h hn }

theorem setSt (b : Byte) (h : i.opcode = .ldStVx) : Writes i s (s.setSt b) :=
  { Writes.refl i s with st := fun hn => absurd h hn }

theorem countDraw : Writes i s s.countDraw := { Writes.refl i s with }

theorem setMem {m : Memory} (h : i.opcode ∈ memWriters) (hm : s.mem.wf = true → m.wf = true) :
    Writes i s (s.setMem m) :=
  { Writes.refl i s with mem := fun hn => absurd h hn, memWf := hm }

theorem setFb {fb : Framebuffer} (h : i.opcode ∈ fbWriters)
    (hfb : s.fb.wf = true → fb.wf = true ∧ fb.width = s.fb.width ∧ fb.height = s.fb.height) : Writes i s (s.setFb fb) :=
  { Writes.refl i s with fb := fun hn => absurd h hn, fbWf := hfb }

theorem loadedFrom : ∀ {rs : List Reg} {s : State} (a : Nat), (∀ r ∈ rs, r ∈ writesV i) →
    Writes i s (s.loadedFrom a rs)
  | [], s, _, _ => .refl i s
  | _ :: _, _, a, h =>
    (setV _ (h _ List.mem_cons_self)).trans (loadedFrom (a + 1) fun r hr => h r (List.mem_cons_of_mem _ hr))

end Writes

/-- How `i`, having written what makes `s` into `u`, ends: done where the fault table expects no fault, with the fault
that it expects, or in the wait of LD Vx, K. -/
def Ends (i : Instr) (s u : State) : Prop :=
  (exec i s = .next u ∧ expectedFault i s = none) ∨
  (∃ f, exec i s = .next (u.setStatus (.faulted f)) ∧ expectedFault i s = some f) ∨
  ∃ x, i = .ldVxK x ∧ exec i s = .next (u.setStatus (.waiting x)) ∧ expectedFault i s = none

theorem Ends.done {i : Instr} {s u : State} (h : exec i s = .next u) (hf : expectedFault i s = none) : Ends i s u :=
  .inl ⟨h, hf⟩

theorem Ends.fault {i : Instr} {s u : State} {f : Fault} (h : exec i s = .next (u.setStatus (.faulted f)))
    (hf : expectedFault i s = some f) : Ends i s u :=
  .inr (.inl ⟨f, h, hf⟩)

/-- Stores that are all in range. -/
theorem writes_putAll {i : Instr} (h : i.opcode ∈ memWriters) {s : State} {a : Nat} {bs : List Byte}
    (ha : a + bs.length ≤ 4096) : Writes i s (s.setMem (s.mem.putAll a bs)) :=
  .setMem h (Memory.wf_putAll ha)

/-- Stores up to the first that is out of range. -/
theorem writes_putAll_take {i : Instr} (h : i.opcode ∈ memWriters) {s : State} {a : Nat} {bs : List Byte} :
    Writes i s (s.setMem (s.mem.putAll a (bs.take (4096 - a)))) :=
  .setMem h fun hm => Memory.wf_putAll_take hm a bs

theorem ret_ends (s : State) : ∃ u, Writes .ret s u ∧ Ends .ret s u := by
  obtain ⟨j, hj, -, hf⟩ | ⟨hge, -, hf⟩ := stackIndex_cases s.sp
  · exact ⟨_, (Writes.setSp _ (by decide)).trans (.setPc _ (by decide)), .done (exec_ret_of_val hj) hf⟩
  · exact ⟨s, .refl _ s, .fault (exec_ret_of_ge hge) hf⟩

theorem call_ends (nnn : Addr) (s : State) : ∃ u, Writes (.call nnn) s u ∧ Ends (.call nnn) s u := by
  have hpc : (Instr.call nnn).opcode ∈ pcWriters := by simp [pcWriters, Instr.opcode]
  have hstack : (Instr.call nnn).opcode ∈ stackWriters := by simp [stackWriters, Instr.opcode]
  obtain ⟨j, hj, -, hf⟩ | ⟨hge, -, hf⟩ := stackIndex_cases (s.sp + 1)
  · exact ⟨_, ((Writes.setSp _ hstack).trans (.setSlot j _ hstack)).trans (.setPc _ hpc),
      .done (exec_call_of_val nnn hj) hf⟩
  · exact ⟨_, .setSp _ hstack, .fault (exec_call_of_ge nnn hge) hf⟩

theorem skp_ends (x : Reg) (s : State) : ∃ u, Writes (.skp x) s u ∧ Ends (.skp x) s u := by
  obtain ⟨k, hk, hf⟩ | ⟨hk, hf⟩ := keyOf_cases (s.getV x)
  · exact ⟨_, .setPc _ (by simp [pcWriters, Instr.opcode]), .done (exec_skp_of_ok hk) hf⟩
  · exact ⟨s, .refl _ s, .fault (exec_skp_of_error hk) hf⟩

theorem sknp_ends (x : Reg) (s : State) : ∃ u, Writes (.sknp x) s u ∧ Ends (.sknp x) s u := by
  obtain ⟨k, hk, hf⟩ | ⟨hk, hf⟩ := keyOf_cases (s.getV x)
  · exact ⟨_, .setPc _ (by simp [pcWriters, Instr.opcode]), .done (exec_sknp_of_ok hk) hf⟩
  · exact ⟨s, .refl _ s, .fault (exec_sknp_of_error hk) hf⟩

theorem drw_ends (x y : Reg) (n : RowCount) (s : State) : ∃ u, Writes (.drw x y n) s u ∧ Ends (.drw x y n) s u := by
  obtain ⟨⟨bytes, hb⟩, hf⟩ | ⟨hb, hf⟩ := Memory.readBytes_cases s.mem s.i.toNat n.val
  · refine ⟨_, (Writes.setFb (by simp [fbWriters, Instr.opcode]) fun hwf => ?_).trans
      (.setV _ List.mem_cons_self), .done (exec_drw_of_ok x y hb) hf⟩
    exact drawSprite_keeps hwf _ _ bytes
  · exact ⟨s, .refl _ s, .fault (exec_drw_of_error x y hb) hf⟩

theorem ldMemVx_ends (x : Reg) (s : State) : ∃ u, Writes (.ldMemVx x) s u ∧ Ends (.ldMemVx x) s u := by
  have hmem : (Instr.ldMemVx x).opcode ∈ memWriters := by simp [memWriters, Instr.opcode]
  by_cases h : s.i.toNat + (x.val + 1) ≤ 4096
  · exact ⟨_, writes_putAll hmem (by rwa [State.regBytes_length]),
      .done (exec_ldMemVx_of_le h) (rangeFault_of_le (.inr h))⟩
  · exact ⟨_, writes_putAll_take hmem, .fault (exec_ldMemVx_of_gt (by omega)) (rangeFault_of_gt (by omega) (by omega))⟩

theorem ldBVx_ends (x : Reg) (s : State) : ∃ u, Writes (.ldBVx x) s u ∧ Ends (.ldBVx x) s u := by
  have hmem : (Instr.ldBVx x).opcode ∈ memWriters := by simp [memWriters, Instr.opcode]
  have hfault : 4096 < s.i.toNat + max 3 (x.val + 1) →
      expectedFault (.ldBVx x) s = some (.memRange (max s.i.toNat 4096)) := rangeFault_of_gt (by omega)
  by_cases hd : s.i.toNat + 3 ≤ 4096
  · have hdigits : Writes (.ldBVx x) s (s.setMem (s.mem.putAll s.i.toNat (bcdDigits (s.getV x)))) :=
      writes_putAll hmem hd
    by_cases hr : s.i.toNat + (x.val + 1) ≤ 4096
    · exact ⟨_, hdigits.trans (writes_putAll hmem (by rwa [State.regBytes_length])),
        .done ((exec_ldBVx_of_digits_le hd).trans (exec_ldMemVx_of_le hr)) (rangeFault_of_le (.inr (by omega)))⟩
    · exact ⟨_, hdigits.trans (writes_putAll_take hmem),
        .fault ((exec_ldBVx_of_digits_le hd).trans (exec_ldMemVx_of_gt (Nat.lt_of_not_le hr))) (hfault (by omega))⟩
  · exact ⟨_, writes_putAll_take hmem, .fault (exec_ldBVx_of_digits_gt (by omega)) (hfault (by omega))⟩

theorem ldVxMem_ends (x : Reg) (s : State) : ∃ u, Writes (.ldVxMem x) s u ∧ Ends (.ldVxMem x) s u := by
  by_cases h : s.i.toNat + (x.val + 1) ≤ 4096
  · exact ⟨_, .loadedFrom _ fun _ hr => hr, .done (exec_ldVxMem_of_le h) (rangeFault_of_le (.inr h))⟩
  · exact ⟨_, .loadedFrom _ fun _ hr => List.mem_of_mem_take hr,
      .fault (exec_ldVxMem_of_gt (by omega)) (rangeFault_of_gt (by omega) (by omega))⟩

/-- Everything an execution can do: it writes what the access table lets it write and ends as the fault table says. -/
theorem exec_ends (i : Instr) (s : State) : ∃ u, Writes i s u ∧ Ends i s u := by
  cases i with
  | cls => exact ⟨_, .setFb (by decide) fun h => ⟨Framebuffer.clear_wf h, rfl, rfl⟩, .done rfl rfl⟩
  | ret => exact ret_ends s
  | call nnn => exact call_ends nnn s
  | jp nnn | jpV0 nnn =>
    exact ⟨_, .setPc _ (by simp [pcWriters, Instr.opcode]), .done rfl rfl⟩
  | seImm x kk => exact ⟨_, .setPc _ (by simp [pcWriters, Instr.opcode]), .done (exec_seImm x kk s) rfl⟩
  | sneImm x kk => exact ⟨_, .setPc _ (by simp [pcWriters, Instr.opcode]), .done (exec_sneImm x kk s) rfl⟩
  | seReg x y => exact ⟨_, .setPc _ (by simp [pcWriters, Instr.opcode]), .done (exec_seReg x y s) rfl⟩
  | sneReg x y => exact ⟨_, .setPc _ (by simp [pcWriters, Instr.opcode]), .done (exec_sneReg x y s) rfl⟩
  | skp x => exact skp_ends x s
  | sknp x => exact sknp_ends x s
  | ldImm x _ | addImm x _ | ldReg x _ | orReg x _ | andReg x _ | xorReg x _ | ldVxDt x =>
    exact ⟨_, .setV _ List.mem_cons_self, .done rfl rfl⟩
  | addReg x _ | sub x _ | shr x _ | shl x _ =>
    exact ⟨_, (Writes.setV _ (List.mem_cons_of_mem _ List.mem_cons_self)).trans (.setV _ List.mem_cons_self),
      .done rfl rfl⟩
  | subn x _ => exact ⟨_, (Writes.setV _ List.mem_cons_self).trans (.setV _ List.mem_cons_self), .done rfl rfl⟩
  | rnd x _ => exact ⟨_, (Writes.setV _ List.mem_cons_self).trans .countDraw, .done rfl rfl⟩
  | drw x y n => exact drw_ends x y n s
  | ldI _ | addIVx _ | ldFVx _ => exact ⟨_, .setI _ (by simp [indexWriters, Instr.opcode]), .done rfl rfl⟩
  | ldDtVx _ => exact ⟨_, .setDt _ rfl, .done rfl rfl⟩
  | ldStVx _ => exact ⟨_, .setSt _ rfl, .done rfl rfl⟩
  | ldVxK x => exact ⟨s, .refl _ s, .inr (.inr ⟨x, rfl, rfl, rfl⟩)⟩
  | ldBVx x => exact ldBVx_ends x s
  | ldMemVx x => exact ldMemVx_ends x s
  | ldVxMem x => exact ldVxMem_ends x s
  | nop _ => exact ⟨s, .refl _ s, .done rfl rfl⟩

end Sys2Proof.Machine
end

section
/-! PROOF. The whole-machine rules about one execution (40_engine.md R72, R80; 10_state.md section 2). -/

namespace Sys2Proof.Machine

/-- An execution's next state is what the access table lets it write, and a status. -/
theorem Ends.exec_eq {i : Instr} {s u : State} (h : Ends i s u) : ∃ σ, exec i s = .next (u.setStatus σ) := by
  obtain ⟨he, -⟩ | ⟨f, he, -⟩ | ⟨x, -, he, -⟩ := h
  · exact ⟨u.status, he⟩
  · exact ⟨_, he⟩
  · exact ⟨_, he⟩

theorem exists_writes_of_exec {i : Instr} {s t : State} (h : exec i s = .next t) :
    ∃ u σ, Writes i s u ∧ t = u.setStatus σ := by
  obtain ⟨u, hw, hends⟩ := exec_ends i s
  obtain ⟨σ, he⟩ := hends.exec_eq
  exact ⟨u, σ, hw, Host.Outcome.next.inj (h.symm.trans he)⟩

/-- Settles O48: the three ways an execution can end, the status before it being kept up to there. -/
theorem executeHasThreeOutcomes : Obligations.ExecuteHasThreeOutcomes := by
  intro i s
  obtain ⟨u, hw, ⟨he, -⟩ | ⟨f, he, -⟩ | ⟨x, hi, he, -⟩⟩ := exec_ends i s
  · exact ⟨u, he, .inl hw.status⟩
  · exact ⟨_, he, .inr (.inl ⟨f, rfl⟩)⟩
  · exact ⟨_, he, .inr (.inr ⟨x, hi, rfl⟩)⟩

/-- Settles O49: on a Running machine the status becomes Faulted in the fault ending alone, with the fault that the table
expects; in the other two the table expects none. -/
theorem faultsAreThoseOfTheTable : Obligations.FaultsAreThoseOfTheTable := by
  intro i s hrunning
  obtain ⟨u, hw, ⟨he, hnone⟩ | ⟨f, he, hsome⟩ | ⟨x, -, he, hnone⟩⟩ := exec_ends i s
  · exact ⟨u, he, fun f => by simp [hw.status, hrunning, hnone]⟩
  · exact ⟨_, he, fun f' => by simp [hsome]⟩
  · exact ⟨_, he, fun f => by simp [hnone]⟩

/-- Settles O50: the memory, display and stack columns of the access table. -/
theorem onlyTheirInstructionsWriteMemoryDisplayStack : Obligations.OnlyTheirInstructionsWriteMemoryDisplayStack := by
  intro i s t h
  obtain ⟨u, σ, hw, rfl⟩ := exists_writes_of_exec h
  exact ⟨fun hi a => congrArg (·.read a) (hw.mem hi), hw.fb, hw.stack, hw.keys, hw.host, hw.loaded⟩

/-- Settles O51: the register columns of the access table. -/
theorem onlyTheirInstructionsWriteRegisters : Obligations.OnlyTheirInstructionsWriteRegisters := by
  intro i s t h
  obtain ⟨u, σ, hw, rfl⟩ := exists_writes_of_exec h
  exact ⟨hw.pc, hw.index, hw.dt, hw.st, hw.v⟩

end Sys2Proof.Machine
end

section
/-! PROOF. The invariant (log 19, log 25): memory and framebuffer stay canonical and the display keeps its size, through an
execution, a host action and a step. -/

namespace Sys2Proof.Machine

open Config

theorem State.wf_iff {s : State} : s.wf = true ↔ s.mem.wf = true ∧ s.fb.wf = true := by
  rw [State.wf, Bool.and_eq_true]

/-- `t` meets the invariant and has the display dimensions of `s`. -/
def KeepsInvariant (s t : State) : Prop := t.wf = true ∧ t.fb.width = s.fb.width ∧ t.fb.height = s.fb.height

theorem KeepsInvariant.of_eq {s t : State} (hs : s.wf = true) (hm : t.mem = s.mem) (hf : t.fb = s.fb) :
    KeepsInvariant s t :=
  ⟨by rwa [State.wf, hm, hf], by rw [hf], by rw [hf]⟩

theorem exec_keepsInvariant {i : Instr} {s t : State} (hs : s.wf = true) (h : exec i s = .next t) :
    KeepsInvariant s t := by
  obtain ⟨u, σ, hw, rfl⟩ := exists_writes_of_exec h
  obtain ⟨hm, hf⟩ := State.wf_iff.mp hs
  obtain ⟨hfb, hwidth, hheight⟩ := hw.fbWf hf
  exact ⟨State.wf_iff.mpr ⟨hw.memWf hm, hfb⟩, hwidth, hheight⟩

theorem runInstruction_keepsInvariant {p : DecoderParams} {s t : State} (hs : s.wf = true)
    (h : runInstruction p s = .next t) : KeepsInvariant s t := by
  by_cases hpc : s.pc.toNat + 1 < 4096
  · rw [runInstruction_of_lt p hpc] at h
    exact exec_keepsInvariant (s := s.setPc (s.pc + 2)) hs h
  · rw [runInstruction_of_ge p (Nat.le_of_not_lt hpc)] at h
    obtain rfl := Host.Outcome.next.inj h
    exact .of_eq hs rfl rfl

/-! ### Host actions -/

/-- What no host action writes: memory, I, PC, the stack, the framebuffer and the model's own fields but `host`
(60_exceptions.md R138). -/
structure HostKeeps (s t : State) : Prop where
  mem : t.mem = s.mem
  index : t.i = s.i
  pc : t.pc = s.pc
  stack : SameStack s t
  fb : t.fb = s.fb
  draws : t.draws = s.draws
  loaded : t.loaded = s.loaded

theorem HostKeeps.refl (s : State) : HostKeeps s s := ⟨rfl, rfl, rfl, ⟨rfl, fun _ => rfl⟩, rfl, rfl, rfl⟩

theorem State.pressKey_cases (s : State) (k : Key) : s.pressKey k = s ∨
    ∃ x, s.status = .waiting x ∧ s.pressKey k = (s.setV x (BitVec.ofNat 8 k.val)).setStatus .running := by
  by_cases h : ∃ x, s.status = .waiting x
  · obtain ⟨x, hx⟩ := h
    exact .inr ⟨x, hx, State.pressKey_of_waiting hx k⟩
  · exact .inl (State.pressKey_of_not_waiting (fun x hx => h ⟨x, hx⟩) k)

theorem pressKey_hostKeeps (s : State) (k : Key) : HostKeeps s (s.pressKey k) := by
  obtain h | ⟨x, -, h⟩ := s.pressKey_cases k <;> rw [h]
  · exact .refl s
  · exact ⟨rfl, rfl, rfl, ⟨rfl, fun _ => rfl⟩, rfl, rfl, rfl⟩

theorem hostAct_hostKeeps (a : HostAction) (s : State) : HostKeeps s (hostAct a s) := by
  cases a with
  | step | shutdown => exact .refl s
  | tick | setDown k | setUp k => exact ⟨rfl, rfl, rfl, ⟨rfl, fun _ => rfl⟩, rfl, rfl, rfl⟩
  | press k => exact pressKey_hostKeeps s k
  | pressCode code =>
    show HostKeeps s (s.pressCode code)
    obtain h | ⟨k, h⟩ := s.pressCode_cases code <;> rw [h]
    · exact .refl s
    · exact pressKey_hostKeeps s k

/-- Settles O52: of the ways a step can go an instruction keeps the invariant by the access table, and every other one
writes neither memory nor framebuffer. -/
theorem everyStepKeepsTheInvariant : Obligations.EveryStepKeepsTheInvariant := by
  intro p s t hs h
  show KeepsInvariant s t
  obtain ⟨rest, -, -, -, e⟩ | ⟨a, rest, -, -, -, -, e⟩ | ⟨x, -, -, e⟩ | ⟨x, rest, -, -, e⟩ | ⟨f, -, e⟩ | ⟨-, e⟩ |
    ⟨rest, -, -, e⟩ | ⟨rest, -, -, -, e⟩ := stepWith_cases p s
  · exact runInstruction_keepsInvariant (s := s.setHost rest) hs (e.symm.trans h)
  · obtain rfl := Host.Outcome.next.inj (h.symm.trans e)
    have hkeeps := hostAct_hostKeeps a (s.setHost rest)
    exact .of_eq hs hkeeps.mem hkeeps.fb
  · obtain rfl := Host.Outcome.next.inj (h.symm.trans e)
    exact .of_eq hs rfl rfl
  · obtain rfl := Host.Outcome.next.inj (h.symm.trans e)
    exact .of_eq hs rfl rfl
  all_goals exact absurd (h.symm.trans e) (by simp)

end Sys2Proof.Machine
end

section
/-! PROOF. Jumps and the call stack (41_flow_0-2.md R84 to R86; 44_misc_9-D.md R103; 10_state.md R19 to R21). -/

namespace Sys2Proof.Machine

open Config

/-- The family of a word, from the bits under the mask 0xF000, hence its decoding. -/
theorem decodeWith_of_and_F000 {p : DecoderParams} {w : Word} {i : Instr} {f : Nat} (hf : f < 16)
    (hi : fieldF w = f → decodeWith p w = i) (h : w &&& 0xF000 = BitVec.ofNat 16 (f * 0x1000)) : decodeWith p w = i :=
  hi ((hits_F000 hf).mp h)

/-! ### RET and CALL -/

/-- A stack pointer and a program counter written: the frame of RET, and with one slot that of CALL. -/
theorem onlyPcStack_setSp_setPc (s : State) (b : Byte) (w : Word) : OnlyPcStack [] s ((s.setSp b).setPc w) :=
  ⟨fun _ _ => rfl, rfl, fun _ _ => rfl, ⟨rfl, rfl⟩, rfl, fun _ => rfl, ⟨rfl, fun _ => rfl, rfl, rfl⟩, rfl⟩

theorem onlyPcStack_setSp_setSlot_setPc (s : State) (b : Byte) (j : Fin 16) (a w : Word) :
    OnlyPcStack [j] s (((s.setSp b).setSlot j a).setPc w) := by
  refine ⟨fun _ _ => rfl, rfl, fun k hk => ?_, ⟨rfl, rfl⟩, rfl, fun _ => rfl, ⟨rfl, fun _ => rfl, rfl, rfl⟩, rfl⟩
  rw [State.setPc_slot, State.setSlot_slot, if_neg (List.ne_of_not_mem_cons hk), State.setSp_slot]

/-- Settles O12: the bound check of the pop decides between the two ways RET goes. -/
theorem returnPopsPc : Obligations.ReturnPopsPc := fun s =>
  ⟨fun _ hj => ⟨_, exec_ret_of_val hj, rfl, rfl, onlyPcStack_setSp_setPc s _ _⟩, exec_ret_of_ge⟩

/-- Settles O14: the bound check of the push decides between the two ways CALL goes. -/
theorem callPushesPc : Obligations.CallPushesPc := by
  refine fun nnn s => ⟨fun j hj => ⟨_, exec_call_of_val nnn hj, rfl, ?_, absAddr_toNat nnn, ?_⟩, exec_call_of_ge nnn⟩
  · rw [State.setPc_slot, State.setSlot_slot, if_pos rfl]
  · exact onlyPcStack_setSp_setSlot_setPc s _ j _ _

/-- Settles O15: RET pops the slot that CALL pushed. -/
theorem returnUndoesCall : Obligations.ReturnUndoesCall := by
  intro nnn s h
  obtain ⟨j, hj⟩ : ∃ j : Fin 16, j.val = (s.sp + 1).toNat := ⟨⟨_, h⟩, rfl⟩
  have hret := exec_ret_of_val (s := ((s.setSp (s.sp + 1)).setSlot j s.pc).setPc (absAddr nnn)) hj
  refine ⟨_, _, exec_call_of_val nnn hj, hret, ?_, ?_, fun _ _ => by simp, by simp, fun _ => by simp, by simp⟩
  · rw [State.setPc_pc, State.setPc_slot, State.setSlot_slot, if_pos rfl]
  · show s.sp + 1 - 1 = s.sp
    exact BitVec.add_sub_cancel _ _

/-! ### Pushes, then as many pops (R21) -/

theorem byte_add_one_toNat {b : Byte} (h : b.toNat < 255) : (b + 1).toNat = b.toNat + 1 := by
  rw [BitVec.toNat_add]
  show (b.toNat + 1) % 256 = b.toNat + 1
  omega

theorem popAll_succ_of_pop {s s' t : State} {a : Word} {as : List Word} {k : Nat} (h : s.pop = .ok (a, s'))
    (hs : popAll s' k = .ok (as, t)) : popAll s (k + 1) = .ok (a :: as, t) := by
  rw [popAll, h]
  simp only [hs]

/-- One more pop, of what was pushed first. -/
theorem popAll_succ_last : ∀ {k : Nat} {s t t' : State} {a : Word} {as : List Word}, popAll s k = .ok (as, t) →
    t.pop = .ok (a, t') → popAll s (k + 1) = .ok (as ++ [a], t')
  | 0, s, t, t', a, as, h, hp => by
    obtain ⟨rfl, rfl⟩ : [] = as ∧ s = t := by simpa [popAll] using h
    exact popAll_succ_of_pop hp rfl
  | k + 1, s, t, t', a, as, h, hp => by
    rw [popAll] at h
    split at h
    · nomatch h
    · rename_i b s' hpop
      split at h
      · nomatch h
      · rename_i bs t'' hrest
        obtain ⟨rfl, rfl⟩ : b :: bs = as ∧ t'' = t := by simpa using h
        exact popAll_succ_of_pop hpop (popAll_succ_last hrest hp)

theorem mem_drop_finRange {m n : Nat} {k : Fin m} : k ∈ (List.finRange m).drop n ↔ n ≤ k.val := by
  rw [List.mem_drop_iff_getElem]
  constructor
  · rintro ⟨i, hi, rfl⟩
    simp
  · intro h
    exact ⟨k.val - n, by simp; omega, Fin.ext (by simp; omega)⟩

/-- Settles O16, by induction on the list: what the first push writes lies below the slots of the later ones, so the last
pop finds it. -/
theorem pushesThenPopsReverse : Obligations.PushesThenPopsReverse := by
  intro s as
  induction as generalizing s with
  | nil =>
    intro _
    exact ⟨s, s, rfl, rfl, rfl, rfl, ⟨fun _ _ => rfl, rfl, fun _ _ => rfl, ⟨rfl, rfl⟩, rfl, fun _ => rfl,
      ⟨rfl, fun _ => rfl, rfl, rfl⟩, rfl⟩, rfl⟩
  | cons a rest ih =>
    intro hlen
    rw [List.length_cons] at hlen
    have hsp : (s.sp + 1).toNat = s.sp.toNat + 1 := byte_add_one_toNat (by omega)
    obtain ⟨j, hj⟩ : ∃ j : Fin 16, j.val = (s.sp + 1).toNat := ⟨⟨(s.sp + 1).toNat, by rw [hsp]; omega⟩, rfl⟩
    obtain ⟨t, u, hpush, hspt, hpop, hspu, ⟨hv, hi, hslots, htimers, hstatus, hmem, haround, hdraws⟩, hpc⟩ :=
      ih ((s.setSp (s.sp + 1)).setSlot j a) (by rw [State.setSlot_sp, State.setSp_sp]; omega)
    rw [State.setSlot_sp, State.setSp_sp] at hspt hspu hslots
    have hslot : ∀ k : Fin 16, k.val ≤ s.sp.toNat + 1 → u.slot k = if k = j then a else s.slot k := fun k hk => by
      rw [hslots k (by rw [mem_drop_finRange]; omega), State.setSlot_slot, State.setSp_slot]
    have hlast : u.pop = .ok (a, u.setSp (u.sp - 1)) := by
      rw [State.pop_of_val (hj.trans (congrArg BitVec.toNat hspu.symm)), hslot j (by omega), if_pos rfl]
    refine ⟨t, u.setSp (u.sp - 1), ?_, ?_, ?_, ?_, ⟨hv, hi, fun k hk => ?_, htimers, hstatus, hmem, haround, hdraws⟩, hpc⟩
    · rw [pushAll, State.push_of_val hj, Attempt.andThen_done, hpush]
    · rw [hspt, hsp, List.length_cons]
      omega
    · rw [List.reverse_cons]
      exact popAll_succ_last hpop hlast
    · rw [State.setSp_sp, hspu]
      exact BitVec.add_sub_cancel _ _
    · rw [mem_drop_finRange] at hk
      rw [State.setSp_slot, hslot k (by omega), if_neg (by rintro rfl; omega)]

/-! ### JP and JP V0 -/

/-- The sum of an address and a byte fits in 16 bits. -/
theorem indexedAddr_toNat (nnn : Addr) (v0 : Byte) : (indexedAddr nnn v0).toNat = nnn.toNat + v0.toNat := by
  have hn := nnn.isLt
  have hv := v0.isLt
  rw [indexedAddr, BitVec.toNat_ofNat, Nat.mod_eq_of_lt (by omega)]

/-- Settles O17: the mask fixes the family; the 16 bits of PC hold the sum. -/
theorem indexedJumpAddsV0 : Obligations.IndexedJumpAddsV0 :=
  ⟨fun _ _ => decodeWith_of_and_F000 (by decide) decode_family_B,
    fun nnn s => ⟨_, exec_jpV0 nnn s, indexedAddr_toNat nnn (s.getV 0), onlyPc_setPc s _⟩⟩

/-- A state with nothing pending is its own state after the host's step. -/
theorem State.setHost_nil {s : State} (h : s.host = []) : s.setHost [] = s := by
  rw [← h]
  rfl

/-- A step over a jump to its own address leaves the state as it is. -/
theorem step_self_jump {s : State} {nnn : Addr} (hloaded : s.loaded = true) (hrunning : s.status = .running)
    (hhost : s.host = []) (hpc : s.pc = nnn.setWidth 16)
    (hword : s.mem.readWord nnn.toNat = some (encode (.jp nnn))) : step s = .next s := by
  have hword' : s.mem.readWord s.pc.toNat = some (encode (.jp nnn)) := by
    rw [hpc]
    exact (congrArg _ (absAddr_toNat nnn)).trans hword
  rw [step_of_running hloaded hrunning (.inr ⟨hhost, rfl⟩), State.setHost_nil hhost,
    runInstruction_of_readWord _ hword', decodeWith_encode rfl, exec_jp]
  show Host.Outcome.next (s.setPc (nnn.setWidth 16)) = _
  rw [← hpc, State.setPc_self]

/-- Settles O13: the mask fixes the family; JP is the one PC write; a fetch at 0xFFF is out of range. -/
theorem jumpWritesOnlyPc : Obligations.JumpWritesOnlyPc := by
  refine ⟨fun _ _ => decodeWith_of_and_F000 (by decide) decode_family_1,
    fun nnn s => ⟨_, exec_jp nnn s, absAddr_toNat nnn, onlyPc_setPc s _⟩,
    fun s nnn hloaded hrunning hhost hpc _ hword => step_self_jump hloaded hrunning hhost hpc hword, ?_⟩
  intro s t hloaded hrunning hhost h
  obtain rfl := Host.Outcome.next.inj ((exec_jp _ s).symm.trans h)
  have hhost' : (s.setPc (absAddr 0xFFF)).host = [] := hhost
  rw [step_of_running (s := s.setPc (absAddr 0xFFF)) (rest := []) hloaded hrunning (.inr ⟨hhost', rfl⟩),
    State.setHost_nil hhost', runInstruction_of_ge _ (by rw [State.setPc_pc]; decide)]
  rfl

end Sys2Proof.Machine
end

section
/-! PROOF. The skips (42_skip_load_3-7.md R87 to R89; 44_misc_9-D.md R101; 45_keys_E.md R106, R107). -/

namespace Sys2Proof.Machine

open Config

/-- Settles O18: the mask fixes the family; each skip is one PC write. -/
theorem immediateSkips : Obligations.ImmediateSkips :=
  ⟨fun _ _ => ⟨decodeWith_of_and_F000 (by decide) decode_family_3, decodeWith_of_and_F000 (by decide) decode_family_4⟩,
    fun x kk s => ⟨⟨_, exec_seImm x kk s, rfl, onlyPc_setPc s _⟩, ⟨_, exec_sneImm x kk s, rfl, onlyPc_setPc s _⟩⟩⟩

/-- Settles O19: each skip is one PC write. -/
theorem registerSkips : Obligations.RegisterSkips := fun x y s =>
  ⟨⟨_, exec_seReg x y s, rfl, onlyPc_setPc s _⟩, ⟨_, exec_sneReg x y s, rfl, onlyPc_setPc s _⟩⟩

/-- A word of family E decodes to what the dispatch on its low byte answers, under every parameter setting (R58). -/
theorem decodeWith_of_decodeE_byte {p : DecoderParams} {w : Word} {k : Nat} {i : Instr}
    (hi : fieldKK w = BitVec.ofNat 8 k → decodeE w = i) (hk : k < 256)
    (h : w &&& 0xF0FF = BitVec.ofNat 16 (0xE * 0x1000 + k)) : decodeWith p w = i := by
  obtain ⟨hf, hbyte⟩ := (hits_F0FF (by decide) hk).mp h
  rw [decode_family_E hf, hi ((fieldKK_eq_iff hk).mpr hbyte)]

theorem decodeE_byte_9E {w : Word} (h : fieldKK w = 0x9E) : decodeE w = .skp (fieldX w) := by
  simp [decodeE, h]

theorem decodeE_byte_A1 {w : Word} (h : fieldKK w = 0xA1) : decodeE w = .sknp (fieldX w) := by
  simp [decodeE, h]

/-- Settles O20: the mask fixes the family and the low byte; a key number gives one PC write, a larger value the fault. -/
theorem keySkips : Obligations.KeySkips := by
  refine ⟨fun _ _ => ⟨decodeWith_of_decodeE_byte decodeE_byte_9E (by decide),
    decodeWith_of_decodeE_byte decodeE_byte_A1 (by decide)⟩, fun x s => ⟨fun k hk => ?_, fun h => ?_⟩⟩
  · have hkey := keyOf_of_val hk
    exact ⟨⟨_, exec_skp_of_ok hkey, rfl, onlyPc_setPc s _⟩, ⟨_, exec_sknp_of_ok hkey, rfl, onlyPc_setPc s _⟩⟩
  · have hkey := keyOf_of_gt h
    exact ⟨exec_skp_of_error hkey, exec_sknp_of_error hkey⟩

end Sys2Proof.Machine
end

section
/-! PROOF. The instructions that write a flag and then a result (43_alu_8.md R96 to R100; D6). -/

namespace Sys2Proof.Machine

/-! ### The registers after the two writes -/

section FlagThenResult

variable {s : State} {x : Reg} {flag result : Byte}

theorem getV_flagThenResult : ((s.setV VF flag).setV x result).getV x = result :=
  State.setV_getV_self _ x result

theorem getV_VF_flagThenResult (h : x ≠ VF) : ((s.setV VF flag).setV x result).getV VF = flag := by
  rw [State.setV_getV, if_neg h.symm, State.setV_getV_self]

/-- The flag write leaves the other registers to be read. -/
theorem getV_setV_of_ne {q : Reg} (h : q ≠ x) : (s.setV x flag).getV q = s.getV q := by
  rw [State.setV_getV, if_neg h]

end FlagThenResult

/-! ### The flags and results as numbers -/

theorem carryFlag_byteSum_toNat (a b : Byte) : (carryFlag (byteSum a b)).toNat = (a.toNat + b.toNat) / 256 := by
  have ha := a.isLt
  have hb := b.isLt
  rw [carryFlag, byteSum, bool8]
  by_cases h : a.toNat + b.toNat > 255
  · rw [decide_eq_true h]
    show 1 = _
    omega
  · rw [decide_eq_false h]
    show 0 = _
    omega

theorem greaterFlag_eq (a b : Byte) : greaterFlag a b = if b < a then 1 else 0 := by
  rw [greaterFlag, bool8]
  simp only [BitVec.lt_def, gt_iff_lt, decide_eq_true_eq]

theorem lowBitFlag_toNat (a : Byte) : (lowBitFlag a).toNat = a.toNat % 2 := by
  rw [lowBitFlag, BitVec.toNat_and]
  exact Nat.and_two_pow_sub_one_eq_mod a.toNat 1

theorem halfByte_toNat (a : Byte) : (halfByte a).toNat = a.toNat / 2 := by
  have ha := a.isLt
  rw [halfByte, BitVec.toNat_ofNat, Nat.mod_eq_of_lt (by omega)]

theorem halfByte_lowBitFlag (a : Byte) : halfByte (lowBitFlag a) = 0 := by
  apply BitVec.eq_of_toNat_eq
  rw [halfByte_toNat, lowBitFlag_toNat]
  show a.toNat % 2 / 2 = 0
  omega

theorem doubleByte_toNat (a : Byte) : (doubleByte a).toNat = a.toNat * 2 % 256 := BitVec.toNat_ofNat ..

/-- Bit 7 of a byte, as 0x80 or 0x00 (R100). -/
theorem highBitFlag_eq (a : Byte) : highBitFlag a = if 128 ≤ a.toNat then 0x80 else 0x00 := by
  have hshift : highBitFlag a = (a >>> 7) <<< 7 := by
    rw [highBitFlag]
    ext i hi
    simp only [BitVec.getElem_and, BitVec.getElem_shiftLeft]
    interval_cases i <;> simp
  have ha := a.isLt
  apply BitVec.eq_of_toNat_eq
  rw [hshift, BitVec.toNat_shiftLeft, BitVec.toNat_ushiftRight, Nat.shiftLeft_eq, Nat.shiftRight_eq_div_pow]
  split_ifs
  · show a.toNat / 2 ^ 7 * 2 ^ 7 % 2 ^ 8 = 128
    omega
  · show a.toNat / 2 ^ 7 * 2 ^ 7 % 2 ^ 8 = 0
    omega

theorem doubleByte_highBitFlag (a : Byte) : doubleByte (highBitFlag a) = 0 := by
  rw [highBitFlag_eq]
  split_ifs <;> rfl

/-- Settles O23: sum and carry are of the registers before either write. -/
theorem addWithCarry : Obligations.AddWithCarry := by
  refine fun x y s => ⟨_, exec_addReg x y s, ?_, fun hx => ?_, onlyV_setV_setV s x VF _ _⟩
  · rw [getV_flagThenResult, wrapByte_byteSum_toNat]
  · rw [getV_VF_flagThenResult hx, carryFlag_byteSum_toNat]

/-- Settles O24: what the subtraction reads of x and y is the flag where the register is VF, else the register before. -/
theorem subtractAfterFlag : Obligations.SubtractAfterFlag := by
  refine fun x y s => ⟨_, exec_sub x y s, fun hx hy => ?_, fun hx hy => ?_, fun hx => ?_, fun hx hy => ?_,
    fun hx hy => ?_, onlyV_setV_setV s x VF _ _⟩
  · rw [getV_flagThenResult, getV_setV_of_ne hx, getV_setV_of_ne hy, subByte]
  · subst hy
    rw [getV_flagThenResult, getV_setV_of_ne hx, State.setV_getV_self, subByte, greaterFlag_eq]
  · rw [getV_VF_flagThenResult hx, greaterFlag_eq]
  · subst hx
    rw [getV_flagThenResult, getV_setV_of_ne hy, State.setV_getV_self, subByte, greaterFlag_eq]
  · subst hx hy
    rw [getV_flagThenResult, State.setV_getV_self, subByte, BitVec.sub_self]
    rfl

/-- Settles O25: where x is VF the halving reads the flag, which is at most 1. -/
theorem halveIntoFlag : Obligations.HalveIntoFlag := by
  refine fun x y s => ⟨_, exec_shr x y s, fun y' => exec_shr x y' s, fun hx => ⟨?_, ?_⟩, fun hx => ?_,
    onlyV_setV_setV s x VF _ _⟩
  · rw [getV_flagThenResult, getV_setV_of_ne hx, halfByte_toNat]
  · rw [getV_VF_flagThenResult hx, lowBitFlag_toNat]
  · subst hx
    rw [getV_flagThenResult, State.setV_getV_self, halfByte_lowBitFlag]

/-- Two writes of one register have the frame of one. -/
theorem onlyV_setV_twice (s : State) (x : Reg) (b c : Byte) : OnlyV [x] s ((s.setV x b).setV x c) := by
  obtain ⟨hv, hrest⟩ := onlyV_setV_setV s x x b c
  exact ⟨fun r hr => hv r (by simpa using hr), hrest⟩

/-- Settles O26: the subtraction reads the comparison in V[x], and in V[y] too where y is x. -/
theorem reverseSubtractAsImplemented : Obligations.ReverseSubtractAsImplemented := by
  refine fun x y s => ⟨_, exec_subn x y s, fun hxy => ?_, fun hxy => ?_, onlyV_setV_twice s x _ _⟩
  · rw [State.setV_getV_self, getV_setV_of_ne hxy.symm, State.setV_getV_self, subByte, greaterFlag_eq]
  · subst hxy
    rw [State.setV_getV_self, subByte, BitVec.sub_self]
    rfl

/-- Settles O27: where x is VF the doubling reads the flag, whose double is 0 modulo 256. -/
theorem doubleIntoFlag : Obligations.DoubleIntoFlag := by
  refine fun x y s => ⟨_, exec_shl x y s, fun y' => exec_shl x y' s, fun hx => ⟨?_, ?_⟩, fun hx => ?_,
    onlyV_setV_setV s x VF _ _⟩
  · rw [getV_flagThenResult, getV_setV_of_ne hx, doubleByte_toNat]
  · rw [getV_VF_flagThenResult hx, highBitFlag_eq]
  · subst hx
    rw [getV_flagThenResult, State.setV_getV_self, doubleByte_highBitFlag]

end Sys2Proof.Machine
end

section
/-! PROOF. Index addition, the random byte and the draw (46_timers_mem_F.md R112; 44_misc_9-D.md R104, R105). -/

namespace Sys2Proof.Machine

open Config

/-- Settles O29: the sum of the zero-extended byte and I, modulo 2^16. -/
theorem indexAddWrapsAtSixteenBits : Obligations.IndexAddWrapsAtSixteenBits := by
  refine fun x s => ⟨_, exec_addIVx x s, ?_, onlyI_setI s _⟩
  rw [State.setI_i, BitVec.toNat_add, BitVec.toNat_setWidth_of_le (by decide)]

/-- The random byte is the free value itself: it is below 255 (R104). -/
theorem randByte_toNat (k : Nat) : (BitVec.ofNat 8 (drawRand k).val : Byte).toNat = (drawRand k).val := by
  have h := (drawRand k).isLt
  rw [BitVec.toNat_ofNat, Nat.mod_eq_of_lt (by omega)]

theorem randByte_ne_FF (k : Nat) : (BitVec.ofNat 8 (drawRand k).val : Byte) ≠ 0xFF := fun e => by
  have h := (drawRand k).isLt
  have hval : (drawRand k).val = 255 := (randByte_toNat k).symm.trans (congrArg BitVec.toNat e)
  omega

/-- Settles O30: one register write of the masked byte and one count; the frame is that of the write. -/
theorem randomByteIsMasked : Obligations.RandomByteIsMasked := by
  intro x kk s
  have hx : ((s.setV x (s.randByte &&& kk)).countDraw).getV x = BitVec.ofNat 8 (drawRand s.draws).val &&& kk :=
    s.setV_getV_self x _
  refine ⟨_, exec_rnd x kk s, hx, randByte_toNat s.draws, Nat.le_of_lt_succ (drawRand s.draws).isLt, ?_, ?_, rfl, ?_⟩
  · rintro rfl
    rw [hx]
    exact fun e => randByte_ne_FF s.draws (BitVec.and_allOnes.symm.trans e)
  · rintro rfl
    rw [hx]
    exact BitVec.and_zero
  · rintro u rfl
    exact onlyV_setV s x _

/-- The frame of a draw: one framebuffer write and one of VF. -/
theorem onlyDisplayVF_setFb_setV (s : State) (fb : Framebuffer) (b : Byte) :
    OnlyDisplayVF s ((s.setFb fb).setV VF b) := by
  refine ⟨fun r hr => ?_, rfl, rfl, ⟨rfl, fun _ => rfl⟩, ⟨rfl, rfl⟩, rfl, fun _ => rfl, fun _ => rfl, rfl, rfl, rfl⟩
  rw [getV_setV_of_ne (List.ne_of_not_mem_cons hr), State.setFb_getV]

/-- Settles O31: rows in range are read one by one from I, and the draw is two writes; a row out of range faults before
either. -/
theorem drawReadsThenDraws : Obligations.DrawReadsThenDraws := by
  refine fun x y n s => ⟨fun h => ?_, fun hpos hgt => exec_drw_of_error x y (Memory.readBytes_of_gt hpos hgt)⟩
  refine ⟨_, _, exec_drw_of_le x y h, by simp, fun r hr => ?_, rfl, ?_, onlyDisplayVF_setFb_setV s _ _⟩
  · have hlt : r < n.val := by simpa using hr
    rw [Memory.read_of_lt (by rw [memSize_eq]; omega)]
    simp
  · rw [State.setV_getV_self]
    rfl

end Sys2Proof.Machine
end

section
/-! PROOF. The step that runs an instruction (40_engine.md R73). -/

namespace Sys2Proof.Machine

open Config

theorem Memory.read_eq_some {m : Memory} {a : Nat} {b : Byte} : m.read a = some b ↔ a < 4096 ∧ m.look a = b := by
  rw [Memory.read, memSize_eq]
  split_ifs with h <;> simp [h]

/-- The two bytes at PC are the word that is run. -/
theorem runInstruction_of_bytes (p : DecoderParams) {s : State} {hi lo : Byte} (hhi : s.mem.read s.pc.toNat = some hi)
    (hlo : s.mem.read (s.pc.toNat + 1) = some lo) :
    runInstruction p s = exec (decodeWith p (wordOfBytes hi lo)) (s.setPc (s.pc + 2)) := by
  obtain ⟨-, hhi⟩ := Memory.read_eq_some.mp hhi
  obtain ⟨hlt, hlo⟩ := Memory.read_eq_some.mp hlo
  rw [runInstruction_of_lt p hlt, hhi, hlo]

theorem step_of_bytes {s : State} {rest : List HostAction} {hi lo : Byte} (hloaded : s.loaded = true)
    (hrunning : s.status = .running) (hhost : s.host = .step :: rest ∨ s.host = [] ∧ rest = [])
    (hhi : s.mem.read s.pc.toNat = some hi) (hlo : s.mem.read (s.pc.toNat + 1) = some lo) :
    step s = exec (decodeWith decoderDefaults (wordOfBytes hi lo)) { s with host := rest, pc := s.pc + 2 } := by
  rw [step_of_running hloaded hrunning hhost]
  exact runInstruction_of_bytes (s := s.setHost rest) decoderDefaults hhi hlo

theorem wordOfBytes_eq_ofNat (hi lo : Byte) : wordOfBytes hi lo = BitVec.ofNat 16 (hi.toNat * 256 + lo.toNat) := by
  rw [← wordOfBytes_toNat, BitVec.ofNat_toNat, BitVec.setWidth_eq]

/-- Settles O44: the fetch reads the two bytes, big-endian. -/
theorem stepDecodesTheWordAtPc : Obligations.StepDecodesTheWordAtPc := by
  intro s hi lo rest hloaded hrunning hhost hhi hlo
  rw [step_of_bytes hloaded hrunning hhost hhi hlo, wordOfBytes_eq_ofNat]

/-- Settles O43: the two bytes of an encoding are its word, which decodes back to the instruction. -/
theorem stepRunsTheInstructionAtPc : Obligations.StepRunsTheInstructionAtPc := by
  intro s i rest hloaded hrunning hhost hwf _ hhi hlo
  rw [step_of_bytes hloaded hrunning hhost hhi hlo, wordOfBytes_high_low, decodeWith_encode hwf]

/-- Settles O45: at 0xFFF and above the word at PC is out of range. -/
theorem fetchFaultLeavesPc : Obligations.FetchFaultLeavesPc := by
  intro s rest hloaded hrunning hhost hpc
  rw [step_of_running hloaded hrunning hhost]
  exact runInstruction_of_ge (s := s.setHost rest) decoderDefaults (Nat.succ_le_succ hpc)

end Sys2Proof.Machine
end

section
/-! PROOF. The steps in which no instruction runs (60_exceptions.md R130 to R138, R151, R152). -/

namespace Sys2Proof.Machine

open Config

/-! ### One rule for each such step -/

theorem State.ended_eq_false_iff {s : State} :
    s.ended = false ↔ s.status = .running ∨ ∃ x, s.status = .waiting x := by
  unfold State.ended
  cases s.status <;> simp

/-- A host action that is no step and no shutdown acts on the machine Running or waiting. -/
theorem step_of_hostAct {s : State} {a : HostAction} {rest : List HostAction} (hs : s.ended = false)
    (hhost : s.host = a :: rest) (ha : a ≠ .shutdown) (hstep : a ≠ .step) :
    step s = .next (hostAct a (s.setHost rest)) := by
  obtain hs | ⟨x, hs⟩ := State.ended_eq_false_iff.mp hs
  · cases a with
    | step => exact absurd rfl hstep
    | shutdown => exact absurd rfl ha
    | _ => simp only [step_eq, stepWith, turn, hs, turnRunning, hhost]
  · cases a with
    | step => exact absurd rfl hstep
    | shutdown => exact absurd rfl ha
    | _ => simp only [step_eq, stepWith, turn, hs, turnWaiting, hhost]

theorem step_of_waiting_shutdown {s : State} {x : Reg} {rest : List HostAction} (hs : s.status = .waiting x)
    (hhost : s.host = .shutdown :: rest) : step s = .next ((s.setHost rest).setStatus .aborted) := by
  simp only [step_eq, stepWith, turn, hs, turnWaiting, hhost]

theorem step_of_running_shutdown {s : State} {rest : List HostAction} (hs : s.status = .running)
    (hhost : s.host = .shutdown :: rest) : step s = .refused .hostStopped := by
  simp only [step_eq, stepWith, turn, hs, turnRunning, hhost]

theorem step_of_faulted {s : State} {f : Fault} (hs : s.status = .faulted f) :
    step s = .refused (.stepAfterFault f) := by
  simp only [step_eq, stepWith, turn, hs]

theorem step_of_aborted {s : State} (hs : s.status = .aborted) : step s = .refused .stepAfterAbort := by
  simp only [step_eq, stepWith, turn, hs]

/-- An instruction that is run answers a next state, the fetch included. -/
theorem runInstruction_next (p : DecoderParams) (s : State) : ∃ t, runInstruction p s = .next t := by
  by_cases h : s.pc.toNat + 1 < 4096
  · obtain ⟨u, -, hends⟩ := exec_ends (decodeWith p (wordOfBytes (s.mem.look s.pc.toNat) (s.mem.look (s.pc.toNat + 1))))
      (s.setPc (s.pc + 2))
    obtain ⟨σ, he⟩ := hends.exec_eq
    exact ⟨_, (runInstruction_of_lt p h).trans he⟩
  · exact ⟨_, runInstruction_of_ge p (Nat.le_of_not_lt h)⟩

/-- The host steps, or has nothing else to do. -/
theorem hostSteps_iff {h : List HostAction} :
    (h = [] ∨ ∃ rest, h = .step :: rest) ↔ ∃ rest, h = .step :: rest ∨ h = [] ∧ rest = [] := by
  constructor
  · rintro (h | ⟨rest, h⟩)
    · exact ⟨[], .inr ⟨h, rfl⟩⟩
    · exact ⟨rest, .inl h⟩
  · rintro ⟨rest, h | ⟨h, -⟩⟩
    · exact .inr ⟨rest, h⟩
    · exact .inl h

theorem step_of_not_loaded {s : State} (hloaded : s.loaded = false) (hrunning : s.status = .running)
    (hhost : s.host = [] ∨ ∃ rest, s.host = .step :: rest) : step s = .refused .notLoaded := by
  obtain ⟨rest, hhost⟩ := hostSteps_iff.mp hhost
  exact stepWith_of_not_loaded decoderDefaults hloaded hrunning hhost

/-- Settles O47: the refusals are those of the step's cases; in the others an instruction runs, which answers, or the
machine is quiet. -/
theorem stepIsRefusedExactlyOutsideARun : Obligations.StepIsRefusedExactlyOutsideARun := by
  refine fun s => ⟨fun f => step_of_faulted, step_of_aborted, fun hs ⟨rest, hh⟩ => step_of_running_shutdown hs hh,
    fun hs hl => step_of_not_loaded hl hs, fun hs hshutdown hload => ?_⟩
  obtain ⟨rest, -, -, -, e⟩ | ⟨a, rest, -, -, -, -, e⟩ | ⟨x, -, -, e⟩ | ⟨x, rest, -, -, e⟩ | ⟨f, hf, -⟩ | ⟨ha, -⟩ |
    ⟨rest, hr, hh, -⟩ | ⟨rest, hl, hr, hh, -⟩ := stepWith_cases decoderDefaults s
  · obtain ⟨t, ht⟩ := runInstruction_next decoderDefaults (s.setHost rest)
    exact ⟨t, e.trans ht⟩
  · exact ⟨_, e⟩
  · exact ⟨_, e⟩
  · exact ⟨_, e⟩
  · simp [State.ended, hf] at hs
  · simp [State.ended, ha] at hs
  · exact absurd hh (hshutdown hr rest)
  · obtain ⟨hnil, hstep⟩ := hload hr hl
    obtain hh | ⟨hh, -⟩ := hh
    · exact absurd hh (hstep rest)
    · exact absurd hh hnil

/-! ### Ticks and key changes -/

theorem countDown_toNat (b : Byte) : (countDown b).toNat = b.toNat - 1 := by
  have hb := b.isLt
  rw [countDown]
  split_ifs with h
  · rw [BitVec.toNat_sub]
    show (2 ^ 8 - 1 + b.toNat) % 2 ^ 8 = b.toNat - 1
    omega
  · omega

/-- Settles O46: each action is one write of the timers or of one key, and the queue's head used up. -/
theorem hostTicksAndKeyChanges : Obligations.HostTicksAndKeyChanges := by
  refine fun s rest hs => ⟨fun hh => ?_, fun k hh => ?_, fun k hh => ?_⟩
  · exact ⟨_, step_of_hostAct hs hh (by simp) (by simp), countDown_toNat s.dt, countDown_toNat s.st, rfl,
      fun u hu => hu⟩
  · refine ⟨_, step_of_hostAct hs hh (by simp) (by simp), fun q => ?_, rfl, fun u hu => hu⟩
    show ((s.setHost rest).setKey k true).isDown q = _
    rw [State.setKey_isDown, State.setHost_isDown]
    by_cases hq : q = k <;> simp [hq]
  · refine ⟨_, step_of_hostAct hs hh (by simp) (by simp), fun q => ?_, rfl, fun u hu => hu⟩
    show ((s.setHost rest).setKey k false).isDown q = _
    rw [State.setKey_isDown, State.setHost_isDown]
    by_cases hq : q = k <;> simp [hq]

/-! ### Key presses and the wait -/

/-- Where no wait is on, or the action is no press, a host action leaves the registers and the status. -/
theorem hostAct_no_press {a : HostAction} {s : State}
    (h : (∀ x, s.status ≠ .waiting x) ∨ (∀ k, a ≠ .press k) ∧ ∀ c, a ≠ .pressCode c) :
    (hostAct a s).v = s.v ∧ (hostAct a s).status = s.status := by
  have hkey : (∀ x, s.status ≠ .waiting x) → ∀ k, s.pressKey k = s := fun h k => State.pressKey_of_not_waiting h k
  cases a with
  | step | shutdown | tick | setDown k | setUp k => exact ⟨rfl, rfl⟩
  | press k =>
    obtain h | ⟨hk, -⟩ := h
    · exact ⟨congrArg State.v (hkey h k), congrArg State.status (hkey h k)⟩
    · exact absurd rfl (hk k)
  | pressCode c =>
    obtain h | ⟨-, hc⟩ := h
    · have hs : s.pressCode c = s := (s.pressCode_cases c).elim id fun ⟨k, e⟩ => e.trans (hkey h k)
      exact ⟨congrArg State.v hs, congrArg State.status hs⟩
    · exact absurd rfl (hc c)

/-- During a wait a host action writes at most the register waited for. -/
theorem hostAct_sameV {a : HostAction} {s : State} {x : Reg} (hs : s.status = .waiting x) :
    SameV [x] s (hostAct a s) := by
  have hkey : ∀ k, SameV [x] s (s.pressKey k) := fun k r hr => by
    rw [State.pressKey_of_waiting hs, State.setStatus_getV, getV_setV_of_ne (by simpa using hr)]
  cases a with
  | step | shutdown | tick | setDown k | setUp k => exact fun _ _ => rfl
  | press k => exact hkey k
  | pressCode c =>
    show SameV [x] s (s.pressCode c)
    obtain e | ⟨k, e⟩ := s.pressCode_cases c <;> rw [e]
    · exact fun _ _ => rfl
    · exact hkey k

/-- Settles O37: a waiting machine's step is a host action, the abort, or nothing at all, and none of them runs an
instruction. -/
theorem waitingMachineExecutesNothing : Obligations.WaitingMachineExecutesNothing := by
  intro x s hs
  obtain ⟨rest, -, hr, -⟩ | ⟨a, rest, -, hh, -, -, e⟩ | ⟨y, -, -, e⟩ | ⟨y, rest, -, -, e⟩ | ⟨f, hf, -⟩ | ⟨ha, -⟩ |
    ⟨rest, hr, -⟩ | ⟨rest, -, hr, -⟩ := stepWith_cases decoderDefaults s
  · simp [hs] at hr
  · obtain ⟨hmem, hi, hpc, hstack, hfb, hdraws, -⟩ := hostAct_hostKeeps a (s.setHost rest)
    refine ⟨_, e, hostAct_sameV (s := s.setHost rest) hs, hi, hpc, hstack, fun b => congrArg (·.read b) hmem, hfb, hdraws,
      fun hk hc => ?_⟩
    obtain ⟨hv, hstatus⟩ := hostAct_no_press (a := a) (s := s.setHost rest)
      (.inr ⟨fun k e => hk k (by rw [hh, e]; rfl), fun c e => hc c (by rw [hh, e]; rfl)⟩)
    exact ⟨congrArg (fun v : Vector Byte 16 => v[x.val]) hv, by rw [hstatus]; simp [hs]⟩
  · exact ⟨s, e, fun _ _ => rfl, rfl, rfl, ⟨rfl, fun _ => rfl⟩, fun _ => rfl, rfl, rfl, fun _ _ => ⟨rfl, by simp [hs]⟩⟩
  · exact ⟨_, e, fun _ _ => rfl, rfl, rfl, ⟨rfl, fun _ => rfl⟩, fun _ => rfl, rfl, rfl, fun _ _ => ⟨rfl, by simp⟩⟩
  · simp [hs] at hf
  · simp [hs] at ha
  · simp [hs] at hr
  · simp [hs] at hr

/-- Nothing changed: the narrowest frame. -/
theorem onlyV_refl (s : State) : OnlyV [] s s :=
  ⟨fun _ _ => rfl, rfl, rfl, ⟨rfl, fun _ => rfl⟩, ⟨rfl, rfl⟩, rfl, fun _ => rfl, ⟨rfl, fun _ => rfl, rfl, rfl⟩, rfl⟩

/-- Settles O36: LD Vx, K is one status write; the step of the wait is the press, its translation's press, or the
abort. -/
theorem keyWaitBeginsAndEnds : Obligations.KeyWaitBeginsAndEnds := by
  refine ⟨fun x s => ⟨_, exec_ldVxK x s, rfl, ?_⟩, fun x s rest hs => ⟨fun k hh => ?_, fun code hh => ?_, fun hh => ?_⟩⟩
  · rintro u rfl
    exact onlyV_refl s
  · have hended : s.ended = false := State.ended_eq_false_iff.mpr (.inr ⟨x, hs⟩)
    refine ⟨_, (step_of_hostAct hended hh (by simp) (by simp)).trans
      (congrArg Host.Outcome.next (State.pressKey_of_waiting (s := s.setHost rest) hs k)), ?_, rfl, rfl, ?_⟩
    · rw [State.setStatus_getV, State.setV_getV_self, BitVec.toNat_ofNat, Nat.mod_eq_of_lt (by omega)]
    · rintro u rfl
      exact onlyV_setV s x _
  · have hended : s.ended = false := State.ended_eq_false_iff.mpr (.inr ⟨x, hs⟩)
    rw [step_of_hostAct hended hh (by simp) (by simp)]
    show Host.Outcome.next ((s.setHost rest).pressCode code) = _
    rw [State.pressCode]
    cases translate code with
    | none => rfl
    | some k => exact (step_of_hostAct (s := { s with host := .press k :: rest }) hended rfl (by simp) (by simp)).symm
  · refine ⟨_, step_of_waiting_shutdown hs hh, rfl, rfl, ?_⟩
    rintro u rfl
    exact onlyV_refl s

/-- A Running machine's step that is not the host's step is its other action. -/
theorem step_of_running_hostAct {s t : State} {a : HostAction} {rest : List HostAction} (hs : s.status = .running)
    (hhost : s.host = a :: rest) (hstep : a ≠ .step) (h : step s = .next t) : t = hostAct a (s.setHost rest) := by
  have ha : a ≠ .shutdown := by
    rintro rfl
    rw [step_of_running_shutdown hs hhost] at h
    nomatch h
  exact Host.Outcome.next.inj
    (h.symm.trans (step_of_hostAct (State.ended_eq_false_iff.mpr (.inl hs)) hhost ha hstep))

theorem State.not_waiting_of_running {s : State} (hs : s.status = .running) (x : Reg) : s.status ≠ .waiting x := by
  rw [hs]
  simp

/-- Settles O53: with no wait on, a host action leaves registers and status, and none writes the rest. -/
theorem hostActionsNeverFault : Obligations.HostActionsNeverFault := by
  intro s t a rest hs hhost hstep h
  obtain rfl := step_of_running_hostAct hs hhost hstep h
  obtain ⟨hmem, hi, hpc, hstack, -⟩ := hostAct_hostKeeps a (s.setHost rest)
  obtain ⟨hv, hstatus⟩ := hostAct_no_press (a := a) (s := s.setHost rest) (.inl (State.not_waiting_of_running hs))
  exact ⟨hstatus.trans hs, hmem, hv, hi, hpc, hstack⟩

end Sys2Proof.Machine
end

section
/-! PROOF. ST is a device register only: no instruction reads it (10_state.md section 4, D30). -/

namespace Sys2Proof.Machine

open Config

/-- Executing `i` from `s` with ST replaced by `b` gives the same next state but for ST, which is `b`. -/
def IgnoresSt (i : Instr) (s : State) (b : Byte) : Prop :=
  ∃ t, exec i s = .next t ∧ exec i (s.setSt b) = .next (t.setSt b)

theorem loadedFrom_setSt : ∀ (rs : List Reg) (s : State) (a : Nat) (b : Byte),
    (s.setSt b).loadedFrom a rs = (s.loadedFrom a rs).setSt b
  | [], _, _, _ => rfl
  | r :: rs, s, a, b => loadedFrom_setSt rs (s.setV r (s.mem.look a)) (a + 1) b

theorem ldMemVx_ignoresSt (x : Reg) (s : State) (b : Byte) : IgnoresSt (.ldMemVx x) s b := by
  by_cases h : s.i.toNat + (x.val + 1) ≤ 4096
  · exact ⟨_, exec_ldMemVx_of_le h, exec_ldMemVx_of_le (s := s.setSt b) h⟩
  · have hgt := Nat.lt_of_not_le h
    exact ⟨_, exec_ldMemVx_of_gt hgt, exec_ldMemVx_of_gt (s := s.setSt b) hgt⟩

theorem ldBVx_ignoresSt (x : Reg) (s : State) (b : Byte) : IgnoresSt (.ldBVx x) s b := by
  by_cases h : s.i.toNat + 3 ≤ 4096
  · obtain ⟨t, ht, ht'⟩ := ldMemVx_ignoresSt x (s.setMem (s.mem.putAll s.i.toNat (bcdDigits (s.getV x)))) b
    exact ⟨t, (exec_ldBVx_of_digits_le h).trans ht, (exec_ldBVx_of_digits_le (s := s.setSt b) h).trans ht'⟩
  · have hgt := Nat.lt_of_not_le h
    exact ⟨_, exec_ldBVx_of_digits_gt hgt, exec_ldBVx_of_digits_gt (s := s.setSt b) hgt⟩

theorem ldVxMem_ignoresSt (x : Reg) (s : State) (b : Byte) : IgnoresSt (.ldVxMem x) s b := by
  by_cases h : s.i.toNat + (x.val + 1) ≤ 4096
  · refine ⟨_, exec_ldVxMem_of_le h, (exec_ldVxMem_of_le (s := s.setSt b) h).trans ?_⟩
    rw [loadedFrom_setSt]
    rfl
  · have hgt := Nat.lt_of_not_le h
    refine ⟨_, exec_ldVxMem_of_gt hgt, (exec_ldVxMem_of_gt (s := s.setSt b) hgt).trans ?_⟩
    rw [loadedFrom_setSt]
    rfl

theorem ret_ignoresSt (s : State) (b : Byte) : IgnoresSt .ret s b := by
  obtain ⟨j, hj, -⟩ | ⟨hge, -⟩ := stackIndex_cases s.sp
  · exact ⟨_, exec_ret_of_val hj, exec_ret_of_val (s := s.setSt b) hj⟩
  · exact ⟨_, exec_ret_of_ge hge, exec_ret_of_ge (s := s.setSt b) hge⟩

theorem call_ignoresSt (nnn : Addr) (s : State) (b : Byte) : IgnoresSt (.call nnn) s b := by
  obtain ⟨j, hj, -⟩ | ⟨hge, -⟩ := stackIndex_cases (s.sp + 1)
  · exact ⟨_, exec_call_of_val nnn hj, exec_call_of_val nnn (s := s.setSt b) hj⟩
  · exact ⟨_, exec_call_of_ge nnn hge, exec_call_of_ge nnn (s := s.setSt b) hge⟩

theorem skp_ignoresSt (x : Reg) (s : State) (b : Byte) : IgnoresSt (.skp x) s b := by
  obtain ⟨k, hk, -⟩ | ⟨hk, -⟩ := keyOf_cases (s.getV x)
  · exact ⟨_, exec_skp_of_ok hk, exec_skp_of_ok (s := s.setSt b) hk⟩
  · exact ⟨_, exec_skp_of_error hk, exec_skp_of_error (s := s.setSt b) hk⟩

theorem sknp_ignoresSt (x : Reg) (s : State) (b : Byte) : IgnoresSt (.sknp x) s b := by
  obtain ⟨k, hk, -⟩ | ⟨hk, -⟩ := keyOf_cases (s.getV x)
  · exact ⟨_, exec_sknp_of_ok hk, exec_sknp_of_ok (s := s.setSt b) hk⟩
  · exact ⟨_, exec_sknp_of_error hk, exec_sknp_of_error (s := s.setSt b) hk⟩

theorem drw_ignoresSt (x y : Reg) (n : RowCount) (s : State) (b : Byte) : IgnoresSt (.drw x y n) s b := by
  obtain ⟨⟨bytes, hb⟩, -⟩ | ⟨hb, -⟩ := Memory.readBytes_cases s.mem s.i.toNat n.val
  · exact ⟨_, exec_drw_of_ok x y hb, exec_drw_of_ok x y (s := s.setSt b) hb⟩
  · exact ⟨_, exec_drw_of_error x y hb, exec_drw_of_error x y (s := s.setSt b) hb⟩

theorem exec_ignoresSt {i : Instr} (hi : i.opcode ≠ .ldStVx) (s : State) (b : Byte) : IgnoresSt i s b := by
  cases i with
  | ret => exact ret_ignoresSt s b
  | call nnn => exact call_ignoresSt nnn s b
  | seImm x kk => exact ⟨_, exec_seImm x kk s, exec_seImm x kk (s.setSt b)⟩
  | sneImm x kk => exact ⟨_, exec_sneImm x kk s, exec_sneImm x kk (s.setSt b)⟩
  | seReg x y => exact ⟨_, exec_seReg x y s, exec_seReg x y (s.setSt b)⟩
  | sneReg x y => exact ⟨_, exec_sneReg x y s, exec_sneReg x y (s.setSt b)⟩
  | skp x => exact skp_ignoresSt x s b
  | sknp x => exact sknp_ignoresSt x s b
  | drw x y n => exact drw_ignoresSt x y n s b
  | ldBVx x => exact ldBVx_ignoresSt x s b
  | ldMemVx x => exact ldMemVx_ignoresSt x s b
  | ldVxMem x => exact ldVxMem_ignoresSt x s b
  | ldStVx x => exact absurd rfl hi
  | _ => exact ⟨_, rfl, rfl⟩

/-- Settles O35: each instruction's equation has the same right side but for ST, which LD ST, Vx alone overwrites. -/
theorem noInstructionReadsTheSoundTimer : Obligations.NoInstructionReadsTheSoundTimer := by
  intro i s b
  by_cases hi : i.opcode = .ldStVx
  · cases i with
    | ldStVx x => exact ⟨_, exec_ldStVx x s, exec_ldStVx x (s.setSt b)⟩
    | _ => nomatch hi
  · obtain ⟨t, ht, ht'⟩ := exec_ignoresSt hi s b
    exact ⟨t, ht, by rw [if_neg hi, ht']⟩

end Sys2Proof.Machine
end

section
/-! PROOF. The memory array's canonical form, and what stores over consecutive addresses leave in it (20_memory.md R32 to
R36, R42). -/

namespace Sys2Proof.Machine

open Config

theorem Memory.write_eq_none {m : Memory} {a : Nat} {b : Byte} : m.write a b = none ↔ 4096 ≤ a := by
  simp [Memory.write]

theorem Memory.read_eq_none {m : Memory} {a : Nat} : m.read a = none ↔ 4096 ≤ a := by
  simp [Memory.read]

theorem Memory.readWord_eq_none {m : Memory} {a : Nat} : m.readWord a = none ↔ 4096 ≤ a + 1 := by
  simp [Memory.readWord]

/-- Settles O9: a write that succeeds is a put in range. -/
theorem writesKeepTheCanonicalForm : Obligations.WritesKeepTheCanonicalForm := by
  refine fun m a b hm => ⟨fun m' h => ?_, Memory.write_eq_none, Memory.read_eq_none, Memory.readWord_eq_none⟩
  obtain ⟨ha, rfl⟩ := Memory.write_eq_some.mp h
  exact ⟨Memory.wf_put b ha hm, fun c hc => by rw [Memory.read_put b ha hm, if_neg hc]⟩

/-- Canonical memories that read alike are equal: out of range both look like reset. -/
theorem Memory.eq_of_read {m m' : Memory} (hm : m.wf = true) (hm' : m'.wf = true) (h : ∀ a, m.read a = m'.read a) :
    m = m' := by
  refine Memory.eq_of_look hm hm' fun a _ => ?_
  by_cases ha : a < 4096
  · exact Option.some.inj ((Memory.read_of_lt ha).symm.trans ((h a).trans (Memory.read_of_lt ha)))
  · rw [Memory.look_above (Nat.le_of_not_lt ha) hm, Memory.look_above (Nat.le_of_not_lt ha) hm']

/-- Settles O10: a canonical list lists each byte that differs from reset, in order, and no other. -/
theorem memoriesThatReadAlikeAreEqual : Obligations.MemoriesThatReadAlikeAreEqual :=
  fun _ _ => Memory.eq_of_read

/-! ### Stores up to the end of memory -/

/-- The part of a list of bytes stored from `a` that is in range. -/
def inRange (a : Nat) (bs : List Byte) : List Byte := bs.take (4096 - a)

theorem inRange_of_le {a : Nat} {bs : List Byte} (h : a + bs.length ≤ 4096) : inRange a bs = bs :=
  List.take_of_length_le (by omega)

/-- After the bytes in range are put from `a`, an address of theirs reads its byte and every other as before. -/
theorem Memory.read_putAll_inRange {m : Memory} (hm : m.wf = true) (a : Nat) (bs : List Byte) (c : Nat) :
    (m.putAll a (inRange a bs)).read c =
      if a ≤ c ∧ c < a + bs.length ∧ c < 4096 then some (bs.getD (c - a) 0) else m.read c := by
  by_cases ha : a < 4096
  · have hlen : (inRange a bs).length = min (4096 - a) bs.length := List.length_take
    rw [Memory.read_putAll (by rw [hlen, memSize_eq]; omega) hm, hlen]
    by_cases hc : a ≤ c ∧ c < a + bs.length ∧ c < 4096
    · rw [if_pos (by omega), if_pos hc, inRange, List.getD_eq_getElem?_getD, List.getD_eq_getElem?_getD,
        List.getElem?_take_of_lt (by omega)]
    · rw [if_neg (by omega), if_neg hc]
  · rw [if_neg (by omega), inRange, Nat.sub_eq_zero_of_le (by omega)]
    rfl

/-- Every address but those of the bytes reads as before. -/
theorem Memory.read_putAll_inRange_outside {m : Memory} (hm : m.wf = true) {a c : Nat} {bs : List Byte}
    (h : c < a ∨ a + bs.length ≤ c) : (m.putAll a (inRange a bs)).read c = m.read c := by
  rw [Memory.read_putAll_inRange hm, if_neg (by omega)]

theorem Memory.wf_putAll_inRange {m : Memory} (hm : m.wf = true) (a : Nat) (bs : List Byte) :
    (m.putAll a (inRange a bs)).wf = true :=
  Memory.wf_putAll_take hm a bs

/-! ### The dump of V0 to Vx -/

/-- Memory after the registers V0 to Vx are stored from I on, up to the end of memory. -/
def State.dumped (s : State) (x : Reg) : Memory := s.mem.putAll s.i.toNat (inRange s.i.toNat (s.regBytes x))

theorem exec_ldMemVx_done {x : Reg} {s : State} (h : s.i.toNat + (x.val + 1) ≤ 4096) :
    exec (.ldMemVx x) s = .next (s.setMem (s.dumped x)) := by
  rw [exec_ldMemVx_of_le h, State.dumped, inRange_of_le (by rwa [State.regBytes_length])]

theorem exec_ldMemVx_fault {x : Reg} {s : State} (h : 4096 < s.i.toNat + (x.val + 1)) :
    exec (.ldMemVx x) s =
      .next ((s.setMem (s.dumped x)).setStatus (.faulted (.memRange (max s.i.toNat 4096)))) :=
  exec_ldMemVx_of_gt h

/-- Each register stored in range is read back at its address. -/
theorem State.read_dumped {s : State} (hm : s.mem.wf = true) {x r : Reg} (hr : r ≤ x) (h : s.i.toNat + r.val < 4096) :
    (s.dumped x).read (s.i.toNat + r.val) = some (s.getV r) := by
  have hrx : r.val ≤ x.val := hr
  rw [State.dumped, Memory.read_putAll_inRange hm, State.regBytes_length, if_pos (by omega), Nat.add_sub_cancel_left,
    State.regBytes_getD hr]

theorem State.read_dumped_outside {s : State} (hm : s.mem.wf = true) {x : Reg} {c : Nat}
    (h : c < s.i.toNat ∨ s.i.toNat + (x.val + 1) ≤ c) : (s.dumped x).read c = s.mem.read c :=
  Memory.read_putAll_inRange_outside hm (by rwa [State.regBytes_length])

/-- The range in which the addresses run out holds every register whose address is in range. -/
theorem reg_le_of_runs_out {i : Nat} {x r : Reg} (h : 4096 < i + (x.val + 1)) (hr : i + r.val < 4096) : r ≤ x :=
  Fin.le_def.mpr (by omega)

/-- Settles O39: the dump stores what is in range, all of it or up to the fault. -/
theorem registerDump : Obligations.RegisterDump := by
  refine fun x s hm => ⟨fun h => ?_, fun h => ?_⟩
  · refine ⟨_, exec_ldMemVx_done h, fun r hr => ?_, onlyMem_setMem fun a ha => State.read_dumped_outside hm ha⟩
    have hrx : r.val ≤ x.val := hr
    exact State.read_dumped hm hr (by omega)
  · refine ⟨_, exec_ldMemVx_fault h, rfl, fun r hr => State.read_dumped hm (reg_le_of_runs_out h hr) hr, ?_⟩
    rintro u rfl
    exact onlyMem_setMem fun a ha => State.read_dumped_outside hm ha

/-! ### LD B: the digits, then the dump over them (R114, D9) -/

/-- Memory after the digits of V[x] are stored from I on, up to the end of memory. -/
def State.withDigits (s : State) (x : Reg) : Memory :=
  s.mem.putAll s.i.toNat (inRange s.i.toNat (bcdDigits (s.getV x)))

theorem State.wf_withDigits {s : State} (hm : s.mem.wf = true) (x : Reg) : (s.withDigits x).wf = true :=
  Memory.wf_putAll_inRange hm _ _

/-- Each digit stored in range is read back at its address. -/
theorem State.read_withDigits {s : State} (hm : s.mem.wf = true) (x : Reg) {k : Nat} (hk : k < 3)
    (h : s.i.toNat + k < 4096) :
    (s.withDigits x).read (s.i.toNat + k) = some ((bcdDigits (s.getV x)).getD k 0) := by
  rw [State.withDigits, Memory.read_putAll_inRange hm, bcdDigits_length, if_pos (by omega), Nat.add_sub_cancel_left]

theorem State.read_withDigits_outside {s : State} (hm : s.mem.wf = true) {x : Reg} {c : Nat}
    (h : c < s.i.toNat ∨ s.i.toNat + 3 ≤ c) : (s.withDigits x).read c = s.mem.read c :=
  Memory.read_putAll_inRange_outside hm h

/-- Where the digits are in range LD B goes on as the dump. -/
theorem exec_ldBVx_dumps {x : Reg} {s : State} (h : s.i.toNat + 3 ≤ 4096) :
    exec (.ldBVx x) s = exec (.ldMemVx x) (s.setMem (s.withDigits x)) := by
  rw [exec_ldBVx_of_digits_le h, State.withDigits, inRange_of_le h]

/-- Digits and dump both lie in the larger of their ranges. -/
theorem read_digits_dumped_outside {s : State} (hm : s.mem.wf = true) {x : Reg} {c : Nat}
    (h : c < s.i.toNat ∨ s.i.toNat + max 3 (x.val + 1) ≤ c) :
    ((s.setMem (s.withDigits x)).dumped x).read c = s.mem.read c := by
  rw [State.read_dumped_outside (State.wf_withDigits hm x) (by rw [State.setMem_i]; omega), State.setMem_mem,
    State.read_withDigits_outside hm (by omega)]

/-- LD B with every address in range: the digits stand where the dump does not reach. -/
theorem bcdStore_in_range {x : Reg} {s : State} (hm : s.mem.wf = true) (h : s.i.toNat + max 3 (x.val + 1) ≤ 4096) :
    ∃ t, exec (.ldBVx x) s = .next t ∧
      (∀ r : Reg, r ≤ x → t.mem.read (s.i.toNat + r.val) = some (s.getV r)) ∧
      (x.val < 1 → t.mem.read (s.i.toNat + 1) = some (BitVec.ofNat 8 ((s.getV x).toNat / 10 % 10))) ∧
      (x.val < 2 → t.mem.read (s.i.toNat + 2) = some (BitVec.ofNat 8 ((s.getV x).toNat % 10))) ∧
      OnlyMem s.i.toNat (max 3 (x.val + 1)) s t := by
  have hwf := State.wf_withDigits hm x
  have hdigit : ∀ k, x.val < k → k < 3 → ((s.setMem (s.withDigits x)).dumped x).read (s.i.toNat + k) =
      some ((bcdDigits (s.getV x)).getD k 0) := fun k hxk hk => by
    rw [State.read_dumped_outside hwf (by rw [State.setMem_i]; omega), State.setMem_mem,
      State.read_withDigits hm x hk (by omega)]
  refine ⟨_, (exec_ldBVx_dumps (by omega)).trans (exec_ldMemVx_done (by rw [State.setMem_i]; omega)), fun r hr => ?_,
    fun hx => hdigit 1 hx (by decide), fun hx => hdigit 2 hx (by decide),
    onlyMem_setMem fun a ha => read_digits_dumped_outside hm ha⟩
  have hrx : r.val ≤ x.val := hr
  exact State.read_dumped (s := s.setMem (s.withDigits x)) hwf hr (by rw [State.setMem_i]; omega)

/-- LD B with the digits in range and the dump not. -/
theorem bcdStore_dump_fault {x : Reg} {s : State} (hm : s.mem.wf = true) (h : s.i.toNat + 3 ≤ 4096)
    (hx : 4096 < s.i.toNat + (x.val + 1)) :
    exec (.ldBVx x) s = .next (((s.setMem (s.withDigits x)).setMem ((s.setMem (s.withDigits x)).dumped x)).setStatus
      (.faulted (.memRange (max s.i.toNat 4096)))) ∧
    ∀ r : Reg, s.i.toNat + r.val < 4096 →
      ((s.setMem (s.withDigits x)).dumped x).read (s.i.toNat + r.val) = some (s.getV r) :=
  ⟨(exec_ldBVx_dumps h).trans (exec_ldMemVx_fault (s := s.setMem (s.withDigits x)) hx), fun _ hr =>
    State.read_dumped (s := s.setMem (s.withDigits x)) (State.wf_withDigits hm x) (reg_le_of_runs_out hx hr) hr⟩

/-- Settles O38: two runs of stores from I, the digits' first; where one runs out of range what it stored before stays. -/
theorem bcdStoreFallsThrough : Obligations.BcdStoreFallsThrough := by
  refine fun x s hm => ⟨bcdStore_in_range hm, fun h => ?_⟩
  by_cases hd : s.i.toNat + 3 ≤ 4096
  · obtain ⟨he, hread⟩ := bcdStore_dump_fault hm hd (x := x) (by omega)
    refine ⟨_, he, rfl, fun h3 => absurd h3 (by omega), fun _ => hread, ?_⟩
    rintro u rfl
    exact onlyMem_setMem fun a ha => read_digits_dumped_outside hm ha
  · refine ⟨_, exec_ldBVx_of_digits_gt (Nat.lt_of_not_le hd), rfl,
      fun _ => ⟨fun h0 => State.read_withDigits hm x (k := 0) (by decide) h0,
        fun h1 => State.read_withDigits hm x (k := 1) (by decide) h1⟩, fun h3 => absurd h3 hd, ?_⟩
    rintro u rfl
    exact onlyMem_setMem fun a ha => State.read_withDigits_outside hm (x := x) (by omega)

/-! ### The load of V0 to Vx -/

theorem mem_take_regsUpTo {x r : Reg} {n : Nat} : r ∈ (regsUpTo x).take n ↔ r ≤ x ∧ r.val < n := by
  constructor
  · intro h
    obtain ⟨k, hk, rfl⟩ := List.getElem_of_mem h
    rw [List.length_take, regsUpTo_length] at hk
    rw [List.getElem_take, regsUpTo_getElem]
    exact ⟨Fin.le_def.mpr (by show k ≤ x.val; omega), by show k < n; omega⟩
  · rintro ⟨hr, hn⟩
    refine List.mem_of_getElem? (i := r.val) ?_
    rw [List.getElem?_take_of_lt hn, regsUpTo_getElem? hr]

/-- Of the first `n` registers of V0 to Vx each is loaded from its own address. -/
theorem getV_loadedFrom_take {s : State} {a n : Nat} {x r : Reg} (hr : r ≤ x) (hn : r.val < n) :
    (s.loadedFrom a ((regsUpTo x).take n)).getV r = s.mem.look (a + r.val) := by
  have hrx : r.val ≤ x.val := hr
  have hk : r.val < ((regsUpTo x).take n).length := by
    rw [List.length_take, regsUpTo_length]
    omega
  have hget : ((regsUpTo x).take n)[r.val] = r := by rw [List.getElem_take, regsUpTo_getElem]
  have hload := State.loadedFrom_getV (s := s) (a := a) ((regsUpTo_nodup x).sublist (List.take_sublist n _)) r.val hk
  rwa [hget] at hload

theorem getV_loadedFrom_regsUpTo {s : State} {a : Nat} {x r : Reg} (hr : r ≤ x) :
    (s.loadedFrom a (regsUpTo x)).getV r = s.mem.look (a + r.val) := by
  have hrx : r.val ≤ x.val := hr
  have hload := getV_loadedFrom_take (s := s) (a := a) (n := x.val + 1) hr (by omega)
  rwa [List.take_of_length_le (by rw [regsUpTo_length])] at hload

theorem State.loadedFrom_status (s : State) (a : Nat) (rs : List Reg) : (s.loadedFrom a rs).status = s.status := by
  obtain ⟨v, hv⟩ := State.loadedFrom_frame rs s a
  rw [hv]

/-- Settles O40: the loads write the registers whose addresses are in range, all of them or up to the fault. -/
theorem registerLoad : Obligations.RegisterLoad := by
  refine fun x s => ⟨fun h => ?_, fun h => ?_⟩
  · refine ⟨_, exec_ldVxMem_of_le h, fun r hr => ?_, onlyV_loadedFrom (fun _ hr => hr) s _, fun r hr => ?_⟩
    · have hrx : r.val ≤ x.val := hr
      rw [getV_loadedFrom_regsUpTo hr, Memory.read_of_lt (by rw [memSize_eq]; omega)]
    · exact State.loadedFrom_other fun hm => absurd (mem_regsUpTo.mp hm) (not_le_of_gt hr)
  · refine ⟨_, exec_ldVxMem_of_gt h, rfl, fun r hr => ?_, fun r hr => ?_, ?_⟩
    · rw [State.setStatus_getV, getV_loadedFrom_take (reg_le_of_runs_out h hr) (by omega), Memory.read_of_lt hr]
    · rw [State.setStatus_getV]
      refine State.loadedFrom_other fun hm => ?_
      have hlt := (mem_take_regsUpTo.mp hm).2
      omega
    · rintro u rfl
      rw [← State.loadedFrom_status s s.i.toNat ((regsUpTo x).take (4096 - s.i.toNat))]
      exact onlyV_loadedFrom (ds := regsUpTo x) (fun _ hr => List.mem_of_mem_take hr) s _

/-- Settles O41: each register is loaded from the address it was stored at. -/
theorem dumpThenLoadRestoresRegisters : Obligations.DumpThenLoadRestoresRegisters := by
  intro x s t u hm h hdump hmem hi
  obtain rfl := Host.Outcome.next.inj ((exec_ldMemVx_done h).symm.trans hdump)
  rw [State.setMem_mem] at hmem
  rw [State.setMem_i] at hi
  refine ⟨_, exec_ldVxMem_of_le (by rwa [hi]), fun r hr => ?_⟩
  have hrx : r.val ≤ x.val := hr
  obtain ⟨-, hlook⟩ := Memory.read_eq_some.mp (State.read_dumped hm hr (by omega))
  rw [getV_loadedFrom_regsUpTo hr, hmem, hi, hlook]

/-- Settles O54: the fetch looks at the two addresses V0 and V1 were stored at. -/
theorem storedCodeIsFetchedNext : Obligations.StoredCodeIsFetchedNext := by
  intro x s t hm hx hi h hdump
  obtain rfl := Host.Outcome.next.inj ((exec_ldMemVx_done h).symm.trans hdump)
  have h0 : (s.dumped x).look (s.i.toNat + 0) = s.getV 0 :=
    (Memory.read_eq_some.mp (State.read_dumped hm (r := 0) (Fin.zero_le x) (by show s.i.toNat + 0 < 4096; omega))).2
  have h1 : (s.dumped x).look (s.i.toNat + 1) = s.getV 1 :=
    (Memory.read_eq_some.mp (State.read_dumped hm (r := 1) hx (by show s.i.toNat + 1 < 4096; omega))).2
  rw [State.fetch_of_lt (by rw [State.setMem_pc, ← hi]; omega), State.setMem_mem, State.setMem_pc, ← hi, ← h0, ← h1]
  rfl

end Sys2Proof.Machine
end

section
/-! PROOF. Reset (10_state.md section 7; 70_reset_and_hazards.md section 1; 20_memory.md R44, R45). -/

namespace Sys2Proof.Machine

open Config

/-- Settles O1: nineteen closed words. -/
theorem sampleWordsDecodeAsWritten : Obligations.SampleWordsDecodeAsWritten := by
  unfold Obligations.SampleWordsDecodeAsWritten
  decide

/-- Settles O58: at reset both lists are empty. -/
theorem resetMeetsTheInvariant : Obligations.ResetMeetsTheInvariant := by
  unfold Obligations.ResetMeetsTheInvariant
  decide

/-- Above the glyph table the reset contents are zeros (R29). -/
theorem resetByte_of_ge {a : Nat} (h : 0x050 ≤ a) : resetByte a = 0 := by
  rw [resetByte, List.getD_eq_default]
  exact h

/-- Below the glyphs of 1 to F stands that of 0, in order (R44). -/
theorem resetByte_glyphZero : ∀ a : Fin 5, resetByte a.val = ([0xF0, 0x90, 0x90, 0x90, 0xF0] : List Byte)[a.val] := by
  decide

theorem resetByte_glyphRow (j : Nat) : resetByte (5 + j) = defaultGlyphRows.toList.getD j 0 := by
  rw [resetByte, glyphTable, List.getD_append_right _ _ _ _ (by simp [glyphZero])]
  simp [glyphZero]

/-- Settles O55: the glyph of 0 and the zeros are reset contents; the vectors and the framebuffer are uniform. -/
theorem resetState : Obligations.ResetState := by
  refine ⟨⟨rfl, rfl, rfl, rfl, rfl⟩, fun a ha hlt => ?_, fun r => ?_, rfl, rfl, rfl, rfl, rfl, fun j => ?_, rfl,
    fun px py => rfl, fun k => ?_⟩
  · rw [Memory.read_of_lt hlt]
    exact congrArg some (resetByte_of_ge ha)
  · exact Vector.getElem_replicate r.isLt
  · exact Vector.getElem_replicate j.isLt
  · exact Vector.getElem_replicate k.isLt

/-- Under the default rows reset memory is the empty list: it reads as an unlisted address does (log 9, log 25). -/
theorem resetMemory_default : resetMemory defaultGlyphRows = [] := by
  refine Memory.eq_of_read (wf_resetMemory _) rfl fun a => ?_
  rw [read_resetMemory]
  split_ifs with h
  · have hrow := resetByte_glyphRow (a - 5)
    rw [Nat.add_sub_cancel' h.1] at hrow
    rw [Memory.read_of_lt (by rw [memSize_eq]; omega), Memory.look_nil, hrow]
  · rfl

/-- Settles O56: reset memory is the given bytes over the default reset contents. -/
theorem resetUnderAnyGlyphTable : Obligations.ResetUnderAnyGlyphTable := by
  refine fun g => ⟨fun a ha => ?_, fun j hj => ?_, fun a ha hlt => ?_, ?_, ?_, ?_⟩
  · rw [State.resetWith_mem, read_resetMemory, if_neg (by omega), Memory.read_of_lt (by rw [memSize_eq]; omega),
      Memory.look_nil]
    exact congrArg some (resetByte_glyphZero ⟨a, ha⟩)
  · rw [State.resetWith_mem, read_resetMemory, if_pos (by omega), Nat.add_sub_cancel_left, List.getD_eq_getElem?_getD,
      List.getElem?_eq_getElem (by simpa using hj)]
    simp
  · rw [State.resetWith_mem, read_resetMemory, if_neg (by omega), Memory.read_of_lt hlt, Memory.look_nil,
      resetByte_of_ge ha]
  · exact State.wf_iff.mpr ⟨wf_resetMemory g, rfl⟩
  · rintro u rfl
    rfl
  · rw [State.resetWith, resetMemory_default]
    rfl

end Sys2Proof.Machine
end

section
/-! PROOF. The program load, and the first step after it (70_reset_and_hazards.md section 1, R142, R144). -/

namespace Sys2Proof.Machine

open Config

theorem maxProgram_eq : maxProgram = 3584 := rfl

theorem load_of_loaded {s : State} (image : List Byte) (h : s.loaded = true) :
    load image s = .refused .alreadyLoaded := by
  rw [load, if_pos h]

theorem load_of_too_long {s : State} {image : List Byte} (h : s.loaded = false) (hlen : 3584 < image.length) :
    load image s = .refused (.programTooLong image.length) := by
  rw [load, if_neg (by simp [h]), if_pos (by rwa [maxProgram_eq])]

theorem load_of_fits {s : State} {image : List Byte} (h : s.loaded = false) (hlen : image.length ≤ 3584) :
    load image s = .next (s.loadImage image) := by
  rw [load, if_neg (by simp [h]), if_neg (by rw [maxProgram_eq]; omega)]

theorem load_eq_next {image : List Byte} {s t : State} (h : load image s = .next t) : t = s.loadImage image := by
  unfold load at h
  split_ifs at h
  exact (Host.Outcome.next.inj h).symm

/-- Memory after a load: the image from 0x200, every other address as before. -/
theorem State.read_loadImage {s : State} {image : List Byte} (hm : s.mem.wf = true) (hlen : image.length ≤ 3584)
    (c : Nat) : (s.loadImage image).mem.read c =
      if 0x200 ≤ c ∧ c < 0x200 + image.length then some (image.getD (c - 0x200) 0) else s.mem.read c := by
  rw [State.loadImage_mem, Memory.read_putAll (by rw [memSize_eq]; omega) hm]

/-- Settles O59: the image fits where the load puts it, so memory reads and stays canonical as after stores in range. -/
theorem programLoad : Obligations.ProgramLoad := by
  refine fun image s hm => ⟨fun h hlen => ⟨_, load_of_fits h hlen, rfl, rfl, fun j hj => ?_, ?_, ?_⟩,
    load_of_too_long, load_of_loaded image⟩
  · rw [State.read_loadImage hm hlen, if_pos (by omega), Nat.add_sub_cancel_left, List.getD_eq_getElem?_getD,
      List.getElem?_eq_getElem hj]
    rfl
  · rintro u rfl
    exact onlyMem_setMem fun a ha => (State.read_loadImage hm hlen a).trans (if_neg (by omega))
  · exact Memory.wf_putAll (by rw [programBase_eq, memSize_eq]; omega) hm

/-- A Running machine without a program: whatever its step answers is a host action's doing. -/
theorem step_of_running_not_loaded {s t : State} (hloaded : s.loaded = false) (hs : s.status = .running)
    (h : step s = .next t) : ∃ a rest, t = hostAct a (s.setHost rest) := by
  obtain ⟨rest, hl, -⟩ | ⟨a, rest, -, -, -, -, e⟩ | ⟨x, hx, -⟩ | ⟨x, rest, hx, -⟩ | ⟨f, -, e⟩ | ⟨-, e⟩ |
    ⟨rest, -, -, e⟩ | ⟨rest, -, -, -, e⟩ := stepWith_cases decoderDefaults s
  · simp [hloaded] at hl
  · exact ⟨a, rest, Host.Outcome.next.inj (h.symm.trans e)⟩
  · simp [hs] at hx
  · simp [hs] at hx
  all_goals exact absurd (h.symm.trans e) (by simp)

/-- Settles O57: without a program the host's step is refused and its other actions run no instruction; after a load the
step fetches at the PC that the load set. -/
theorem firstInstructionIsTheOneAt0x200 : Obligations.FirstInstructionIsTheOneAt0x200 := by
  refine ⟨rfl, fun s hloaded hs => ⟨step_of_not_loaded hloaded hs, fun t h => ?_⟩, fun image s t hs hhost h => ?_⟩
  · obtain ⟨a, rest, rfl⟩ := step_of_running_not_loaded hloaded hs h
    have hkeeps := hostAct_hostKeeps a (s.setHost rest)
    obtain ⟨hv, hstatus⟩ := hostAct_no_press (a := a) (s := s.setHost rest) (.inl (State.not_waiting_of_running hs))
    exact ⟨hkeeps.loaded.trans hloaded, hstatus.trans hs, hkeeps.mem, hkeeps.pc,
      fun r _ => congrArg (fun v : Vector Byte 16 => v[r.val]) hv⟩
  · obtain rfl := load_eq_next h
    have hhi : (s.loadImage image).mem.read 0x200 = some _ := Memory.read_of_lt (by decide)
    have hlo : (s.loadImage image).mem.read 0x201 = some _ := Memory.read_of_lt (by decide)
    refine ⟨_, _, hhi, hlo, ?_⟩
    rw [step_of_bytes (s := s.loadImage image) (rest := []) rfl hs (.inr ⟨hhost, rfl⟩) hhi hlo, ← wordOfBytes_eq_ofNat,
      ← hhost]
    rfl

/-- The image of an instruction's word is its two bytes. -/
theorem tableImage_encode (i : Instr) : tableImage 16 (encode i).toNat = encodeBytes i := by
  rw [tableImage, tableWord_toNat]
  rfl

/-- Settles O60: the two bytes loaded at 0x200 decode back to the instruction. -/
theorem loadedInstructionRunsFirst : Obligations.LoadedInstructionRunsFirst := by
  intro s i hm hi
  have hread := State.read_loadImage hm (image := encodeBytes i) (by simp [encodeBytes])
  have hhi : (s.loadImage (encodeBytes i)).mem.read 0x200 = some (highByte (encode i)) := hread 0x200
  have hlo : (s.loadImage (encodeBytes i)).mem.read 0x201 = some (lowByte (encode i)) := hread 0x201
  have hstep : step (s.withFetchWord 16 (encode i).toNat) = exec i
      ((((s.loadImage (encodeBytes i)).setStatus .running).setHost []).setPc 0x202) := by
    rw [State.withFetchWord, tableImage_encode,
      step_of_bytes (s := ((s.loadImage (encodeBytes i)).setStatus .running).setHost []) (rest := []) rfl rfl
        (.inr ⟨rfl, rfl⟩) hhi hlo, wordOfBytes_high_low, decodeWith_encode hi]
    rfl
  refine ⟨_, hstep, rfl, fun _ _ => rfl, rfl, ⟨rfl, fun _ => rfl⟩, ⟨rfl, rfl⟩, rfl, fun a ha => ?_, rfl, fun _ => rfl,
    rfl, rfl, rfl⟩
  exact (hread a).trans (if_neg (by simp [encodeBytes]; omega))

end Sys2Proof.Machine
end

section
/-! PROOF. `draw_sprite` pixel by pixel (60_exceptions.md R135): how many one bits fall on a pixel, row by row, and which
pixels a draw clears. -/

namespace Sys2Proof.Machine

/-- How many one bits of row `row`, the byte `byte`, fall on the pixel (px, py). -/
def rowCount (w h ox oy px py row : Nat) (byte : Byte) : Nat :=
  ((List.range 8).filter (bitHits w h ox oy row byte px py)).length

/-- How many one bits of the rows, the first numbered `row`, fall on the pixel (px, py). -/
def rowsCount (w h ox oy px py : Nat) : Nat → List Byte → Nat
  | _, [] => 0
  | row, byte :: rest => rowCount w h ox oy px py row byte + rowsCount w h ox oy px py (row + 1) rest

theorem xor_decide_odd (b : Bool) (m n : Nat) :
    ((b ^^ decide (m % 2 = 1)) ^^ decide (n % 2 = 1)) = (b ^^ decide ((m + n) % 2 = 1)) := by
  rw [Bool.xor_assoc, Nat.add_mod]
  rcases Nat.mod_two_eq_zero_or_one m with hm | hm <;> rcases Nat.mod_two_eq_zero_or_one n with hn | hn <;>
    simp [hm, hn]

theorem drawRow_pixel {ox oy row px py : Nat} {byte : Byte} {acc : Framebuffer × Bool} (h : acc.1.wf = true)
    (hp : px < acc.1.width) : (drawRow ox oy row byte acc).1.pixel px py =
      (acc.1.pixel px py ^^ decide (rowCount acc.1.width acc.1.height ox oy px py row byte % 2 = 1)) :=
  drawBits_pixel [0, 1, 2, 3, 4, 5, 6, 7] h hp

/-- A draw inverts a pixel once for each one bit that falls on it. -/
theorem drawRows_pixel {ox oy px py : Nat} : ∀ {bytes : List Byte} {row : Nat} {acc : Framebuffer × Bool},
    acc.1.wf = true → px < acc.1.width → (drawRows ox oy row bytes acc).1.pixel px py =
      (acc.1.pixel px py ^^ decide (rowsCount acc.1.width acc.1.height ox oy px py row bytes % 2 = 1))
  | [], _, _, _, _ => by simp [drawRows, rowsCount]
  | byte :: rest, row, acc, h, hp => by
    obtain ⟨hwf, hw, hh⟩ := drawRow_keeps ox oy row byte h
    rw [drawRows, drawRows_pixel hwf (hw ▸ hp), drawRow_pixel h hp, hw, hh, rowsCount, xor_decide_odd]

theorem spritePositions_succ (n : Nat) : spritePositions (n + 1) =
    (List.range 8).map (fun b => (0, b)) ++ (spritePositions n).map fun q => (q.1 + 1, q.2) := by
  simp only [spritePositions, List.range_succ_eq_map (n := n), List.flatMap_cons, List.flatMap_map, List.map_flatMap,
    List.map_map]
  rfl

/-- The rows' counts add up to the positions that hit the pixel. -/
theorem rowsCount_eq (w h ox oy px py : Nat) : ∀ (bytes : List Byte) (row : Nat),
    rowsCount w h ox oy px py row bytes =
      ((spritePositions bytes.length).filter fun q =>
        bitHits w h ox oy (row + q.1) (bytes.getD q.1 0) px py q.2).length
  | [], _ => rfl
  | byte :: rest, row => by
    have ih := rowsCount_eq w h ox oy px py rest (row + 1)
    rw [rowsCount, ih, List.length_cons, spritePositions_succ, List.filter_append, List.length_append, List.filter_map,
      List.length_map, List.filter_map, List.length_map]
    simp only [Function.comp_def, List.getD_cons_succ, List.getD_cons_zero, Nat.add_zero, Nat.add_assoc, Nat.add_comm 1]
    rfl

theorem spriteCount_eq (fb : Framebuffer) (ox oy : Byte) (bytes : List Byte) (px py : Nat) :
    spriteCount fb ox oy bytes px py = rowsCount fb.width fb.height ox.toNat oy.toNat px py 0 bytes := by
  rw [rowsCount_eq]
  simp only [Nat.zero_add]
  rfl

/-- A sprite inverts a pixel once for each of its one bits that falls on it (R135). -/
theorem drawSprite_pixel {fb : Framebuffer} (h : fb.wf = true) (ox oy : Byte) (bytes : List Byte) {px py : Nat}
    (hp : px < fb.width) : (drawSprite fb ox oy bytes).1.pixel px py =
      (fb.pixel px py ^^ decide (spriteCount fb ox oy bytes px py % 2 = 1)) := by
  rw [spriteCount_eq]
  exact drawRows_pixel (acc := (fb, false)) h hp

/-- Settles O33: the same number of bits falls on a pixel both times, so it is inverted an even number of times. -/
theorem drawingTwiceRestoresTheScreen : Obligations.DrawingTwiceRestoresTheScreen := by
  intro fb ox oy bytes h
  obtain ⟨hwf, hw, hh⟩ := drawSprite_keeps h ox oy bytes
  obtain ⟨hwf', hw', hh'⟩ := drawSprite_keeps hwf ox oy bytes
  refine Framebuffer.eq_of_pixels h hwf' (hw'.trans hw) (hh'.trans hh) fun px py hp _ => ?_
  rw [drawSprite_pixel hwf ox oy bytes (hw ▸ hp), drawSprite_pixel h ox oy bytes hp, spriteCount_eq, spriteCount_eq, hw,
    hh, Bool.xor_assoc, Bool.xor_self, Bool.xor_false]

/-! ### The collision flag and the cleared pixels -/

theorem mem_spritePositions {cnt : Nat} {q : Nat × Nat} : q ∈ spritePositions cnt ↔ q.1 < cnt ∧ q.2 < 8 := by
  show q ∈ List.range cnt ×ˢ List.range 8 ↔ _
  rw [List.mem_product, List.mem_range, List.mem_range]

theorem nodup_spritePositions (cnt : Nat) : (spritePositions cnt).Nodup :=
  List.nodup_range.product List.nodup_range

theorem spriteHits_iff {fb : Framebuffer} {ox oy : Byte} {bytes : List Byte} {px py row b : Nat} :
    spriteHits fb ox oy bytes px py row b = true ↔ (bytes.getD row 0).getMsbD b = true ∧
      (ox.toNat + b) % fb.width = px ∧ (oy.toNat + row) % fb.height = py := by
  simp [spriteHits, and_assoc]

theorem spriteCount_pos_iff {fb : Framebuffer} {ox oy : Byte} {bytes : List Byte} {px py : Nat} :
    0 < spriteCount fb ox oy bytes px py ↔
      ∃ row b, row < bytes.length ∧ b < 8 ∧ spriteHits fb ox oy bytes px py row b = true := by
  rw [spriteCount, List.length_pos_iff_exists_mem]
  simp only [List.mem_filter, mem_spritePositions, Prod.exists, and_assoc]

theorem length_le_one_of_nodup {α : Type} : ∀ {l : List α}, l.Nodup → (∀ a ∈ l, ∀ b ∈ l, a = b) → l.length ≤ 1
  | [], _, _ => Nat.zero_le 1
  | [_], _, _ => Nat.le_refl 1
  | a :: b :: l, hn, h => by
    have hab : a = b := h a (by simp) b (by simp)
    simp [hab] at hn

/-- On a display at least as large as the sprite no two of its bits fall on one pixel. -/
theorem spriteCount_le_one {fb : Framebuffer} (ox oy : Byte) {bytes : List Byte} (hw : 8 ≤ fb.width)
    (hh : bytes.length ≤ fb.height) (px py : Nat) : spriteCount fb ox oy bytes px py ≤ 1 := by
  refine length_le_one_of_nodup ((nodup_spritePositions _).filter _) fun q hq r hr => ?_
  obtain ⟨hq, hqhit⟩ := List.mem_filter.mp hq
  obtain ⟨hr, hrhit⟩ := List.mem_filter.mp hr
  obtain ⟨-, hqx, hqy⟩ := spriteHits_iff.mp hqhit
  obtain ⟨-, hrx, hry⟩ := spriteHits_iff.mp hrhit
  obtain ⟨hqrow, hqbit⟩ := mem_spritePositions.mp hq
  obtain ⟨hrrow, hrbit⟩ := mem_spritePositions.mp hr
  exact Prod.ext (eq_of_add_mod_eq (by omega) (by omega) (hqy.trans hry.symm))
    (eq_of_add_mod_eq (by omega) (by omega) (hqx.trans hrx.symm))

theorem rowMeetsSet_iff {fb : Framebuffer} {ox oy row : Nat} {byte : Byte} :
    rowMeetsSet fb ox oy row byte = true ↔ ∃ b, b < 8 ∧ byte.getMsbD b = true ∧
      fb.pixel ((ox + b) % fb.width) ((oy + row) % fb.height) = true := by
  show (List.range 8).any _ = true ↔ _
  simp only [List.any_eq_true, List.mem_range, bitMeetsSet, Bool.and_eq_true]

/-- The flag rises where a one bit falls on a set pixel. -/
theorem drawSprite_collision_iff {fb : Framebuffer} (h : fb.wf = true) (ox oy : Byte) {bytes : List Byte}
    (hw : 8 ≤ fb.width) (hh : bytes.length ≤ fb.height) :
    (drawSprite fb ox oy bytes).2 = true ↔ ∃ px py, px < fb.width ∧ py < fb.height ∧ fb.pixel px py = true ∧
      0 < spriteCount fb ox oy bytes px py := by
  obtain ⟨hwidth, hheight, -⟩ := Framebuffer.wf_iff.mp h
  rw [drawSprite_collision h ox oy hw hh, List.any_eq_true]
  simp only [rowMeetsSet_iff, spriteCount_pos_iff, spriteHits_iff, Prod.exists, List.mem_zipIdx_iff_getElem?]
  constructor
  · rintro ⟨byte, row, hrow, b, hb, hbit, hset⟩
    obtain ⟨hlt, hbyte⟩ := List.getElem?_eq_some_iff.mp hrow
    refine ⟨_, _, Nat.mod_lt _ hwidth, Nat.mod_lt _ hheight, hset, row, b, hlt, hb, ?_, rfl, rfl⟩
    rwa [List.getD_eq_getElem?_getD, hrow, Option.getD_some]
  · rintro ⟨px, py, -, -, hset, row, b, hrow, hb, hbit, rfl, rfl⟩
    refine ⟨bytes[row], row, List.getElem?_eq_getElem hrow, b, hb, ?_, hset⟩
    rwa [List.getD_eq_getElem?_getD, List.getElem?_eq_getElem hrow, Option.getD_some] at hbit

/-- Settles O32: where at most one bit falls on a pixel, a set pixel is cleared exactly when one does. -/
theorem spriteIsXoredPixelByPixel : Obligations.SpriteIsXoredPixelByPixel := by
  intro fb ox oy bytes h
  obtain ⟨hwf, hwidth, hheight⟩ := drawSprite_keeps h ox oy bytes
  refine ⟨fun px py hp _ => drawSprite_pixel h ox oy bytes hp, fun hw hh => ?_, rfl, hwidth, hheight, hwf⟩
  rw [drawSprite_collision_iff h ox oy hw hh]
  refine exists_congr fun px => exists_congr fun py => and_congr_right fun hp => and_congr_right fun _ =>
    and_congr_right fun hset => ?_
  have hle := spriteCount_le_one ox oy hw hh px py
  rw [drawSprite_pixel h ox oy bytes hp, hset, Bool.true_xor, Bool.not_eq_false', decide_eq_true_eq]
  omega

end Sys2Proof.Machine
end
